-- ==== Sys2Proof/Word.lean ====
section
/-! DEFINITION. Word types of the block: the bytes and words a bus transaction carries, and the bit patterns of the two
floating-point formats (00_scope.md R6, R10). Nothing here computes; arithmetic on the patterns is Machine/Float.lean. -/

namespace Sys2Proof

/-- One byte of the sample RAM (20_memory.md R81). -/
abbrev Byte := BitVec 8

/-- One 32-bit register or bus word, the spec's `u32` (00_scope.md R6). -/
abbrev Word := BitVec 32

/-- The spec's `u64`: a seed or a PRNG state (00_scope.md R6). -/
abbrev U64 := BitVec 64

/-- The bit pattern of an IEEE 754 binary32 value (00_scope.md R10). -/
abbrev F32 := BitVec 32

/-- The bit pattern of an IEEE 754 binary64 value (00_scope.md R10). -/
abbrev F64 := BitVec 64

end Sys2Proof
end

