-- ==== Sys2Proof/Config.lean ====
section
/-! DEFINITION. What an implementation fixes and what the spec leaves open: the parameters of 00_scope.md R5 as records,
the source's unaudited constants (91_not_in_source.md N1) under names, and the values nothing constrains as opaque
constants without a body. The parameters the machine runs with are `Config.params`, in Machine/Numerics.lean. -/

namespace Sys2Proof

/-- The numerics record NUM (00_scope.md R13): five binary64 functions of one argument. -/
structure Numerics where
  cos64 : F64 → F64
  sin64 : F64 → F64
  log10_64 : F64 → F64
  ln64 : F64 → F64
  exp10_64 : F64 → F64

/-- The implementation parameters of 00_scope.md R5. -/
structure Params where
  /-- BLOCK_BASE, the system address of the block's offset 0 (open: the platform's). -/
  blockBase : Nat
  /-- SRAM_BYTES, the size of the sample RAM. -/
  sramBytes : Nat
  /-- RSSI_MAX_DECIM, the largest accepted decimation factor. -/
  rssiMaxDecim : Nat
  /-- RSSI_P_FLOOR, the power substituted for an exactly zero sample power. -/
  rssiPFloor : F64
  /-- RSSI_COEF(M), the 20M+1 taps h_M(-10M) .. h_M(10M) for a factor M ≥ 2. -/
  rssiCoef : Nat → List F64
  /-- NUM. -/
  num : Numerics

namespace Config

/-! ### Open values: nothing in Lean can evaluate them, so a claim holds whatever they are -/

/-- The n-th free draw of a byte: what a RAM byte never written reads as (20_memory.md R90), and what a destination byte of
an aborted command becomes (70_reset_and_hazards.md R402). -/
opaque freeByte : Nat → Byte

/-- BLOCK_BASE (20_memory.md R80; decision D3: OPEN). -/
opaque blockBase : Nat

/-- The values NUM's functions give where 00_scope.md R13 does not say them (decision D6). -/
opaque rawCos64 : F64 → F64

@[inherit_doc rawCos64]
opaque rawSin64 : F64 → F64

@[inherit_doc rawCos64]
opaque rawLog10 : F64 → F64

@[inherit_doc rawCos64]
opaque rawLn : F64 → F64

@[inherit_doc rawCos64]
opaque rawExp10 : F64 → F64

/-! ### The default values of 00_scope.md R5 -/

/-- SRAM_BYTES (decision D39). -/
def sramBytes : Nat := 65536

/-- RSSI_MAX_DECIM (decision D26). -/
def rssiMaxDecim : Nat := 16

/-- RSSI_P_FLOOR, 2^-298 (decision D21). -/
def rssiPFloor : F64 := 0x2D50000000000000#64

/-! ### The source's constants, each exact in binary64 (00_scope.md R12) -/

/-- 50, the reference impedance in ohms. -/
def refImpedance : F64 := 0x4049000000000000#64

/-- 30, the offset from dBW to dBm. -/
def dbmOffset : F64 := 0x403E000000000000#64

/-- 10, the dB factor. -/
def dbFactor : F64 := 0x4024000000000000#64

/-- 2, the factor of the noise variance. -/
def varianceFactor : F64 := 0x4000000000000000#64

end Config

end Sys2Proof
end

