-- ==== Sys2Proof/Syntax.lean ====
section
/-! DEFINITION. The block's instructions: the seven commands of spec/opcode_table.json (30_encoding.md R111). No command word
carries an operand (R112), so no constructor takes an argument. -/

namespace Sys2Proof

/-- One command of the opcode map (30_encoding.md R111). -/
inductive Instr where
  /-- NOP (40_control.md R140). -/
  | nop
  /-- NCO_BUILD (41_nco.md R150). -/
  | ncoBuild
  /-- NCO_PRODUCE (41_nco.md R160). -/
  | ncoProduce
  /-- NCO_RELEASE (41_nco.md R170). -/
  | ncoRelease
  /-- RSSI_RUN (42_rssi.md R180). -/
  | rssiRun
  /-- NOISE_SEED (43_noise.md R212). -/
  | noiseSeed
  /-- NOISE_APPLY (43_noise.md R220). -/
  | noiseApply
deriving DecidableEq, Repr

end Sys2Proof
end

