-- ==== Sys2Proof/WellFormed.lean ====
section
/-! DEFINITION. Well-formedness. A command has no operand, so every `Instr` is well-formed; what can be ill-formed is a
command word (30_encoding.md R110, R113) and a choice of the implementation parameters (00_scope.md R5, R13). -/

namespace Sys2Proof

/-- Bits 31:8 of a command word, the reserved field, are 0 (30_encoding.md R110). -/
def reservedZero (w : Word) : Bool := decide (w.extractLsb' 8 24 = 0#24)

/-- Bits 7:0 of a command word, OPC, are an operation code of the map (30_encoding.md R111, R113). -/
def opcodeKnown (w : Word) : Bool :=
  [0x00#8, 0x01#8, 0x02#8, 0x03#8, 0x10#8, 0x20#8, 0x21#8].contains (w.extractLsb' 0 8)

/-- A word that selects a command (30_encoding.md R111: all 32 bits are compared). -/
def wordWellFormed (w : Word) : Bool := reservedZero w && opcodeKnown w

/-- Every command is well-formed: it has no operand field that could be out of range (30_encoding.md R112). -/
def Instr.wellFormed : Instr → Bool
  | .nop => true
  | .ncoBuild => true
  | .ncoProduce => true
  | .ncoRelease => true
  | .rssiRun => true
  | .noiseSeed => true
  | .noiseApply => true

namespace Params

/-- SRAM_BYTES is a multiple of 8, from 8 to 2^31 (00_scope.md R5). -/
def sramLegal (p : Params) : Bool :=
  decide (p.sramBytes % 8 = 0) && decide (8 ≤ p.sramBytes) && decide (p.sramBytes ≤ 2 ^ 31)

/-- RSSI_MAX_DECIM is from 1 to 2^16 (00_scope.md R5). -/
def maxDecimLegal (p : Params) : Bool :=
  decide (1 ≤ p.rssiMaxDecim) && decide (p.rssiMaxDecim ≤ 2 ^ 16)

/-- RSSI_P_FLOOR is a positive finite binary64 (00_scope.md R5). -/
def floorLegal (p : Params) : Bool :=
  decide (0 < p.rssiPFloor.toNat) && decide (p.rssiPFloor.toNat < 0x7FF0000000000000)

/-- RSSI_COEF(M) has 20M+1 taps and is symmetric (00_scope.md R5; 42_rssi.md R186). -/
def coefLegal (p : Params) (m : Nat) : Bool :=
  decide ((p.rssiCoef m).length = 20 * m + 1) && decide ((p.rssiCoef m).reverse = p.rssiCoef m)

/-- Every check of the legal values of 00_scope.md R5 that is on data. -/
def wellFormed (p : Params) : Bool :=
  p.sramLegal && p.maxDecimLegal && p.floorLegal &&
    (List.range (p.rssiMaxDecim - 1)).all fun i => p.coefLegal (i + 2)

end Params

end Sys2Proof
end

