-- ==== Sys2Proof/Decode.lean ====
section
/-! DEFINITION. The decoder and, after it, the encoder of the 32-bit command word (30_encoding.md R110 to R113). The decoder is
total: a word outside the map is rejected by name. -/

namespace Sys2Proof

/-- Why a word is no command (30_encoding.md R113). -/
inductive DecodeError where
  /-- Bits 31:8 are not all 0. -/
  | reservedNonzero
  /-- Bits 7:0 are no operation code of the map. -/
  | unknownOpcode (opc : BitVec 8)
deriving DecidableEq, Repr

/-- The opcode map of 30_encoding.md R111: word and command. -/
def opcodeMap : List (Word × Instr) :=
  [(0x00000000#32, .nop),
   (0x00000001#32, .ncoBuild),
   (0x00000002#32, .ncoProduce),
   (0x00000003#32, .ncoRelease),
   (0x00000010#32, .rssiRun),
   (0x00000020#32, .noiseSeed),
   (0x00000021#32, .noiseApply)]

/-- A word selects a command only when it equals a row of the map in all 32 bits (30_encoding.md R110, R111). -/
def decode (w : Word) : Except DecodeError Instr :=
  match opcodeMap.lookup w with
  | some i => .ok i
  | none =>
    if reservedZero w then .error (.unknownOpcode (w.extractLsb' 0 8)) else .error .reservedNonzero

/-- The command word of a command (30_encoding.md R111). -/
def encode : Instr → Word
  | .nop => 0x00000000#32
  | .ncoBuild => 0x00000001#32
  | .ncoProduce => 0x00000002#32
  | .ncoRelease => 0x00000003#32
  | .rssiRun => 0x00000010#32
  | .noiseSeed => 0x00000020#32
  | .noiseApply => 0x00000021#32

/-- The command word whose low `nbits` bits are those of w and whose other bits are 0; none where these bits do not fit the
one 32-bit format (30_encoding.md R110). -/
def tableWord (nbits w : Nat) : Option Word :=
  if w % 2 ^ nbits < 2 ^ 32 then some (BitVec.ofNat 32 (w % 2 ^ nbits)) else none

/-- The command the decoder reads from bits numbered as spec/opcode_table.json numbers them. -/
def decodeTableWord (nbits w : Nat) : Option Instr :=
  match tableWord nbits w with
  | none => none
  | some cw =>
    match decode cw with
    | .ok i => some i
    | .error _ => none

end Sys2Proof
end

