-- ==== Sys2Proof/Machine/State.lean ====
section
/-! DEFINITION. The whole state of the block as plain data (10_state.md R30), the model's own fields beside it, the reasons a
step can stop, and the state after reset (70_reset_and_hazards.md R401). -/

namespace Sys2Proof.Machine

/-- The codes of STATUS.ERR (60_exceptions.md R300); codes 6 to 15 are never produced. -/
inductive ErrCode where
  /-- 0: the command succeeded and committed its effects. -/
  | ok
  /-- 1: the accepted word is not in the opcode map. -/
  | illegalCmd
  /-- 2: NCO_PRODUCE while no oscillator exists. -/
  | notBuilt
  /-- 3: an invalid parameter. -/
  | badParam
  /-- 4: a buffer is not aligned or not wholly inside the sample RAM. -/
  | badRange
  /-- 5: the buffers of a command overlap in a way it does not allow. -/
  | overlap
deriving DecidableEq, Repr

/-- The live oscillator state `nco` (10_state.md R60). -/
structure Nco where
  valid : Bool
  amp : F64
  inc : F64
  phase : F64
  chunk : Word
  count : Word
deriving DecidableEq, Repr

/-- No oscillator: every field 0 (10_state.md R60). -/
def Nco.none : Nco :=
  { valid := false, amp := 0#64, inc := 0#64, phase := 0#64, chunk := 0#32, count := 0#32 }

/-- The sample RAM: byte offset and value of every byte that something has written, offsets strictly rising. A byte that is
not listed has no value (20_memory.md R90; assumption log 5). -/
abbrev Ram := List Host.Cell

/-- A bus transaction at a window offset (20_memory.md R82); `width` is in bits, and only 32 is served (R83). -/
inductive Txn where
  | read (width off : Nat)
  | write (width off : Nat) (data : Word)
deriving DecidableEq, Repr

/-- A transaction issued by the host numbered `host`. -/
structure Issued where
  host : Nat
  txn : Txn
deriving DecidableEq, Repr

/-- What the bus answers (20_memory.md R82). A hold is no answer: the transaction stands in `State.held`, and what its host
issues meanwhile in `State.queued`. -/
inductive Answer where
  /-- `ok(d)`, to a read. -/
  | okData (d : Word)
  /-- `ok`, to a write. -/
  | ok
  /-- `error` (20_memory.md R83). -/
  | error
deriving DecidableEq, Repr

/-- One answered transaction. -/
structure Reply where
  host : Nat
  txn : Txn
  answer : Answer
deriving DecidableEq, Repr

/-- What happens next at the block's ports, or the engine's turn (40_control.md R130, R138; 60_exceptions.md R317). -/
inductive Event where
  /-- The command engine moves. -/
  | engine
  /-- A host issues a transaction. -/
  | bus (i : Issued)
  /-- `rst_n` goes low (70_reset_and_hazards.md R400). -/
  | resetLow
  /-- `rst_n` returns high (70_reset_and_hazards.md R400). -/
  | resetHigh
  /-- Power is removed and returns with `rst_n` low (60_exceptions.md R316). -/
  | powerCycle
deriving DecidableEq, Repr

/-- The state of the block, and below it the model's own fields. STATUS.BUSY is `pending.isSome` (10_state.md R63), STATUS.NCO_VALID
is `nco.valid`, and ID and VERSION are constants: none of them is stored twice (assumption log 7). -/
structure State where
  /-- CTRL.IRQ_EN (10_state.md R34). -/
  irqEn : Bool
  /-- STATUS.DONE (10_state.md R35). -/
  done : Bool
  /-- STATUS.BUSY_VIOL (10_state.md R35). -/
  busyViol : Bool
  /-- STATUS.ERR (10_state.md R35). -/
  err : ErrCode
  /-- CMD (10_state.md R36). -/
  cmd : Word
  /-- NCO_AMP (10_state.md R37). -/
  ncoAmp : F64
  /-- NCO_FREQ (10_state.md R38). -/
  ncoFreq : F64
  /-- NCO_RATE (10_state.md R39). -/
  ncoRate : F64
  /-- NCO_CHUNK (10_state.md R40). -/
  ncoChunk : Word
  /-- NCO_DST (10_state.md R41). -/
  ncoDst : Word
  /-- The live oscillator (10_state.md R42 to R46, R60). -/
  nco : Nco
  /-- RSSI_SRC (10_state.md R47). -/
  rssiSrc : Word
  /-- RSSI_LEN (10_state.md R48). -/
  rssiLen : Word
  /-- RSSI_DST (10_state.md R49). -/
  rssiDst : Word
  /-- RSSI_DECIM (10_state.md R50). -/
  rssiDecim : Word
  /-- RSSI_GAIN (10_state.md R51). -/
  rssiGain : F64
  /-- RSSI_MERR (10_state.md R52). -/
  rssiMerr : F64
  /-- RSSI_OUTLEN (10_state.md R53). -/
  rssiOutlen : Word
  /-- NOISE_SRC (10_state.md R54). -/
  noiseSrc : Word
  /-- NOISE_LEN (10_state.md R55). -/
  noiseLen : Word
  /-- NOISE_DST (10_state.md R56). -/
  noiseDst : Word
  /-- NOISE_SNR (10_state.md R57). -/
  noiseSnr : F64
  /-- NOISE_RATE (10_state.md R58). -/
  noiseRate : F64
  /-- NOISE_SEED (10_state.md R59). -/
  noiseSeed : U64
  /-- `prng.state`, read as NOISE_STATE (10_state.md R61). -/
  prng : U64
  /-- NOISE_VAR (10_state.md R62). -/
  noiseVar : F64
  /-- `engine.pending` (10_state.md R63). -/
  pending : Option Word
  /-- The sample RAM (20_memory.md R81). -/
  ram : Ram
  /-- The level of `rst_n` (60_exceptions.md R317). -/
  rstN : Bool
  /-- The model's own: the sample-RAM accesses that hold (20_memory.md R87), oldest first. -/
  held : List Issued
  /-- The model's own: the transactions that wait behind an earlier one of the same host (20_memory.md R82; 40_control.md R138),
  oldest first. -/
  queued : List Issued
  /-- The model's own: the outside events still to come, in their order (40_control.md R138). -/
  schedule : List Event
  /-- The model's own: the answers the bus has given, newest first. -/
  replies : List Reply
  /-- The model's own: how many free byte values have been used (20_memory.md R90). -/
  draws : Nat
deriving DecidableEq, Repr

/-- What stops the machine with a fault. -/
inductive Fault where
  /-- Raised by the engine's RAM operations for an access outside 0 .. SRAM_BYTES-1, which no rule lets a command make
  (20_memory.md R81). Safe: the machine stops and claims nothing. -/
  | ramOutOfRange (offset : Nat)
deriving DecidableEq, Repr

/-- What the machine gives no meaning to. -/
inductive Refusal where
  /-- Raised by exec's arm of an instruction that has no meaning yet. Safe: it claims nothing. No arm is left with it. -/
  | notModelled (mnemonic : String)
  /-- Raised by the step for a bus transaction issued while `rst_n` is low: the platform's concern, and a model refuses it
  (70_reset_and_hazards.md R400). Safe: it claims nothing. -/
  | busWhileReset (host : Nat)
deriving DecidableEq, Repr

/-- The state after a hardware reset has been left, at power-on (70_reset_and_hazards.md R400, R401). NOISE_RATE is 1.0; every
other register and state field is 0 and no byte of the sample RAM has a value. The model's own fields are empty. -/
def State.reset : State where
  irqEn := false
  done := false
  busyViol := false
  err := .ok
  cmd := 0x00000000#32
  ncoAmp := 0#64
  ncoFreq := 0#64
  ncoRate := 0#64
  ncoChunk := 0#32
  ncoDst := 0#32
  nco := Nco.none
  rssiSrc := 0#32
  rssiLen := 0#32
  rssiDst := 0#32
  rssiDecim := 0#32
  rssiGain := 0#64
  rssiMerr := 0#64
  rssiOutlen := 0#32
  noiseSrc := 0#32
  noiseLen := 0#32
  noiseDst := 0#32
  noiseSnr := 0#64
  noiseRate := 0x3FF0000000000000#64
  noiseSeed := 0#64
  prng := 0#64
  noiseVar := 0#64
  pending := none
  ram := []
  rstN := true
  held := []
  queued := []
  schedule := []
  replies := []
  draws := 0

end Sys2Proof.Machine
end

