-- ==== Sys2Proof/Machine/Flags.lean ====
section
/-! DEFINITION. The STATUS and CTRL registers field by field (10_state.md R34, R35), the error codes (60_exceptions.md R300) and
the interrupt output (60_exceptions.md R306). The block has no arithmetic flags (10_state.md R30). -/

namespace Sys2Proof.Machine

/-- The number of an error code (60_exceptions.md R300). -/
def ErrCode.number : ErrCode → BitVec 4
  | .ok => 0#4
  | .illegalCmd => 1#4
  | .notBuilt => 2#4
  | .badParam => 3#4
  | .badRange => 4#4
  | .overlap => 5#4

/-- STATUS.BUSY: a command is pending (10_state.md R35, R63). -/
def busy (s : State) : Bool := s.pending.isSome

/-- STATUS as it reads (10_state.md R35): BUSY bit 0, DONE bit 1, BUSY_VIOL bit 2, NCO_VALID bit 3, ERR bits 11:8, every other bit 0. -/
def statusWord (s : State) : Word :=
  0#20 ++ s.err.number ++ 0#4 ++ BitVec.ofBool s.nco.valid ++ BitVec.ofBool s.busyViol ++
    BitVec.ofBool s.done ++ BitVec.ofBool (busy s)

/-- A STATUS write: a 1 in bit 1 clears DONE, a 1 in bit 2 clears BUSY_VIOL, nothing else changes (10_state.md R35). -/
def writeStatus (s : State) (v : Word) : State :=
  { s with done := s.done && !v.getLsbD 1, busyViol := s.busyViol && !v.getLsbD 2 }

/-- CTRL as it reads: IRQ_EN in bit 0, every other bit 0 (10_state.md R34). -/
def ctrlWord (s : State) : Word := 0#31 ++ BitVec.ofBool s.irqEn

/-- The interrupt output: CTRL.IRQ_EN ∧ STATUS.DONE (60_exceptions.md R306), 0 while `rst_n` is low
(70_reset_and_hazards.md R400). -/
def irq (s : State) : Bool := s.rstN && (s.irqEn && s.done)

end Sys2Proof.Machine
end

