-- ==== Sys2Proof/Machine/Float.lean ====
section
/-! DEFINITION. IEEE 754 arithmetic as 00_scope.md R10 and R11 ask for it: every operation takes the exact rational
value of its operands and rounds it once, to nearest with ties to even, overflowing to an infinity. A finite binary64
value is the whole number `F64.scaled x` of units 2^-1074, and a finite binary32 value a whole number of units 2^-149. -/

namespace Sys2Proof

/-! ### Rounding a positive rational to a format -/

/-- A binary interchange format: `frac` stored significand bits, least exponent `emin`, and `infBits` the pattern of +Inf. -/
structure Format where
  frac : Nat
  emin : Int
  infBits : Nat
deriving DecidableEq, Repr

/-- IEEE 754 binary64. -/
def Format.binary64 : Format := ⟨52, -1022, 0x7FF0000000000000⟩

/-- IEEE 754 binary32. -/
def Format.binary32 : Format := ⟨23, -126, 0x7F800000⟩

/-- The integer nearest to num/den, a tie going to the even one (00_scope.md R11). -/
def roundHalfEven (num den : Nat) : Nat :=
  let q := num / den
  let r := num % den
  if 2 * r < den then q
  else if den < 2 * r then q + 1
  else q + q % 2

/-- num/den scaled by 2^(-e), as a pair numerator and denominator. -/
def scaleDown (num den : Nat) (e : Int) : Nat × Nat :=
  if 0 ≤ e then (num, den * 2 ^ e.toNat) else (num * 2 ^ (-e).toNat, den)

/-- The E with 2^E ≤ num/den < 2^(E+1), for positive num and den. -/
def floorLog2 (num den : Nat) : Int :=
  let e : Int := (Nat.log2 num : Int) - (Nat.log2 den : Int)
  let (n, d) := scaleDown num den e
  if d ≤ n then e else e - 1

/-- The pattern, sign bit clear, of num/den rounded to nearest even in the format `f`; +Inf where it overflows
(00_scope.md R11). -/
def roundMagnitude (f : Format) (num den : Nat) : Nat :=
  if num = 0 then 0
  else
    let e := max (floorLog2 num den) f.emin
    let (n, d) := scaleDown num den (e - (f.frac : Int))
    min ((e - f.emin).toNat * 2 ^ f.frac + roundHalfEven n d) f.infBits

/-! ### Binary64 values -/

namespace F64

/-- The one NaN that the model's binary64 operations produce (assumption log 8: no payload is ever visible). -/
def nan : F64 := 0x7FF8000000000000#64

def posInf : F64 := 0x7FF0000000000000#64

def negInf : F64 := 0xFFF0000000000000#64

def posZero : F64 := 0x0000000000000000#64

def one : F64 := 0x3FF0000000000000#64

/-- The sign bit. -/
def sign (x : F64) : Bool := x.msb

/-- The pattern without its sign bit, as a number; the order of the magnitudes is the order of these. -/
def magBits (x : F64) : Nat := x.toNat % 2 ^ 63

def isFinite (x : F64) : Bool := decide (magBits x < 0x7FF0000000000000)

def isNaN (x : F64) : Bool := decide (0x7FF0000000000000 < magBits x)

def isInf (x : F64) : Bool := decide (magBits x = 0x7FF0000000000000)

def isZero (x : F64) : Bool := decide (magBits x = 0)

/-- The magnitude of a finite value in units of 2^-1074: its significand, moved up by its exponent. -/
def scaledMag (x : F64) : Nat :=
  let e := magBits x / 2 ^ 52
  let m := magBits x % 2 ^ 52
  if e = 0 then m else (2 ^ 52 + m) * 2 ^ (e - 1)

/-- The exact value of a finite x in units of 2^-1074. -/
def scaled (x : F64) : Int := if sign x then -(scaledMag x : Int) else (scaledMag x : Int)

/-- 2^1074: how many units make 1. -/
def unitsPerOne : Nat := 2 ^ 1074

/-- The exact value of a finite x. -/
def value (x : F64) : ℚ := (scaled x : ℚ) / 2 ^ 1074

/-- x with the sign bit `neg`. -/
def withSign (neg : Bool) (mag : Nat) : F64 :=
  BitVec.ofNat 64 ((if neg then 2 ^ 63 else 0) + mag)

/-- RNE64 of ±num/den (00_scope.md R11); a zero result keeps the sign `neg`. -/
def ofRatio (neg : Bool) (num den : Nat) : F64 :=
  withSign neg (roundMagnitude .binary64 num den)

/-- RNE64 of the exact value n units of 2^-1074; the zero is +0.0. -/
def ofScaled (n : Int) : F64 := ofRatio (decide (n < 0)) n.natAbs unitsPerOne

/-- A whole number converted to binary64 (exactly, where it has at most 53 significant bits). -/
def ofNat (n : Nat) : F64 := ofRatio false n 1

def neg (x : F64) : F64 := if isNaN x then nan else x ^^^ 0x8000000000000000#64

/-- IEEE 754 addition. An exact zero sum is +0.0 unless both operands are -0.0. -/
def add (x y : F64) : F64 :=
  if isNaN x || isNaN y then nan
  else if isInf x then (if isInf y && (sign x != sign y) then nan else x)
  else if isInf y then y
  else if scaled x + scaled y = 0 then withSign (sign x && sign y) 0
  else ofScaled (scaled x + scaled y)

/-- IEEE 754 subtraction. -/
def sub (x y : F64) : F64 := add x (neg y)

/-- IEEE 754 multiplication. -/
def mul (x y : F64) : F64 :=
  let s := sign x != sign y
  if isNaN x || isNaN y then nan
  else if isInf x || isInf y then (if isZero x || isZero y then nan else withSign s (magBits posInf))
  else ofRatio s (scaledMag x * scaledMag y) (unitsPerOne * unitsPerOne)

/-- IEEE 754 division. -/
def div (x y : F64) : F64 :=
  let s := sign x != sign y
  if isNaN x || isNaN y then nan
  else if isInf x then (if isInf y then nan else withSign s (magBits posInf))
  else if isInf y then withSign s 0
  else if isZero y then (if isZero x then nan else withSign s (magBits posInf))
  else ofRatio s (scaledMag x) (scaledMag y)

/-- x ≤ y as numbers; false where either is a NaN. -/
def le (x y : F64) : Bool :=
  if isNaN x || isNaN y then false
  else if isInf x || isInf y then
    decide (x = y) || decide (x = negInf) || decide (y = posInf)
  else decide (scaled x ≤ scaled y)

/-- x < y as numbers; false where either is a NaN. -/
def lt (x y : F64) : Bool := le x y && !(le y x)

/-- The whole square root of n, found one bit at a time from bit `bits` - 1 down; `root` holds the bits found so far. -/
def sqrtBits (n : Nat) : Nat → Nat → Nat
  | 0, root => root
  | b + 1, root =>
    let trial := root + 2 ^ b
    sqrtBits n b (if trial * trial ≤ n then trial else root)

/-- IEEE 754 square root, correctly rounded; `sqrt (-0) = -0` (00_scope.md R11). The root is taken of the value with an
even number of extra bits, and where it is inexact half a unit is added: no binary64 value or midpoint lies between. -/
def sqrt (x : F64) : F64 :=
  if isNaN x then nan
  else if isZero x then x
  else if sign x then nan
  else if isInf x then x
  else
    let m := scaledMag x * 2 ^ 120
    let r := sqrtBits m 1110 0
    -- x = scaledMag x / 2^1074, so its root is the root of m divided by 2^(537 + 60)
    if r * r = m then ofRatio false r (2 ^ 597) else ofRatio false (2 * r + 1) (2 ^ 598)

end F64

/-! ### Binary32 values and conversions -/

namespace F32

/-- The single canonical quiet NaN that RNE32 gives (00_scope.md R11). -/
def nan : F32 := 0x7FC00000#32

def magBits (x : F32) : Nat := x.toNat % 2 ^ 31

def isNaN (x : F32) : Bool := decide (0x7F800000 < magBits x)

def isInf (x : F32) : Bool := decide (magBits x = 0x7F800000)

/-- The magnitude of a finite value in units of 2^-149. -/
def scaledMag (x : F32) : Nat :=
  let e := magBits x / 2 ^ 23
  let m := magBits x % 2 ^ 23
  if e = 0 then m else (2 ^ 23 + m) * 2 ^ (e - 1)

/-- A binary32 value widened to binary64, exactly; a NaN stays a NaN (00_scope.md R10). -/
def widen (x : F32) : F64 :=
  if isNaN x then F64.nan
  else if isInf x then F64.withSign x.msb (F64.magBits F64.posInf)
  else F64.ofRatio x.msb (scaledMag x) (2 ^ 149)

/-- A finite value. -/
def isFinite (x : F32) : Bool := !isNaN x && !isInf x

/-- The exact value of a finite x. -/
def value (x : F32) : ℚ := F64.value (widen x)

end F32

/-- RNE32: a binary64 value rounded to binary32, every NaN to the canonical one (00_scope.md R11). -/
def F64.toF32 (x : F64) : F32 :=
  if F64.isNaN x then F32.nan
  else
    let mag :=
      if F64.isInf x then Format.binary32.infBits
      else roundMagnitude .binary32 (F64.scaledMag x) F64.unitsPerOne
    BitVec.ofNat 32 ((if F64.sign x then 2 ^ 31 else 0) + mag)

/-! ### The constants of 00_scope.md R12 and the reduction of 41_nco.md R164 -/

namespace F64

/-- TWO_PI, the binary64 value nearest 2π and the block's only representation of it (00_scope.md R12). -/
def twoPi : F64 := 0x401921FB54442D18#64

/-- MOD2PI of a finite u (41_nco.md R164): the exact remainder of u by TWO_PI, rounded once, TWO_PI itself becoming +0.0. -/
def mod2Pi (u : F64) : F64 :=
  let x := ofScaled (scaled u % (scaledMag twoPi : Int))
  if x = twoPi then posZero else x

end F64

end Sys2Proof
end

