-- ==== Sys2Proof/Machine/Taps.lean ====
section
/-! DEFINITION. The default decimation filter of 42_rssi.md R186, `Config.defaultCoef`: a Kaiser-windowed sinc (β = 5, half
length K = 10M, cutoff 1/M), normalised to unit DC gain and rounded once per tap. The real functions are evaluated in
fixed point with 320 fraction bits and the quotient of R186 is rounded from there (assumption log 12). -/

namespace Sys2Proof.Taps

/-- The fixed-point unit: a real x is held as the whole number x * 2^320, rounded down. -/
def unit : Nat := 2 ^ 320

/-- Σ (-1)^i x^(2i+1)/(2i+1) in fixed point for x = 1/n, the terms i .. i+fuel-1, `pow` being x^(2i+1). -/
def arctanInvSeries (n : Nat) : Nat → Nat → Nat → Int
  | 0, _, _ => 0
  | fuel + 1, i, pow => (pow / (2 * i + 1) : Nat) - arctanInvSeries n fuel (i + 1) (pow / (n * n))

/-- π in fixed point, by Machin's formula π = 16 arctan(1/5) - 4 arctan(1/239). -/
def pi : Nat :=
  (16 * arctanInvSeries 5 160 0 (unit / 5) - 4 * arctanInvSeries 239 160 0 (unit / 239)).toNat

/-- Σ (q^k / (k!)²) in fixed point for q = num/den, from the term `term` of index k on. -/
def besselSeries (num den : Nat) : Nat → Nat → Nat → Nat
  | 0, _, _ => 0
  | fuel + 1, k, term => term + besselSeries num den fuel (k + 1) (term * num / (den * ((k + 1) * (k + 1))))

/-- I0(β · sqrt(1 - (j/K)²)) in fixed point: the series of R186 has only even powers, so with z = β·sqrt(1 - (j/K)²) its
argument (z/2)² is the rational 25·(K² - j²) / (4·K²). -/
def window (bigK j : Nat) : Nat :=
  besselSeries (25 * (bigK * bigK - j * j)) (4 * bigK * bigK) 80 0 unit

/-- The sine series Σ (-1)^i x^(2i+1)/(2i+1)! in fixed point, from the term `term` of index i on. -/
def sineSeries (x : Nat) : Nat → Nat → Nat → Int
  | 0, _, _ => 0
  | fuel + 1, i, term =>
    (term : Int) - sineSeries x fuel (i + 1) (term * x / unit * x / (unit * ((2 * i + 2) * (2 * i + 3))))

/-- sin(π·r/m) in fixed point for 0 ≤ r ≤ m, folded to the first quadrant. -/
def sinPi (m r : Nat) : Int :=
  let x := pi * min r (m - r) / m
  sineSeries x 80 0 x

/-- I0(0 .. ) times sinc(j/M) in fixed point: c(j) of R186 times the constant I0(β), which the normalisation cancels. The
zeros of the sinc are exact. -/
def shape (m j : Nat) : Int :=
  let w : Int := window (10 * m) j
  if j = 0 then w
  else if j % m = 0 then 0
  else
    let s := if j / m % 2 = 0 then sinPi m (j % m) else -sinPi m (j % m)
    w * s * m / (pi * j : Nat)

/-- c(0), c(1), .., c(K) of R186, each times I0(β), in fixed point. -/
def halfShape (m : Nat) : List Int := (List.range (10 * m + 1)).map (shape m)

/-- Σ c(i) for i from -K to K, from the half c(0) .. c(K). -/
def total : List Int → Int
  | [] => 0
  | c0 :: rest => c0 + 2 * rest.sum

/-- h_M(j) of R186: c over the sum of the c, rounded once. -/
def tap (sum c : Int) : F64 :=
  if c = 0 then F64.posZero else F64.ofRatio (decide (c < 0)) c.natAbs sum.natAbs

/-- h_M(-K) .. h_M(K), from h_M(0) .. h_M(K). -/
def mirror : List F64 → List F64
  | [] => []
  | h0 :: rest => rest.reverse ++ h0 :: rest

/-- The default RSSI_COEF(M) of 42_rssi.md R186. -/
def defaultCoef (m : Nat) : List F64 :=
  let c := halfShape m
  mirror (c.map (tap (total c)))

end Sys2Proof.Taps
end

