-- ==== Sys2Proof/Machine/Numerics.lean ====
section
/-! DEFINITION. The numerics record NUM of 00_scope.md R13 and the parameters the machine runs with. Each function of
`Config.num` is an open function (Config.rawCos64 and the others) held to the properties R13 states and to the few exact
values the spec states for the correctly rounded NUM that is the default of R5; everything else about it is open
(assumption log 9). -/

namespace Sys2Proof

namespace F64

/-- -1 ≤ x ≤ 1. -/
def inUnitInterval (x : F64) : Bool := decide (magBits x ≤ magBits one)

/-- v where it is a NaN, and the model's NaN otherwise. -/
def asNaN (v : F64) : F64 := if isNaN v then v else nan

end F64

namespace Numerics

/-- `raw` with the values of a table of exact ones put in. -/
def pinned (table : List (F64 × F64)) (raw : F64 → F64) (x : F64) : F64 :=
  match table.lookup x with
  | some y => y
  | none => raw x

/-- k and 10^k for every whole k with 10^k exact in binary64 (00_scope.md R13). -/
def powersOfTen : List (F64 × F64) := (List.range 23).map fun k => (F64.ofNat k, F64.ofNat (10 ^ k))

/-- A cosine or sine held to R13: a NaN at NaN and ±Inf, a value in [-1, 1] at a finite argument. -/
def boundedTrig (raw : F64 → F64) (x : F64) : F64 :=
  if F64.isFinite x then (if F64.inUnitInterval (raw x) then raw x else F64.posZero) else F64.asNaN (raw x)

/-- A logarithm held to R13: NaN at NaN and below zero, -Inf at ±0, +Inf at +Inf. -/
def boundedLog (raw : F64 → F64) (x : F64) : F64 :=
  if F64.isNaN x then F64.asNaN (raw x)
  else if F64.isZero x then F64.negInf
  else if F64.sign x then F64.asNaN (raw x)
  else if F64.isInf x then F64.posInf
  else raw x

/-- A power of ten held to R13: NaN at NaN, +Inf at +Inf, +0 at -Inf. -/
def boundedExp (raw : F64 → F64) (x : F64) : F64 :=
  if F64.isNaN x then F64.asNaN (raw x)
  else if F64.isInf x then (if F64.sign x then F64.posZero else F64.posInf)
  else raw x

/-- The properties of 00_scope.md R13 that a model assumes of NUM. -/
structure Admissible (n : Numerics) : Prop where
  cos_nan : ∀ x, F64.isNaN x → F64.isNaN (n.cos64 x)
  sin_nan : ∀ x, F64.isNaN x → F64.isNaN (n.sin64 x)
  log10_nan : ∀ x, F64.isNaN x → F64.isNaN (n.log10_64 x)
  ln_nan : ∀ x, F64.isNaN x → F64.isNaN (n.ln64 x)
  exp10_nan : ∀ x, F64.isNaN x → F64.isNaN (n.exp10_64 x)
  cos_inf : ∀ x, F64.isInf x → F64.isNaN (n.cos64 x)
  sin_inf : ∀ x, F64.isInf x → F64.isNaN (n.sin64 x)
  cos_bound : ∀ x, F64.isFinite x → F64.inUnitInterval (n.cos64 x)
  sin_bound : ∀ x, F64.isFinite x → F64.inUnitInterval (n.sin64 x)
  log10_zero : ∀ x, F64.isZero x → n.log10_64 x = F64.negInf
  ln_zero : ∀ x, F64.isZero x → n.ln64 x = F64.negInf
  log10_neg : ∀ x, F64.lt x F64.posZero → F64.isNaN (n.log10_64 x)
  ln_neg : ∀ x, F64.lt x F64.posZero → F64.isNaN (n.ln64 x)
  log10_inf : n.log10_64 F64.posInf = F64.posInf
  ln_inf : n.ln64 F64.posInf = F64.posInf
  exp10_posInf : n.exp10_64 F64.posInf = F64.posInf
  exp10_negInf : n.exp10_64 F64.negInf = F64.posZero

/-- The exact values that the spec states for the correctly rounded NUM: the powers of ten (00_scope.md R13), cos64(0) = 1 and
sin64(0) = +0 (95_test_vectors.md V-NCO-4), and ln64(1) = +0, by which u1 = 1 gives r = -0.0 (43_noise.md R211). -/
structure Exact (n : Numerics) : Prop where
  exp10_pow : ∀ k, k ≤ 22 → n.exp10_64 (F64.ofNat k) = F64.ofNat (10 ^ k)
  log10_pow : ∀ k, k ≤ 22 → n.log10_64 (F64.ofNat (10 ^ k)) = F64.ofNat k
  cos_zero : n.cos64 F64.posZero = F64.one
  sin_zero : n.sin64 F64.posZero = F64.posZero
  ln_one : n.ln64 F64.one = F64.posZero

end Numerics

namespace Config

/-- The block's NUM (00_scope.md R13). -/
def num : Numerics where
  cos64 := Numerics.boundedTrig (Numerics.pinned [(F64.posZero, F64.one)] rawCos64)
  sin64 := Numerics.boundedTrig (Numerics.pinned [(F64.posZero, F64.posZero)] rawSin64)
  log10_64 := Numerics.boundedLog (Numerics.pinned (Numerics.powersOfTen.map Prod.swap) rawLog10)
  ln64 := Numerics.boundedLog (Numerics.pinned [(F64.one, F64.posZero)] rawLn)
  exp10_64 := Numerics.boundedExp (Numerics.pinned Numerics.powersOfTen rawExp10)

/-- The parameters of the spec's hardware: the defaults of 00_scope.md R5, with BLOCK_BASE and NUM open. -/
def params : Params where
  blockBase := blockBase
  sramBytes := sramBytes
  rssiMaxDecim := rssiMaxDecim
  rssiPFloor := rssiPFloor
  rssiCoef := Taps.defaultCoef
  num := num

end Config

end Sys2Proof
end

