-- ==== Sys2Proof/Machine/Ops.lean ====
section
/-! DEFINITION. The operations every command shares: the sample RAM byte by byte and word by word (20_memory.md R81, R84, R90;
00_scope.md R8), and ending a command (00_scope.md R9; 40_control.md R131, R134, R135). -/

namespace Sys2Proof.Machine

/-! ### The sample RAM -/

/-- What the byte at offset a holds; `none` where nothing has written it. -/
def Ram.read : Ram → Nat → Option Byte
  | [], _ => none
  | c :: m, a => if c.1 = a then some c.2 else Ram.read m a

/-- The RAM with the byte at offset a set to b. -/
def Ram.write : Ram → Nat → Byte → Ram
  | [], a, b => [(a, b)]
  | c :: m, a, b =>
    if a < c.1 then (a, b) :: c :: m
    else if a = c.1 then (a, b) :: m
    else c :: Ram.write m a b

/-- Every listed offset of m is above `low`, and they strictly rise. -/
def Ram.risingFrom : Nat → Ram → Bool
  | _, [] => true
  | low, c :: m => decide (low ≤ c.1) && Ram.risingFrom (c.1 + 1) m

/-- The canonical form: offsets strictly rise. No entry can equal what an unlisted byte reads as, since that is no value. -/
def Ram.wf (m : Ram) : Bool := Ram.risingFrom 0 m

/-- Every listed offset is below n. -/
def Ram.below (n : Nat) (m : Ram) : Bool := m.all fun c => decide (c.1 < n)

/-- The word w written little-endian at offset a (20_memory.md R84). -/
def Ram.writeWord (m : Ram) (a : Nat) (w : Word) : Ram :=
  Ram.write (Ram.write (Ram.write (Ram.write m a (w.extractLsb' 0 8))
    (a + 1) (w.extractLsb' 8 8)) (a + 2) (w.extractLsb' 16 8)) (a + 3) (w.extractLsb' 24 8)

/-- Consecutive words from offset a on. -/
def Ram.writeWords : Ram → Nat → List Word → Ram
  | m, _, [] => m
  | m, a, w :: ws => Ram.writeWords (Ram.writeWord m a w) (a + 4) ws

/-- A read of the byte at offset a when d free values have been used: what it holds, or, where nothing has written it, a fresh
free draw (20_memory.md R90). The second part is how many free values have been used then. -/
def drawByte (m : Ram) (d a : Nat) : Byte × Nat :=
  match Ram.read m a with
  | some b => (b, d)
  | none => (Config.freeByte d, d + 1)

/-- `MemRead(a, 4)` (00_scope.md R8; 20_memory.md R84). -/
def drawWord (m : Ram) (d a : Nat) : Word × Nat :=
  let b0 := drawByte m d a
  let b1 := drawByte m b0.2 (a + 1)
  let b2 := drawByte m b1.2 (a + 2)
  let b3 := drawByte m b2.2 (a + 3)
  (b3.1 ++ b2.1 ++ b1.1 ++ b0.1, b3.2)

/-- `ReadSample(a)`: the real part at a, the imaginary part at a + 4 (00_scope.md R8; 20_memory.md R85). -/
def drawSample (m : Ram) (d a : Nat) : (F32 × F32) × Nat :=
  let re := drawWord m d a
  let im := drawWord m re.2 (a + 4)
  ((re.1, im.1), im.2)

/-- The n samples from offset a on, in sequence order (20_memory.md R85). -/
def drawSamples (m : Ram) : Nat → Nat → Nat → List (F32 × F32) × Nat
  | d, _, 0 => ([], d)
  | d, a, n + 1 =>
    let x := drawSample m d a
    let rest := drawSamples m x.2 (a + 8) n
    (x.1 :: rest.1, rest.2)

/-- The words of samples as they lie in the RAM (20_memory.md R85). -/
def sampleWords : List (F32 × F32) → List Word
  | [] => []
  | x :: xs => x.1 :: x.2 :: sampleWords xs

/-- The engine reads n samples from offset a on; it reaches no memory but the RAM (20_memory.md R81). -/
def loadSamples (p : Params) (s : State) (a n : Nat) : Except Fault (List (F32 × F32) × Nat) :=
  if a + 8 * n ≤ p.sramBytes then .ok (drawSamples s.ram s.draws a n) else .error (.ramOutOfRange a)

/-- The engine writes words from offset a on; it reaches no memory but the RAM (20_memory.md R81). -/
def storeWords (p : Params) (m : Ram) (a : Nat) (ws : List Word) : Except Fault Ram :=
  if a + 4 * ws.length ≤ p.sramBytes then .ok (Ram.writeWords m a ws) else .error (.ramOutOfRange a)

/-- n bytes from offset a on each become a fresh free draw (70_reset_and_hazards.md R402). -/
def scramble : Ram → Nat → Nat → Nat → Ram × Nat
  | m, d, _, 0 => (m, d)
  | m, d, a, n + 1 => scramble (Ram.write m a (Config.freeByte d)) (d + 1) (a + 1) n

/-! ### Accepting and ending a command -/

/-- Acceptance of the command word w (40_control.md R131): BUSY, which is `pending.isSome`, becomes 1. -/
def accept (s : State) (w : Word) : State :=
  { s with cmd := w, pending := some w, done := false }

/-- `complete(code)` (00_scope.md R9; 40_control.md R134): the end of a command and the block's only way to take an error. No
state is saved and nothing transfers control (60_exceptions.md R307), and there is no return from it (R308). -/
def complete (s : State) (code : ErrCode) : State :=
  { s with err := code, done := true, pending := none }

/-- How a command's arm ends: with its staged effects to commit, with an error, or outside the RAM. -/
inductive Attempt where
  /-- Every check passed; `s` is the state with the staged effects. -/
  | commit (s : State)
  /-- `raise code`; free values used by the reads that came first stay used. -/
  | raise (code : ErrCode) (draws : Nat)
  /-- The engine would have left the RAM. -/
  | broken (f : Fault)
deriving DecidableEq, Repr

/-- Commit everything or nothing (40_control.md R134, R135). -/
def conclude (s : State) : Attempt → Host.Outcome State Fault Refusal
  | .commit t => .next (complete t .ok)
  | .raise code d => .next (complete { s with draws := d } code)
  | .broken f => .fault f

end Sys2Proof.Machine
end

