-- ==== Sys2Proof/Machine/Operands.lean ====
section
/-! DEFINITION. Operand assembly (30_encoding.md R112; 00_scope.md R7): the two halves of 64-bit registers, the checks on
binary64 operands and on buffers (20_memory.md R81), and the output region a command word names
(70_reset_and_hazards.md R402). -/

namespace Sys2Proof.Machine

/-! ### The halves of a 64-bit register (20_memory.md R91) -/

/-- Bits 31:0, the register X_LO. -/
def loHalf (x : BitVec 64) : Word := x.extractLsb' 0 32

/-- Bits 63:32, the register X_HI. -/
def hiHalf (x : BitVec 64) : Word := x.extractLsb' 32 32

/-- A write to X_LO. -/
def setLo (x : BitVec 64) (w : Word) : BitVec 64 := hiHalf x ++ w

/-- A write to X_HI. -/
def setHi (x : BitVec 64) (w : Word) : BitVec 64 := w ++ loHalf x

/-! ### Checks -/

/-- x is finite and x > 0 (41_nco.md R151 check 3). -/
def positiveFinite (x : F64) : Bool := F64.isFinite x && F64.lt F64.posZero x

/-- 0 < x ≤ 1; a NaN fails (43_noise.md R221 check 3). -/
def inHalfOpenUnit (x : F64) : Bool := F64.lt F64.posZero x && F64.le x F64.one

/-- The buffer of `len` bytes at offset a is aligned to `align` and lies inside the RAM, on mathematical integers
(20_memory.md R81). -/
def bufferOk (p : Params) (align a len : Nat) : Bool :=
  decide (a % align = 0) && decide (a + len ≤ p.sramBytes)

/-- The byte ranges a .. a+la-1 and b .. b+lb-1 have no byte in common. -/
def disjoint (a la b lb : Nat) : Bool := decide (a + la ≤ b) || decide (b + lb ≤ a)

/-- ceil(n / d), for d ≥ 1 (42_rssi.md R188). -/
def ceilDiv (n d : Nat) : Nat := (n + d - 1) / d

/-! ### The output region of a command -/

/-- dest(w): the first offset and the length in bytes of the output region that the word w names with the operands the state
holds (70_reset_and_hazards.md R402); no byte for a word that writes none. -/
def destRegion (s : State) (w : Word) : Nat × Nat :=
  if w = 0x00000002#32 then (s.ncoDst.toNat, 8 * s.nco.chunk.toNat)
  else if w = 0x00000010#32 then
    (s.rssiDst.toNat, if s.rssiDecim = 0#32 then 0 else 4 * ceilDiv s.rssiLen.toNat s.rssiDecim.toNat)
  else if w = 0x00000021#32 then (s.noiseDst.toNat, 8 * s.noiseLen.toNat)
  else (0, 0)

/-- dest(w) cut to the bytes inside 0 .. SRAM_BYTES-1: first offset and length (70_reset_and_hazards.md R402). -/
def destInRam (p : Params) (s : State) (w : Word) : Nat × Nat :=
  ((destRegion s w).1, min (destRegion s w).2 (p.sramBytes - (destRegion s w).1))

end Sys2Proof.Machine
end

