-- ==== Sys2Proof/Machine/Reset.lean ====
section
/-! DEFINITION. Reset (70_reset_and_hazards.md R400 to R402; 60_exceptions.md R316): what it does to registers and state, and to
the destination bytes of the command it aborts. -/

namespace Sys2Proof.Machine

/-- Every register and state field at its value of 70_reset_and_hazards.md R401; the RAM, the level of `rst_n`, and the model's own
fields are not touched. -/
def resetRegisters (s : State) : State :=
  { State.reset with
    ram := s.ram, rstN := s.rstN, held := s.held, queued := s.queued, schedule := s.schedule, replies := s.replies,
    draws := s.draws }

/-- The RAM's part in aborting a command: each byte of dest(engine.pending) inside the RAM becomes any value, one free draw per
byte; without a pending command nothing changes (70_reset_and_hazards.md R402). -/
def abortCommand (p : Params) (s : State) : State :=
  match s.pending with
  | none => s
  | some w =>
    let r := scramble s.ram s.draws (destInRam p s w).1 (destInRam p s w).2
    { s with ram := r.1, draws := r.2, pending := none }

/-- The soft reset (70_reset_and_hazards.md R402). It releases every sample-RAM access that was holding: BUSY is then 0, so they
all act before anything else happens (`released` in Machine/Bus.lean). -/
def softReset (p : Params) (s : State) : State := resetRegisters (abortCommand p s)

/-- `rst_n` goes low (70_reset_and_hazards.md R400): the block resets asynchronously. -/
def assertReset (p : Params) (s : State) : State := { softReset p s with rstN := false }

/-- `rst_n` returns high and the block leaves reset (70_reset_and_hazards.md R400). -/
def releaseReset (s : State) : State := { s with rstN := true }

/-- Power removal loses everything, the sample RAM included (60_exceptions.md R316), and power returns with `rst_n` low
(assumption log 15). -/
def powerCycle (s : State) : State := { resetRegisters s with ram := [], rstN := false }

end Sys2Proof.Machine
end

