-- ==== Sys2Proof/Machine/Registers.lean ====
section
/-! DEFINITION. The register window (10_state.md R31): the named registers, their offsets, what each reads as, and what a write to
each does while the block is idle (40_control.md R132) or busy (R133). -/

namespace Sys2Proof.Machine

/-- The registers of the map of 10_state.md R31. -/
inductive Reg where
  /-- ID (R32). -/
  | id
  /-- VERSION (R33). -/
  | version
  /-- CTRL (R34). -/
  | ctrl
  /-- STATUS (R35). -/
  | status
  /-- CMD (R36). -/
  | cmd
  /-- NCO_AMP_LO (R37). -/
  | ncoAmpLo
  /-- NCO_AMP_HI (R37). -/
  | ncoAmpHi
  /-- NCO_FREQ_LO (R38). -/
  | ncoFreqLo
  /-- NCO_FREQ_HI (R38). -/
  | ncoFreqHi
  /-- NCO_RATE_LO (R39). -/
  | ncoRateLo
  /-- NCO_RATE_HI (R39). -/
  | ncoRateHi
  /-- NCO_CHUNK (R40). -/
  | ncoChunk
  /-- NCO_DST (R41). -/
  | ncoDst
  /-- NCO_LAMP_LO (R42). -/
  | ncoLampLo
  /-- NCO_LAMP_HI (R42). -/
  | ncoLampHi
  /-- NCO_INC_LO (R43). -/
  | ncoIncLo
  /-- NCO_INC_HI (R43). -/
  | ncoIncHi
  /-- NCO_PHASE_LO (R44). -/
  | ncoPhaseLo
  /-- NCO_PHASE_HI (R44). -/
  | ncoPhaseHi
  /-- NCO_LCHUNK (R45). -/
  | ncoLchunk
  /-- NCO_COUNT (R46). -/
  | ncoCount
  /-- RSSI_SRC (R47). -/
  | rssiSrc
  /-- RSSI_LEN (R48). -/
  | rssiLen
  /-- RSSI_DST (R49). -/
  | rssiDst
  /-- RSSI_DECIM (R50). -/
  | rssiDecim
  /-- RSSI_GAIN_LO (R51). -/
  | rssiGainLo
  /-- RSSI_GAIN_HI (R51). -/
  | rssiGainHi
  /-- RSSI_MERR_LO (R52). -/
  | rssiMerrLo
  /-- RSSI_MERR_HI (R52). -/
  | rssiMerrHi
  /-- RSSI_OUTLEN (R53). -/
  | rssiOutlen
  /-- NOISE_SRC (R54). -/
  | noiseSrc
  /-- NOISE_LEN (R55). -/
  | noiseLen
  /-- NOISE_DST (R56). -/
  | noiseDst
  /-- NOISE_SNR_LO (R57). -/
  | noiseSnrLo
  /-- NOISE_SNR_HI (R57). -/
  | noiseSnrHi
  /-- NOISE_RATE_LO (R58). -/
  | noiseRateLo
  /-- NOISE_RATE_HI (R58). -/
  | noiseRateHi
  /-- NOISE_SEED_LO (R59). -/
  | noiseSeedLo
  /-- NOISE_SEED_HI (R59). -/
  | noiseSeedHi
  /-- NOISE_STATE_LO (R61). -/
  | noiseStateLo
  /-- NOISE_STATE_HI (R61). -/
  | noiseStateHi
  /-- NOISE_VAR_LO (R62). -/
  | noiseVarLo
  /-- NOISE_VAR_HI (R62). -/
  | noiseVarHi
deriving DecidableEq, Repr

/-- The map of 10_state.md R31: offset and register. Every other offset of the window is reserved. -/
def regMap : List (Nat × Reg) :=
  [(0x000, .id),
   (0x004, .version),
   (0x008, .ctrl),
   (0x00C, .status),
   (0x010, .cmd),
   (0x020, .ncoAmpLo),
   (0x024, .ncoAmpHi),
   (0x028, .ncoFreqLo),
   (0x02C, .ncoFreqHi),
   (0x030, .ncoRateLo),
   (0x034, .ncoRateHi),
   (0x038, .ncoChunk),
   (0x03C, .ncoDst),
   (0x040, .ncoLampLo),
   (0x044, .ncoLampHi),
   (0x048, .ncoIncLo),
   (0x04C, .ncoIncHi),
   (0x050, .ncoPhaseLo),
   (0x054, .ncoPhaseHi),
   (0x058, .ncoLchunk),
   (0x05C, .ncoCount),
   (0x080, .rssiSrc),
   (0x084, .rssiLen),
   (0x088, .rssiDst),
   (0x08C, .rssiDecim),
   (0x090, .rssiGainLo),
   (0x094, .rssiGainHi),
   (0x098, .rssiMerrLo),
   (0x09C, .rssiMerrHi),
   (0x0A0, .rssiOutlen),
   (0x0C0, .noiseSrc),
   (0x0C4, .noiseLen),
   (0x0C8, .noiseDst),
   (0x0D0, .noiseSnrLo),
   (0x0D4, .noiseSnrHi),
   (0x0D8, .noiseRateLo),
   (0x0DC, .noiseRateHi),
   (0x0E0, .noiseSeedLo),
   (0x0E4, .noiseSeedHi),
   (0x0E8, .noiseStateLo),
   (0x0EC, .noiseStateHi),
   (0x0F0, .noiseVarLo),
   (0x0F4, .noiseVarHi)]

/-- The register at a window offset; none at a reserved one (10_state.md R31). -/
def regAt (off : Nat) : Option Reg := regMap.lookup off

/-- What a register reads as (10_state.md R32 to R62). While a command is pending this is its value before the command
(20_memory.md R88), since a command changes nothing until it completes. -/
def readReg (s : State) : Reg → Word
  | .id => 0x4E434F31#32
  | .version => 0x00010000#32
  | .ctrl => ctrlWord s
  | .status => statusWord s
  | .cmd => s.cmd
  | .ncoAmpLo => loHalf s.ncoAmp
  | .ncoAmpHi => hiHalf s.ncoAmp
  | .ncoFreqLo => loHalf s.ncoFreq
  | .ncoFreqHi => hiHalf s.ncoFreq
  | .ncoRateLo => loHalf s.ncoRate
  | .ncoRateHi => hiHalf s.ncoRate
  | .ncoChunk => s.ncoChunk
  | .ncoDst => s.ncoDst
  | .ncoLampLo => loHalf s.nco.amp
  | .ncoLampHi => hiHalf s.nco.amp
  | .ncoIncLo => loHalf s.nco.inc
  | .ncoIncHi => hiHalf s.nco.inc
  | .ncoPhaseLo => loHalf s.nco.phase
  | .ncoPhaseHi => hiHalf s.nco.phase
  | .ncoLchunk => s.nco.chunk
  | .ncoCount => s.nco.count
  | .rssiSrc => s.rssiSrc
  | .rssiLen => s.rssiLen
  | .rssiDst => s.rssiDst
  | .rssiDecim => s.rssiDecim
  | .rssiGainLo => loHalf s.rssiGain
  | .rssiGainHi => hiHalf s.rssiGain
  | .rssiMerrLo => loHalf s.rssiMerr
  | .rssiMerrHi => hiHalf s.rssiMerr
  | .rssiOutlen => s.rssiOutlen
  | .noiseSrc => s.noiseSrc
  | .noiseLen => s.noiseLen
  | .noiseDst => s.noiseDst
  | .noiseSnrLo => loHalf s.noiseSnr
  | .noiseSnrHi => hiHalf s.noiseSnr
  | .noiseRateLo => loHalf s.noiseRate
  | .noiseRateHi => hiHalf s.noiseRate
  | .noiseSeedLo => loHalf s.noiseSeed
  | .noiseSeedHi => hiHalf s.noiseSeed
  | .noiseStateLo => loHalf s.prng
  | .noiseStateHi => hiHalf s.prng
  | .noiseVarLo => loHalf s.noiseVar
  | .noiseVarHi => hiHalf s.noiseVar

/-- A CTRL write: bit 1 performs the soft reset, otherwise bit 0 goes to IRQ_EN (10_state.md R34). -/
def writeCtrl (p : Params) (s : State) (v : Word) : State :=
  if v.getLsbD 1 then softReset p s else { s with irqEn := v.getLsbD 0 }

/-- A register write that is not dropped (40_control.md R131, R132): CMD accepts a command, a read-only register does not change. -/
def writeReg (p : Params) (s : State) (r : Reg) (v : Word) : State :=
  match r with
  | .id => s
  | .version => s
  | .ctrl => writeCtrl p s v
  | .status => writeStatus s v
  | .cmd => accept s v
  | .ncoAmpLo => { s with ncoAmp := setLo s.ncoAmp v }
  | .ncoAmpHi => { s with ncoAmp := setHi s.ncoAmp v }
  | .ncoFreqLo => { s with ncoFreq := setLo s.ncoFreq v }
  | .ncoFreqHi => { s with ncoFreq := setHi s.ncoFreq v }
  | .ncoRateLo => { s with ncoRate := setLo s.ncoRate v }
  | .ncoRateHi => { s with ncoRate := setHi s.ncoRate v }
  | .ncoChunk => { s with ncoChunk := v }
  | .ncoDst => { s with ncoDst := v }
  | .ncoLampLo => s
  | .ncoLampHi => s
  | .ncoIncLo => s
  | .ncoIncHi => s
  | .ncoPhaseLo => s
  | .ncoPhaseHi => s
  | .ncoLchunk => s
  | .ncoCount => s
  | .rssiSrc => { s with rssiSrc := v }
  | .rssiLen => { s with rssiLen := v }
  | .rssiDst => { s with rssiDst := v }
  | .rssiDecim => { s with rssiDecim := v }
  | .rssiGainLo => { s with rssiGain := setLo s.rssiGain v }
  | .rssiGainHi => { s with rssiGain := setHi s.rssiGain v }
  | .rssiMerrLo => { s with rssiMerr := setLo s.rssiMerr v }
  | .rssiMerrHi => { s with rssiMerr := setHi s.rssiMerr v }
  | .rssiOutlen => s
  | .noiseSrc => { s with noiseSrc := v }
  | .noiseLen => { s with noiseLen := v }
  | .noiseDst => { s with noiseDst := v }
  | .noiseSnrLo => { s with noiseSnr := setLo s.noiseSnr v }
  | .noiseSnrHi => { s with noiseSnr := setHi s.noiseSnr v }
  | .noiseRateLo => { s with noiseRate := setLo s.noiseRate v }
  | .noiseRateHi => { s with noiseRate := setHi s.noiseRate v }
  | .noiseSeedLo => { s with noiseSeed := setLo s.noiseSeed v }
  | .noiseSeedHi => { s with noiseSeed := setHi s.noiseSeed v }
  | .noiseStateLo => s
  | .noiseStateHi => s
  | .noiseVarLo => s
  | .noiseVarHi => s

/-- CTRL and STATUS writes are never dropped (40_control.md R133). -/
def neverDropped : Reg → Bool
  | .ctrl => true
  | .status => true
  | _ => false

/-- A 32-bit write at an aligned offset of the register window: dropped while busy, with BUSY_VIOL set, unless it is to CTRL or
STATUS (40_control.md R133); without effect at a reserved offset while idle (10_state.md R31). -/
def writeWindow (p : Params) (s : State) (off : Nat) (v : Word) : State :=
  match regAt off with
  | some r => if busy s && !neverDropped r then { s with busyViol := true } else writeReg p s r v
  | none => if busy s then { s with busyViol := true } else s

/-- A 32-bit read at an aligned offset of the register window; a reserved offset reads 0 (10_state.md R31). -/
def readWindow (s : State) (off : Nat) : Word :=
  match regAt off with
  | some r => readReg s r
  | none => 0#32

end Sys2Proof.Machine
end

