-- ==== Sys2Proof/Machine/Bus.lean ====
section
/-! DEFINITION. The bus slave (20_memory.md R80 to R89; 60_exceptions.md R303): where an offset leads, the two transactions, the
hold of a sample-RAM access while a command runs, and its release. -/

namespace Sys2Proof.Machine

/-- Where an access leads. -/
inductive Target where
  /-- The register window, at this offset. -/
  | window (off : Nat)
  /-- The sample RAM, at this RAM byte offset. -/
  | ram (a : Nat)
  /-- Nowhere: the access answers `error`. -/
  | nowhere
deriving DecidableEq, Repr

/-- The offset in the block's window of a system address; none outside the window (20_memory.md R80). The block decodes only
the offset. -/
def offsetOf (p : Params) (addr : Nat) : Option Nat :=
  if p.blockBase ≤ addr ∧ addr < p.blockBase + (0x10000 + p.sramBytes) then some (addr - p.blockBase) else none

/-- The window of 20_memory.md R80 and the access rule of R83: 32 bits at a multiple of 4, in the register window or the RAM. -/
def locate (p : Params) (width off : Nat) : Target :=
  if width ≠ 32 ∨ off % 4 ≠ 0 then .nowhere
  else if off < 0x1000 then .window off
  else if 0x10000 ≤ off ∧ off < 0x10000 + p.sramBytes then .ram (off - 0x10000)
  else .nowhere

/-- Where a transaction leads. -/
def Txn.target (p : Params) : Txn → Target
  | .read width off => locate p width off
  | .write width off _ => locate p width off

/-- The transaction reaches the sample RAM. -/
def reachesRam (p : Params) (t : Txn) : Bool :=
  match t.target p with
  | .ram _ => true
  | _ => false

/-- A sample-RAM access holds while a command is pending (20_memory.md R87); a register access never does (R88). -/
def mustHold (p : Params) (s : State) (t : Txn) : Bool := busy s && reachesRam p t

/-- The bus answers a transaction. -/
def answer (s : State) (i : Issued) (a : Answer) : State :=
  { s with replies := { host := i.host, txn := i.txn, answer := a } :: s.replies }

/-- A Read32 that is served now (20_memory.md R82, R83, R88, R89, R90). -/
def performRead (p : Params) (s : State) (width off : Nat) : State × Answer :=
  match locate p width off with
  | .window o => (s, .okData (readWindow s o))
  | .ram a =>
    let r := drawWord s.ram s.draws a
    ({ s with draws := r.2 }, .okData r.1)
  | .nowhere => (s, .error)

/-- A Write32 that is served now (20_memory.md R82, R83; 40_control.md R131 to R133). -/
def performWrite (p : Params) (s : State) (width off : Nat) (v : Word) : State × Answer :=
  match locate p width off with
  | .window o => (writeWindow p s o v, .ok)
  | .ram a => ({ s with ram := Ram.writeWord s.ram a v }, .ok)
  | .nowhere => (s, .error)

/-- One host transaction, wholly (20_memory.md R92). -/
def perform (p : Params) (s : State) (i : Issued) : State :=
  match i.txn with
  | .read width off => answer (performRead p s width off).1 i (performRead p s width off).2
  | .write width off v => answer (performWrite p s width off v).1 i (performWrite p s width off v).2

/-! ### Holding and its release -/

/-- The host has a transaction that holds or waits, so its next one waits behind it (20_memory.md R82; 40_control.md R138: issue
order). -/
def hostStalled (s : State) (host : Nat) : Bool := (s.held ++ s.queued).any fun i => i.host == host

/-- A transaction reaches the block: it is performed, or it holds (20_memory.md R87). -/
def receive (p : Params) (s : State) (i : Issued) : State :=
  if mustHold p s i.txn then { s with held := s.held ++ [i] } else perform p s i

/-- A host issues a transaction: it reaches the block, or it waits behind an earlier one of the same host. A hold stalls only its
own host (20_memory.md R82). -/
def issue (p : Params) (s : State) (i : Issued) : State :=
  if hostStalled s i.host then { s with queued := s.queued ++ [i] } else receive p s i

/-- None of the accesses that hold is of the same host. -/
def unblocked (held : List Issued) (i : Issued) : Bool := !(held.any fun j => j.host == i.host)

/-- The oldest access that holds, once BUSY is 0, and the state without it (20_memory.md R87; 70_reset_and_hazards.md R402). -/
def takeHeld (s : State) : Option (Issued × State) :=
  match s.held with
  | [] => none
  | i :: rest => if busy s then none else some (i, { s with held := rest })

/-- The oldest waiting transaction that no hold stalls any more, and the state without it. -/
def takeQueued (s : State) : Option (Issued × State) :=
  match s.queued.find? (unblocked s.held) with
  | none => none
  | some i => some (i, { s with queued := s.queued.eraseP (unblocked s.held) })

/-- The transaction that goes before any outside event, and the state without it: every access that holds acts first once BUSY is 0
(20_memory.md R87; 70_reset_and_hazards.md R402), and only then a transaction that waited behind one, whatever it starts. None
goes while `rst_n` is low (70_reset_and_hazards.md R400; assumption log 3, 4). -/
def released (s : State) : Option (Issued × State) :=
  if s.rstN then
    match takeHeld s with
    | some r => some r
    | none => takeQueued s
  else none

end Sys2Proof.Machine
end

