-- ==== Sys2Proof/Machine/Control.lean ====
section
/-! DEFINITION. NOP (40_control.md R140). -/

namespace Sys2Proof.Machine

/-- NOP: `complete(OK)`, nothing else (40_control.md R140). -/
def execNop (s : State) : Host.Outcome State Fault Refusal := conclude s (.commit s)

end Sys2Proof.Machine
end

