-- ==== Sys2Proof/Machine/Rssi.lean ====
section
/-! DEFINITION. RSSI_RUN (42_rssi.md R180 to R191). -/

namespace Sys2Proof.Machine

/-! ### The value of one sample -/

/-- |sample|² in binary64 (42_rssi.md R182); also the term of 43_noise.md R222. -/
def samplePower (x : F32 × F32) : F64 :=
  F64.add (F64.mul (F32.widen x.1) (F32.widen x.1)) (F64.mul (F32.widen x.2) (F32.widen x.2))

/-- A zero power becomes RSSI_P_FLOOR; any other is unchanged (42_rssi.md R182). -/
def floorPower (p : Params) (x : F64) : F64 := if F64.isZero x then p.rssiPFloor else x

/-- 10·log10(x / 50) + 30, in that order (42_rssi.md R183). -/
def powerToDbm (num : Numerics) (x : F64) : F64 :=
  F64.add (F64.mul Config.dbFactor (num.log10_64 (F64.div x Config.refImpedance))) Config.dbmOffset

/-- (x - g) + e (42_rssi.md R184). -/
def calibrate (g e x : F64) : F64 := F64.add (F64.sub x g) e

/-- x_i: the calibrated dBm value of one sample (42_rssi.md R182 to R184). -/
def sampleDbm (p : Params) (g e : F64) (x : F32 × F32) : F64 :=
  calibrate g e (powerToDbm p.num (floorPower p (samplePower x)))

/-! ### Decimation -/

/-- The accumulation of 42_rssi.md R187 over the taps that are left: the tap at place t (j = t - K) meets the input
mM + j where that lies inside 0 .. L-1, and is skipped elsewhere. -/
def firAccumulate (xs : List F64) (centre half : Nat) : List F64 → Nat → F64 → F64
  | [], _, acc => acc
  | h :: hs, t, acc =>
    let acc' :=
      if centre + t < half then acc
      else
        match xs[centre + t - half]? with
        | some x => F64.add acc (F64.mul h x)
        | none => acc
    firAccumulate xs centre half hs (t + 1) acc'

/-- FIR_M(x, m): the filter centred on input mM, taps in ascending j (42_rssi.md R187). -/
def firAt (taps : List F64) (m : Nat) (xs : List F64) (i : Nat) : F64 :=
  firAccumulate xs (i * m) (10 * m) taps 0 F64.posZero

/-- The output sequence: the input itself for M = 1 (42_rssi.md R185), else the filter at every M-th input (R187, R188). -/
def decimate (p : Params) (m : Nat) (xs : List F64) : List F64 :=
  if m = 1 then xs else (List.range (ceilDiv xs.length m)).map (firAt (p.rssiCoef m) m xs)

/-- The output words of RSSI_RUN (42_rssi.md R180, R189). -/
def rssiWords (p : Params) (m : Nat) (g e : F64) (samples : List (F32 × F32)) : List Word :=
  (decimate p m (samples.map (sampleDbm p g e))).map F64.toF32

/-! ### The command -/

/-- The checks of 42_rssi.md R181 in their order: the first failing one's code. -/
def rssiChecks (p : Params) (s : State) : Option ErrCode :=
  let n := ceilDiv s.rssiLen.toNat s.rssiDecim.toNat
  if s.rssiLen.toNat < 1 then some .badParam
  else if s.rssiDecim.toNat < 1 || decide (p.rssiMaxDecim < s.rssiDecim.toNat) then some .badParam
  else if !F64.isFinite s.rssiGain then some .badParam
  else if !F64.isFinite s.rssiMerr then some .badParam
  else if !bufferOk p 8 s.rssiSrc.toNat (8 * s.rssiLen.toNat) then some .badRange
  else if !bufferOk p 4 s.rssiDst.toNat (4 * n) then some .badRange
  else if !disjoint s.rssiSrc.toNat (8 * s.rssiLen.toNat) s.rssiDst.toNat (4 * n) then some .overlap
  else none

/-- RSSI_RUN on the parameters p (42_rssi.md R180). -/
def rssiRun (p : Params) (s : State) : Attempt :=
  match rssiChecks p s with
  | some code => .raise code s.draws
  | none =>
    match loadSamples p s s.rssiSrc.toNat s.rssiLen.toNat with
    | .error f => .broken f
    | .ok r =>
      match storeWords p s.ram s.rssiDst.toNat
          (rssiWords p s.rssiDecim.toNat s.rssiGain s.rssiMerr r.1) with
      | .error f => .broken f
      | .ok m =>
        .commit { s with
          ram := m
          rssiOutlen := BitVec.ofNat 32 (ceilDiv s.rssiLen.toNat s.rssiDecim.toNat)
          draws := r.2 }

/-- RSSI_RUN (42_rssi.md R180). -/
def execRssiRun (s : State) : Host.Outcome State Fault Refusal := conclude s (rssiRun Config.params s)

end Sys2Proof.Machine
end

