-- ==== Sys2Proof/Machine/Noise.lean ====
section
/-! DEFINITION. The noise generator (43_noise.md): the random source (R210, R211), NOISE_SEED (R212), NOISE_APPLY (R220 to R226) and
the SNR that its output measures (R227). -/

namespace Sys2Proof.Machine

/-! ### The random source -/

/-- The state after one draw (43_noise.md R210). -/
def prngNext (z : U64) : U64 := z + 0x9E3779B97F4A7C15#64

/-- The value drawn when the state has become z (43_noise.md R210). -/
def prngMix (z : U64) : U64 :=
  let z1 := (z ^^^ (z >>> 30)) * 0xBF58476D1CE4E5B9#64
  let z2 := (z1 ^^^ (z1 >>> 27)) * 0x94D049BB133111EB#64
  z2 ^^^ (z2 >>> 31)

/-- The state after n draws. -/
def prngAdvance : Nat → U64 → U64
  | 0, z => z
  | n + 1, z => prngNext (prngAdvance n z)

/-- 2^-53. -/
def twoToMinus53 : F64 := 0x3CA0000000000000#64

/-- -2.0. -/
def minusTwo : F64 := 0xC000000000000000#64

/-- (z >> 11) * 2^-53, a uniform value in [0, 1) (43_noise.md R211). -/
def uniform (z : U64) : F64 := F64.mul (F64.ofNat (z >>> 11).toNat) twoToMinus53

/-- The Box–Muller transform of two draws (43_noise.md R211). -/
def boxMuller (num : Numerics) (z1 z2 : U64) : F64 × F64 :=
  let u1 := F64.sub F64.one (uniform z1)
  let u2 := uniform z2
  let r := F64.sqrt (F64.mul minusTwo (num.ln64 u1))
  let theta := F64.mul F64.twoPi u2
  (F64.mul r (num.cos64 theta), F64.mul r (num.sin64 theta))

/-- gauss_pair() from the state z: two draws in order (43_noise.md R211). -/
def gaussPair (num : Numerics) (z : U64) : F64 × F64 :=
  boxMuller num (prngMix (prngNext z)) (prngMix (prngNext (prngNext z)))

/-! ### NOISE_SEED -/

/-- NOISE_SEED: the seed registers become the PRNG state (43_noise.md R212). -/
def execNoiseSeed (s : State) : Host.Outcome State Fault Refusal := conclude s (.commit { s with prng := s.noiseSeed })

/-! ### NOISE_APPLY -/

/-- E: the powers summed in sequence order, over L (43_noise.md R222). -/
def averageEnergy (samples : List (F32 × F32)) : F64 :=
  F64.div (samples.foldl (fun acc x => F64.add acc (samplePower x)) F64.posZero) (F64.ofNat samples.length)

/-- lin = exp10_64(snr_dB / 10) (43_noise.md R223). -/
def linearSnr (num : Numerics) (snr : F64) : F64 := num.exp10_64 (F64.div snr Config.dbFactor)

/-- var = E / ((2 · R) · lin) (43_noise.md R224). -/
def noiseVariance (num : Numerics) (snr rate : F64) (samples : List (F32 × F32)) : F64 :=
  F64.div (averageEnergy samples) (F64.mul (F64.mul Config.varianceFactor rate) (linearSnr num snr))

/-- x + σ·g, rounded to binary64 at each step and then to binary32 (43_noise.md R225). -/
def noisyPart (sigma g : F64) (x : F32) : F32 := F64.toF32 (F64.add (F32.widen x) (F64.mul sigma g))

/-- The draws (g1_i, g2_i) for n samples in order, from the PRNG state z on (43_noise.md R225). -/
def gaussPairs (num : Numerics) : U64 → Nat → List (F64 × F64)
  | _, 0 => []
  | z, n + 1 => gaussPair num z :: gaussPairs num (prngNext (prngNext z)) n

/-- Each draw scaled by σ and added to its sample, in sequence order (43_noise.md R225). -/
def addNoise (sigma : F64) (xs : List (F32 × F32)) (gs : List (F64 × F64)) : List (F32 × F32) :=
  List.zipWith (fun x g => (noisyPart sigma g.1 x.1, noisyPart sigma g.2 x.2)) xs gs

/-- The output samples in sequence order, from the PRNG state z on, two draws a sample (43_noise.md R220, R225). -/
def noisySamples (num : Numerics) (sigma : F64) (z : U64) (xs : List (F32 × F32)) : List (F32 × F32) :=
  addNoise sigma xs (gaussPairs num z xs.length)

/-! ### The noise that was added (43_noise.md R227)

With σ² = var = E / (2·R·lin) and draws of unit variance, `noisePower` is 2·var = E / (R·lin) in the mean, so `measuredSnr` is R·lin. -/

/-- Σ |x|² over the samples, exactly. -/
def totalPower (xs : List (F32 × F32)) : ℚ := (xs.map fun x => F32.value x.1 ^ 2 + F32.value x.2 ^ 2).sum

/-- The mean of |output_i - input_i|², exactly. -/
def noisePower (ins outs : List (F32 × F32)) : ℚ :=
  (List.zipWith (fun x y => (F32.value y.1 - F32.value x.1) ^ 2 + (F32.value y.2 - F32.value x.2) ^ 2) ins outs).sum /
    ins.length

/-- The measured SNR as a ratio: E of R222 over the mean of |output_i - input_i|². -/
def measuredSnr (ins outs : List (F32 × F32)) : ℚ := F64.value (averageEnergy ins) / noisePower ins outs

/-! ### The command -/

/-- Checks 1 to 6 of 43_noise.md R221 in their order: the first failing one's code. -/
def noiseChecks (p : Params) (s : State) : Option ErrCode :=
  let len := 8 * s.noiseLen.toNat
  if s.noiseLen.toNat < 1 then some .badParam
  else if !F64.isFinite s.noiseSnr then some .badParam
  else if !inHalfOpenUnit s.noiseRate then some .badParam
  else if !bufferOk p 8 s.noiseSrc.toNat len then some .badRange
  else if !bufferOk p 8 s.noiseDst.toNat len then some .badRange
  else if !(decide (s.noiseDst = s.noiseSrc) || disjoint s.noiseSrc.toNat len s.noiseDst.toNat len) then some .overlap
  else none

/-- NOISE_APPLY on the parameters p (43_noise.md R220); check 7 of R221 is on the variance, before any effect. -/
def noiseApply (p : Params) (s : State) : Attempt :=
  match noiseChecks p s with
  | some code => .raise code s.draws
  | none =>
    match loadSamples p s s.noiseSrc.toNat s.noiseLen.toNat with
    | .error f => .broken f
    | .ok r =>
      let var := noiseVariance p.num s.noiseSnr s.noiseRate r.1
      if !F64.isFinite var then .raise .badParam r.2
      else
        match storeWords p s.ram s.noiseDst.toNat (sampleWords (noisySamples p.num (F64.sqrt var) s.prng r.1)) with
        | .error f => .broken f
        | .ok m =>
          .commit { s with
            ram := m
            prng := prngAdvance (2 * s.noiseLen.toNat) s.prng
            noiseVar := var
            draws := r.2 }

/-- NOISE_APPLY (43_noise.md R220). -/
def execNoiseApply (s : State) : Host.Outcome State Fault Refusal := conclude s (noiseApply Config.params s)

end Sys2Proof.Machine
end

