-- ==== Sys2Proof/Machine/Oscillator.lean ====
section
/-! DEFINITION. The NCO commands (41_nco.md): NCO_BUILD (R150 to R154), NCO_PRODUCE (R160 to R165), NCO_RELEASE (R170). -/

namespace Sys2Proof.Machine

/-! ### NCO_BUILD -/

/-- inc = RNE64(RNE64(TWO_PI × f) / fs) (41_nco.md R152). -/
def phaseIncrement (f fs : F64) : F64 := F64.div (F64.mul F64.twoPi f) fs

/-- The checks of 41_nco.md R151 in their order; every failure is BAD_PARAM, so their order does not show. -/
def buildChecks (p : Params) (s : State) : Bool :=
  F64.isFinite s.ncoAmp && F64.isFinite s.ncoFreq && positiveFinite s.ncoRate &&
    (decide (1 ≤ s.ncoChunk.toNat) && decide (s.ncoChunk.toNat ≤ p.sramBytes / 8)) &&
    F64.isFinite (phaseIncrement s.ncoFreq s.ncoRate)

/-- The oscillator that the staged registers describe, at phase +0.0 and count 0 (41_nco.md R150, R153). -/
def stagedOscillator (s : State) : Nco :=
  { valid := true, amp := s.ncoAmp, inc := phaseIncrement s.ncoFreq s.ncoRate, phase := F64.posZero,
    chunk := s.ncoChunk, count := 0#32 }

/-- NCO_BUILD on the parameters p (41_nco.md R150, R154). -/
def ncoBuild (p : Params) (s : State) : Attempt :=
  if buildChecks p s then .commit { s with nco := stagedOscillator s } else .raise .badParam s.draws

/-- NCO_BUILD (41_nco.md R150). -/
def execNcoBuild (s : State) : Host.Outcome State Fault Refusal := conclude s (ncoBuild Config.params s)

/-! ### NCO_PRODUCE -/

/-- φ + (k * Δ), k converted exactly: the phase p_k of sample k (41_nco.md R161), and for k = N the unwrapped end phase u
(R163). -/
def phaseAt (o : Nco) (k : Nat) : F64 := F64.add o.phase (F64.mul (F64.ofNat k) o.inc)

/-- The complex exponential at phase x scaled by the amplitude, each part rounded to binary64 and then to binary32
(41_nco.md R162). -/
def toneSample (num : Numerics) (amp x : F64) : F32 × F32 :=
  (F64.toF32 (F64.mul amp (num.cos64 x)), F64.toF32 (F64.mul amp (num.sin64 x)))

/-- The samples k = 0 .. N-1 of the next chunk (41_nco.md R160 to R162). -/
def chunkSamples (num : Numerics) (o : Nco) : List (F32 × F32) :=
  (List.range o.chunk.toNat).map fun k => toneSample num o.amp (phaseAt o k)

/-- u and every p_k are finite (41_nco.md R165). -/
def phasesFinite (o : Nco) : Bool :=
  (List.range (o.chunk.toNat + 1)).all fun k => F64.isFinite (phaseAt o k)

/-- The oscillator after a chunk: the reduced end phase and one more chunk counted (41_nco.md R163, R164; 10_state.md R46). -/
def advance (o : Nco) : Nco :=
  { o with phase := F64.mod2Pi (phaseAt o o.chunk.toNat), count := o.count + 1#32 }

/-- NCO_PRODUCE on the parameters p (41_nco.md R160). -/
def ncoProduce (p : Params) (s : State) : Attempt :=
  if !s.nco.valid then .raise .notBuilt s.draws
  else if !bufferOk p 8 s.ncoDst.toNat (8 * s.nco.chunk.toNat) then .raise .badRange s.draws
  else if !phasesFinite s.nco then .raise .badParam s.draws
  else
    match storeWords p s.ram s.ncoDst.toNat (sampleWords (chunkSamples p.num s.nco)) with
    | .error f => .broken f
    | .ok m => .commit { s with ram := m, nco := advance s.nco }

/-- NCO_PRODUCE (41_nco.md R160). -/
def execNcoProduce (s : State) : Host.Outcome State Fault Refusal := conclude s (ncoProduce Config.params s)

/-! ### NCO_RELEASE -/

/-- NCO_RELEASE: the live state becomes 0, with or without an oscillator (41_nco.md R170). -/
def execNcoRelease (s : State) : Host.Outcome State Fault Refusal := conclude s (.commit { s with nco := Nco.none })

end Sys2Proof.Machine
end

