-- ==== Sys2Proof/Machine/Dispatch.lean ====
section
/-! DEFINITION. The engine's dispatch (40_control.md R134): one direct call of a meaning for each command. -/

namespace Sys2Proof.Machine

def exec (i : Instr) (s : State) : Host.Outcome State Fault Refusal :=
  match i with
  | .nop => Sys2Proof.Machine.execNop s
  | .ncoBuild => Sys2Proof.Machine.execNcoBuild s
  | .ncoProduce => Sys2Proof.Machine.execNcoProduce s
  | .ncoRelease => Sys2Proof.Machine.execNcoRelease s
  | .rssiRun => Sys2Proof.Machine.execRssiRun s
  | .noiseSeed => Sys2Proof.Machine.execNoiseSeed s
  | .noiseApply => Sys2Proof.Machine.execNoiseApply s

end Sys2Proof.Machine
end

