-- ==== Sys2Proof/Machine/Engine.lean ====
section
/-! DEFINITION. The agents' moves (40_control.md R130, R134, R138): the command engine's step, and the effect of one outside
event. Machine/Step.lean only picks which comes next. -/

namespace Sys2Proof.Machine

/-- The command word the engine has to execute: the block's only fetch (20_memory.md R95). -/
def fetch (s : State) : Option Word := s.pending

/-- What a command does on the parameters p (00_scope.md R5); `exec` is this on the default parameters. -/
def execOn (p : Params) (i : Instr) (s : State) : Host.Outcome State Fault Refusal :=
  match i with
  | .nop => execNop s
  | .ncoBuild => conclude s (ncoBuild p s)
  | .ncoProduce => conclude s (ncoProduce p s)
  | .ncoRelease => execNcoRelease s
  | .rssiRun => conclude s (rssiRun p s)
  | .noiseSeed => execNoiseSeed s
  | .noiseApply => conclude s (noiseApply p s)

/-- How a block executes a decoded command: `exec`, or `execOn p`. -/
abbrev Executor := Instr → State → Host.Outcome State Fault Refusal

/-- The engine executes the command word w (40_control.md R134): its meaning, or ILLEGAL_CMD for a word outside the map
(30_encoding.md R113). -/
def execWordWith (run : Executor) (w : Word) (s : State) : Host.Outcome State Fault Refusal :=
  match decode w with
  | .ok i => run i s
  | .error _ => .next (complete s .illegalCmd)

/-- The engine's turn: it has a step exactly when a command is pending (40_control.md R130), and otherwise nothing happens
(assumption log 2). -/
def engineStepWith (run : Executor) (s : State) : Host.Outcome State Fault Refusal :=
  match fetch s with
  | some w => execWordWith run w s
  | none => .next s

/-- What an outside event does, on the state that is left when the event is taken off the schedule. -/
def runEventWith (p : Params) (run : Executor) (e : Event) (s : State) : Host.Outcome State Fault Refusal :=
  match e with
  | .engine => engineStepWith run s
  | .bus i => if s.rstN then .next (issue p s i) else .refused (.busWhileReset i.host)
  | .resetLow => .next (assertReset p s)
  | .resetHigh => .next (releaseReset s)
  | .powerCycle => .next (powerCycle s)

/-- One step: a transaction whose hold or wait is over goes first, then the next outside event, and when no outside event is left
the engine moves (40_control.md R138; 70_reset_and_hazards.md R411). -/
def stepWith (p : Params) (run : Executor) (s : State) : Host.Outcome State Fault Refusal :=
  match released s with
  | some r => .next (receive p r.2 r.1)
  | none =>
    match s.schedule with
    | [] => engineStepWith run s
    | e :: es => runEventWith p run e { s with schedule := es }

/-- One step of a block built with the parameters p (00_scope.md R5): bus, reset and commands all use them. -/
def stepOn (p : Params) (s : State) : Host.Outcome State Fault Refusal := stepWith p (execOn p) s

/-- The execution of a command word on the default parameters. -/
def execWord (w : Word) (s : State) : Host.Outcome State Fault Refusal := execWordWith exec w s

/-- The engine's turn on the default parameters. -/
def engineStep (s : State) : Host.Outcome State Fault Refusal := engineStepWith exec s

/-- s with the command word w accepted and the engine's turn next (40_control.md R131): no transaction waits that could go before
it, and one that holds goes on holding. -/
def placeCommand (s : State) (w : Word) : State :=
  { accept s w with rstN := true, queued := [], schedule := .engine :: s.schedule }

end Sys2Proof.Machine
end

