-- ==== Sys2Proof/Machine/Step.lean ====
section
/-! DEFINITION. The step function, and the placing of one instruction where the step takes its next one. Both only call
Machine/Engine.lean. -/

namespace Sys2Proof.Machine

/-- One atomic step of the block: one host transaction, one reset event, or one engine step (40_control.md R130). It is `stepOn`
on the default parameters of 00_scope.md R5 (Laws/Ops.lean, `step_eq_stepOn`). -/
def step (s : State) : Host.Outcome State Fault Refusal := stepWith Config.params exec s

/-- s with the command word whose low `nbits` bits are those of w accepted by the block, so that the very next step executes it.
It stands for the host's Write32 to CMD (40_control.md R131; assumption log 13). -/
def State.withFetchWord (s : State) (nbits w : Nat) : State :=
  placeCommand s (BitVec.ofNat 32 (w % 2 ^ nbits))

end Sys2Proof.Machine
end

