-- ==== Sys2Proof/Machine/HostScript.lean ====
section
/-! DEFINITION. The host-script notation (30_encoding.md R114, R115) as data, with the expansion of each statement into bus
transactions, and how a script stands in the order of events (40_control.md R138). -/

namespace Sys2Proof.Machine

/-- A statement's target (30_encoding.md R114). -/
inductive Place where
  /-- A register by name. -/
  | reg (r : Reg)
  /-- `RAM+<a>`, a RAM byte offset. -/
  | ram (a : Nat)
  /-- `@<offset>`, a raw window offset. -/
  | raw (off : Nat)
deriving DecidableEq, Repr

/-- The 64-bit register pairs (30_encoding.md R115). -/
inductive RegPair where
  | ncoAmp | ncoFreq | ncoRate | rssiGain | rssiMerr | noiseSnr | noiseRate | noiseSeed
deriving DecidableEq, Repr

/-- A statement of the host script (30_encoding.md R114, R115). How often WAIT reads STATUS is the run's: `polls` counts the reads
that still find BUSY = 1. -/
inductive Stmt where
  /-- `WR <target>, <value>`. -/
  | wr (t : Place) (v : Word)
  /-- `RD <target>`. -/
  | rd (t : Place)
  /-- `WRF <X>, ±num/den`. -/
  | wrf (x : RegPair) (neg : Bool) (num den : Nat)
  /-- `WR64 <X>, <u64>`. -/
  | wr64 (x : RegPair) (v : U64)
  /-- `WRS <a>, <re>, <im>`. -/
  | wrs (a : Nat) (re im : F64)
  /-- `CMD <mnemonic>`. -/
  | cmd (i : Instr)
  /-- `WAIT`. -/
  | wait (polls : Nat)
  /-- `RUN <mnemonic>`. -/
  | run (i : Instr) (polls : Nat)
deriving DecidableEq, Repr

/-- The offset of a named register (10_state.md R31). -/
def regOffset (r : Reg) : Nat :=
  match regMap.find? fun e => e.2 = r with
  | some e => e.1
  | none => 0

/-- The window offset a target names (30_encoding.md R114). -/
def Place.offset : Place → Nat
  | .reg r => regOffset r
  | .ram a => 0x10000 + a
  | .raw off => off

/-- X_LO and X_HI. -/
def RegPair.halves : RegPair → Reg × Reg
  | .ncoAmp => (.ncoAmpLo, .ncoAmpHi)
  | .ncoFreq => (.ncoFreqLo, .ncoFreqHi)
  | .ncoRate => (.ncoRateLo, .ncoRateHi)
  | .rssiGain => (.rssiGainLo, .rssiGainHi)
  | .rssiMerr => (.rssiMerrLo, .rssiMerrHi)
  | .noiseSnr => (.noiseSnrLo, .noiseSnrHi)
  | .noiseRate => (.noiseRateLo, .noiseRateHi)
  | .noiseSeed => (.noiseSeedLo, .noiseSeedHi)

/-- One `Write32`. -/
def writeTo (t : Place) (v : Word) : Txn := .write 32 t.offset v

/-- One `Read32`. -/
def readFrom (t : Place) : Txn := .read 32 t.offset

/-- The two writes of a 64-bit register, LO first (30_encoding.md R115). -/
def writePair (x : RegPair) (v : BitVec 64) : List Txn :=
  [writeTo (.reg x.halves.1) (loHalf v), writeTo (.reg x.halves.2) (hiHalf v)]

/-- The transactions of a statement (30_encoding.md R114, R115). -/
def Stmt.expand : Stmt → List Txn
  | .wr t v => [writeTo t v]
  | .rd t => [readFrom t]
  | .wrf x neg num den => writePair x (F64.ofRatio neg num den)
  | .wr64 x v => writePair x v
  | .wrs a re im => [writeTo (.ram a) (F64.toF32 re), writeTo (.ram (a + 4)) (F64.toF32 im)]
  | .cmd i => [writeTo (.reg .cmd) (encode i)]
  | .wait polls => List.replicate (polls + 1) (readFrom (.reg .status))
  | .run i polls => writeTo (.reg .cmd) (encode i) :: List.replicate (polls + 1) (readFrom (.reg .status))

/-- The words a WAIT reads: BUSY is 1 in all but the last, and 0 there (30_encoding.md R115). -/
def waitEnds : List Word → Bool
  | [] => false
  | [w] => !w.getLsbD 0
  | w :: ws => w.getLsbD 0 && waitEnds ws

/-- The transactions a host issues in an order of events. -/
def issuedBy (host : Nat) (es : List Event) : List Txn :=
  es.filterMap fun e =>
    match e with
    | .bus i => if i.host = host then some i.txn else none
    | _ => none

/-- An order of events runs a host's script: its transactions happen in its issue order, whatever happens between them
(40_control.md R138). -/
def runsScript (host : Nat) (script : List Stmt) (es : List Event) : Bool :=
  decide (issuedBy host es = script.flatMap Stmt.expand)

end Sys2Proof.Machine
end

