-- ==== Sys2Proof/Safety.lean ====
section
/-! DEFINITION. What claims about the block are made in terms of: the invariant of its state, the fairness of an endless order of
events (40_control.md R138), what a host can observe, rounding as 00_scope.md R11 and R13 ask for it, the real taps of
42_rssi.md R186, and free Gaussian draws (43_noise.md R227). -/

namespace Sys2Proof.Safety

open Sys2Proof.Machine

/-- The live oscillator is as 10_state.md R60 and 41_nco.md R151 leave it: everything 0 when none exists, and otherwise a finite
amplitude and increment and a chunk that fits the RAM; the phase is always in [+0.0, TWO_PI), so never -0.0 (R44, R164). -/
structure OscillatorOk (p : Params) (o : Nco) : Prop where
  absent : o.valid = false → o = Nco.none
  amp : F64.isFinite o.amp = true
  inc : F64.isFinite o.inc = true
  chunk_pos : o.valid = true → 1 ≤ o.chunk.toNat
  chunk_fits : 8 * o.chunk.toNat ≤ p.sramBytes
  phase : o.phase.toNat < F64.twoPi.toNat

/-- The invariant of the state of a block built with the parameters p: it holds at reset and every step keeps it. -/
structure BlockInvariant (p : Params) (s : State) : Prop where
  /-- The RAM is in its canonical form. -/
  ram_wf : Ram.wf s.ram = true
  /-- No byte outside 0 .. SRAM_BYTES-1 is held (20_memory.md R81). -/
  ram_below : Ram.below p.sramBytes s.ram = true
  /-- 10_state.md R60; 41_nco.md R151, R164. -/
  nco : OscillatorOk p s.nco
  /-- NOISE_VAR is the finite variance of a successful command (43_noise.md R221 check 7). -/
  var_finite : F64.isFinite s.noiseVar = true
  /-- The pending word is the last accepted one (10_state.md R36, R63). -/
  cmd_pending : ∀ w, s.pending = some w → s.cmd = w
  /-- BUSY and DONE are never 1 together (10_state.md R35; 40_control.md R131, R134). -/
  not_busy_done : s.pending.isSome = true → s.done = false
  /-- While `rst_n` is low the engine is idle and nothing is done (70_reset_and_hazards.md R400, R401). -/
  idle_in_reset : s.rstN = false → s.pending = none ∧ s.done = false ∧ s.irqEn = false
  /-- Only a sample-RAM access holds (20_memory.md R87, R88). -/
  held_ram : ∀ i ∈ s.held, reachesRam p i.txn = true
  /-- A host that holds issues nothing more until it is answered (20_memory.md R82). -/
  held_hosts : (s.held.map Issued.host).Nodup

/-! ### Endless orders of events -/

/-- A run in which outside events never end: `es` is their whole order, `ss n` the state after n steps, and `taken n` how many events
have been taken by then. An event is taken when nothing is released first. No step of the run stops. -/
structure OpenRun (p : Params) (es : Nat → Event) (ss : Nat → State) (taken : Nat → Nat) : Prop where
  step : ∀ n, ∃ t, stepOn p { ss n with schedule := [es (taken n)] } = .next t ∧ ss (n + 1) = { t with schedule := [] }
  taken_event : ∀ n, released (ss n) = none → taken (n + 1) = taken n + 1
  taken_wait : ∀ n, released (ss n) ≠ none → taken (n + 1) = taken n

/-- The fairness of 40_control.md R138 and 70_reset_and_hazards.md R411: the engine's turn comes again and again. -/
def Fair (es : Nat → Event) : Prop := ∀ n, ∃ m, n ≤ m ∧ es m = .engine

/-! ### What two states have in common -/

/-- The operand registers of every command (30_encoding.md R112) hold the same values. -/
structure SameOperands (s t : State) : Prop where
  ncoAmp : t.ncoAmp = s.ncoAmp
  ncoFreq : t.ncoFreq = s.ncoFreq
  ncoRate : t.ncoRate = s.ncoRate
  ncoChunk : t.ncoChunk = s.ncoChunk
  ncoDst : t.ncoDst = s.ncoDst
  rssiSrc : t.rssiSrc = s.rssiSrc
  rssiLen : t.rssiLen = s.rssiLen
  rssiDst : t.rssiDst = s.rssiDst
  rssiDecim : t.rssiDecim = s.rssiDecim
  rssiGain : t.rssiGain = s.rssiGain
  rssiMerr : t.rssiMerr = s.rssiMerr
  noiseSrc : t.noiseSrc = s.noiseSrc
  noiseLen : t.noiseLen = s.noiseLen
  noiseDst : t.noiseDst = s.noiseDst
  noiseSnr : t.noiseSnr = s.noiseSnr
  noiseRate : t.noiseRate = s.noiseRate
  noiseSeed : t.noiseSeed = s.noiseSeed

/-- Every register and state field is at its value of 70_reset_and_hazards.md R401. -/
def registersAtReset (t : State) : Prop := t = resetRegisters t

/-- The operands of NOISE_APPLY, the PRNG state included (30_encoding.md R112), hold the same values. -/
structure SameNoiseOperands (s t : State) : Prop where
  src : t.noiseSrc = s.noiseSrc
  len : t.noiseLen = s.noiseLen
  dst : t.noiseDst = s.noiseDst
  snr : t.noiseSnr = s.noiseSnr
  rate : t.noiseRate = s.noiseRate
  prng : t.prng = s.prng

/-- The state after every access that holds has acted, oldest first, on the RAM as it then stands (20_memory.md R87;
70_reset_and_hazards.md R402). -/
def heldServed (p : Params) (s : State) : State := s.held.foldl (perform p) { s with held := [] }

/-- s with the hosts' numbers taken out of the answers: what a block that cannot tell hosts apart knows (60_exceptions.md R311). -/
def withoutHosts (s : State) : State := { s with replies := s.replies.map fun r => { r with host := 0 } }

/-! ### Memory as a reader sees it -/

/-- The four bytes at offset a have been written and are the little-endian word w, whatever the free values are. -/
def holdsWord (m : Ram) (a : Nat) (w : Word) : Prop := ∀ d, drawWord m d a = (w, d)

/-- The offset x is one of the `region.2` bytes from `region.1` on. -/
def inRegion (region : Nat × Nat) (x : Nat) : Prop := region.1 ≤ x ∧ x < region.1 + region.2

/-- Every byte outside the region reads in m' as it does in m. -/
def sameOutside (region : Nat × Nat) (m m' : Ram) : Prop := ∀ x, ¬ inRegion region x → Ram.read m' x = Ram.read m x

/-! ### Rounding -/

/-- x is RNE64 of the real number r (00_scope.md R11); where the result is a zero its sign is not said. -/
structure IsRounded (r : ℝ) (x : F64) : Prop where
  overflow : 2 ^ 1024 - 2 ^ 970 ≤ |r| → x = if 0 < r then F64.posInf else F64.negInf
  finite : |r| < 2 ^ 1024 - 2 ^ 970 → F64.isFinite x = true
  nearest : |r| < 2 ^ 1024 - 2 ^ 970 → ∀ y, F64.isFinite y = true → |(F64.value x : ℝ) - r| ≤ |(F64.value y : ℝ) - r|
  tiesToEven : |r| < 2 ^ 1024 - 2 ^ 970 → ∀ y, F64.isFinite y = true → |(F64.value x : ℝ) - r| = |(F64.value y : ℝ) - r| →
    F64.value x ≠ F64.value y → F64.magBits x % 2 = 0

/-- NUM computes each function correctly rounded, as the reference hardware does (00_scope.md R13). -/
structure CorrectlyRounded (n : Numerics) : Prop where
  admissible : n.Admissible
  cos : ∀ x, F64.isFinite x = true → IsRounded (Real.cos (F64.value x)) (n.cos64 x)
  sin : ∀ x, F64.isFinite x = true → IsRounded (Real.sin (F64.value x)) (n.sin64 x)
  log10 : ∀ x, F64.isFinite x = true → 0 < F64.value x → IsRounded (Real.logb 10 (F64.value x)) (n.log10_64 x)
  ln : ∀ x, F64.isFinite x = true → 0 < F64.value x → IsRounded (Real.log (F64.value x)) (n.ln64 x)
  exp10 : ∀ x, F64.isFinite x = true → IsRounded ((10 : ℝ) ^ (F64.value x : ℝ)) (n.exp10_64 x)

/-! ### The default filter as real numbers -/

/-- The Bessel function, the Kaiser window and the windowed sinc of the default filter, K = 10M and β = 5 (42_rssi.md R186). -/
structure KaiserSinc (m : Nat) (I0 : ℝ → ℝ) (w c : Int → ℝ) : Prop where
  bessel : ∀ z, I0 z = ∑' k : Nat, ((z / 2) ^ k / (k.factorial : ℝ)) ^ 2
  window : ∀ j, w j = I0 (5 * √(1 - (j / (10 * m)) ^ 2)) / I0 5
  shape : ∀ j, c j = w j * if j = 0 then 1 else Real.sin (Real.pi * (j / m)) / (Real.pi * (j / m))

/-! ### Free draws in place of the generator -/

/-- Independent standard Gaussian draws: what a claim on the distribution alone takes in place of the generator's output
(43_noise.md R211, R227). -/
structure GaussianDraws {Ω : Type} [MeasurableSpace Ω] (μ : MeasureTheory.Measure Ω) (g : Nat → Ω → ℝ) : Prop where
  measurable : ∀ k, Measurable (g k)
  standard : ∀ k, μ.map (g k) = ProbabilityTheory.gaussianReal 0 1
  independent : ProbabilityTheory.iIndepFun g μ

end Sys2Proof.Safety
end

