-- ==== Sys2Proof/Certificates/Slice0/Obligations.lean ====
section
/-! DEFINITION. The statements about the block, for the provers. Each docstring names the rule of spec/ it formalises. A command
of exec runs with the parameters of 00_scope.md R5 at their defaults: SRAM_BYTES is 65536 and RSSI_MAX_DECIM is 16. A free
value (Config.freeByte) and NUM (Config.num) stand for every value they can have. -/

open Sys2Proof Sys2Proof.Machine Sys2Proof.Safety

/-! ### Encoding -/

/-- 30_encoding.md R111: the seven words of the map, and no word but these selects a command. -/
def Obligations.OpcodeMapIsExact : Prop :=
  (encode .nop = 0x00000000#32 ∧ encode .ncoBuild = 0x00000001#32 ∧ encode .ncoProduce = 0x00000002#32 ∧
      encode .ncoRelease = 0x00000003#32 ∧ encode .rssiRun = 0x00000010#32 ∧ encode .noiseSeed = 0x00000020#32 ∧
      encode .noiseApply = 0x00000021#32) ∧
    ∀ (w : Word) (i : Instr), decode w = .ok i ↔ w = encode i

/-- 30_encoding.md R110 and R111 on words written out bit by bit. -/
def Obligations.WrittenOutWordsDecode : Prop :=
  decode 0b00000000000000000000000000000000#32 = .ok .nop ∧
    decode 0b00000000000000000000000000000010#32 = .ok .ncoProduce ∧
    decode 0b00000000000000000000000000010000#32 = .ok .rssiRun ∧
    decode 0b00000000000000000000000000100001#32 = .ok .noiseApply ∧
    decode 0b00000000000000000000000100000001#32 = .error .reservedNonzero ∧
    decode 0b00000000000000000000000000000100#32 = .error (.unknownOpcode 0x04#8) ∧
    decodeTableWord 32 0x00000003 = some .ncoRelease

/-- 30_encoding.md R113: a word outside the map, which every word with a nonzero reserved field or an OPC outside the map is, is
accepted like any other, becomes the CMD value, does nothing and completes with ILLEGAL_CMD. -/
def Obligations.IllegalWordsOnlyReportIllegalCmd : Prop :=
  (∀ (w : Word) (i : Instr),
      w.extractLsb' 8 24 ≠ 0#24 ∨
          w.extractLsb' 0 8 ∉ [0x00#8, 0x01#8, 0x02#8, 0x03#8, 0x10#8, 0x20#8, 0x21#8] → w ≠ encode i) ∧
    ∀ (s : State) (host : Nat) (w : Word), s.pending = none → (∀ i, w ≠ encode i) →
      perform Config.params s ⟨host, .write 32 0x010 w⟩ =
          { s with
            cmd := w, pending := some w, done := false
            replies := ⟨host, .write 32 0x010 w, .ok⟩ :: s.replies } ∧
        ∀ t : State, execWord w t = .next { t with err := .illegalCmd, done := true, pending := none }

/-! ### Steps -/

/-- 40_control.md R130, R134: when no waiting transaction is released first and the engine's turn is next, a step is exec of the
decoded pending command, on the state whose schedule has moved on. The schedule, and the engine's turn on an empty one, are the
model's own (assumption log 1 and 2). -/
def Obligations.StepRunsTheDecodedCommand : Prop :=
  ∀ (s : State) (w : Word) (i : Instr), s.pending = some w → decode w = .ok i → released s = none →
    (s.schedule = [] → step s = exec i s) ∧
      ∀ es, s.schedule = .engine :: es → step s = exec i { s with schedule := es }

/-- 40_control.md R131, R134: a command word placed by withFetchWord is run by the very next step. -/
def Obligations.PlacedCommandRunsNext : Prop :=
  ∀ (s : State) (i : Instr),
    step (s.withFetchWord 32 (encode i).toNat) =
      exec i { s with cmd := encode i, pending := some (encode i), done := false, rstN := true, queued := [] }

/-- 20_memory.md R81, 70_reset_and_hazards.md R400, 00_scope.md R5: on every choice of the parameters no step faults (the engine
reaches no memory other than the RAM), and a step is refused exactly when the next event is a bus transaction while `rst_n` is low
(assumption log 14 and 16). `step` is `stepOn` on the default parameters. -/
def Obligations.StepsStopOnlyForBusUseInReset : Prop :=
  (∀ s : State, step s = stepOn Config.params s) ∧
    ∀ (p : Params) (s : State),
      (∀ f : Fault, stepOn p s ≠ .fault f) ∧
        ∀ r : Refusal,
          stepOn p s = .refused r ↔
            s.rstN = false ∧ ∃ i es, s.schedule = .bus i :: es ∧ r = .busWhileReset i.host

/-- 40_control.md R134: the engine step ends every pending command, whatever its word, in one step. -/
def Obligations.EveryCommandCompletes : Prop :=
  ∀ (s : State) (w : Word), ∃ t, execWord w s = .next t ∧ t.pending = none ∧ t.done = true ∧ t.cmd = s.cmd ∧
    t.irqEn = s.irqEn ∧ t.busyViol = s.busyViol ∧ SameOperands s t ∧ t.rstN = s.rstN ∧ t.held = s.held ∧
    t.queued = s.queued ∧ t.schedule = s.schedule ∧ t.replies = s.replies

/-- 70_reset_and_hazards.md R411, 40_control.md R138, 20_memory.md R87. (1) With no outside event to come, the pending command and
every waiting transaction are over after at most two steps for each access that holds, three for each transaction queued behind
one, and one more. (2) Every finite order of events runs out: with nothing pending and, where `rst_n` is then high, nothing waiting, or
in the refusal of a bus transaction while `rst_n` is low. (3) In an endless run whose order of events is fair, every pending
command is executed by the engine after finitely many steps, unless a reset takes it away, and (4) every access that holds is
released and acts after finitely many steps, where `rst_n` stays high. That the engine moves when no outside event is left, and
that released transactions go first, oldest first, are the model's choice (assumption log 2 and 3). -/
def Obligations.PendingWorkDrains : Prop :=
  (∀ s : State, s.rstN = true → s.schedule = [] →
      ∃ k, k ≤ 2 * s.held.length + 3 * s.queued.length + 1 ∧
        ∃ t, Sys2Proof.core.run k s = .next t ∧ t.held = [] ∧ t.queued = [] ∧ t.pending = none ∧ t.schedule = []) ∧
    (∀ s : State,
      ∃ k, (∃ host, Sys2Proof.core.run k s = .refused (.busWhileReset host)) ∨
        ∃ t, Sys2Proof.core.run k s = .next t ∧ t.schedule = [] ∧ t.pending = none ∧
          (t.rstN = true → t.held = [] ∧ t.queued = [])) ∧
    ∀ (p : Params) (es : Nat → Event) (ss : Nat → State) (taken : Nat → Nat), OpenRun p es ss taken → Fair es →
      (∀ n w, (ss n).pending = some w →
        ∃ m, n ≤ m ∧ (∀ j, n ≤ j → j ≤ m → (ss j).pending = some w) ∧ (ss (m + 1)).pending = none ∧
          (execWordWith (execOn p) w { ss m with schedule := [] } = .next (ss (m + 1)) ∨
            registersAtReset (ss (m + 1)))) ∧
      ∀ n i, i ∈ (ss n).held → (∀ j, n ≤ j → (ss j).rstN = true) →
        ∃ m rest, n ≤ m ∧ (ss m).pending = none ∧ (ss m).held = i :: rest ∧
          ss (m + 1) = perform p { ss m with held := rest, schedule := [] } i

/-- 40_control.md R135, 60_exceptions.md R302: a command that fails leaves everything but STATUS as it was (CMD was written at
acceptance); the model's own count of free values may rise, by the reads that came before the failure (assumption log 5). -/
def Obligations.FailedCommandCommitsNothing : Prop :=
  ∀ (i : Instr) (s t : State), exec i s = .next t → t.err ≠ .ok →
    t = { s with err := t.err, done := true, pending := none, draws := t.draws } ∧ s.draws ≤ t.draws

/-- 40_control.md R136, R135, 20_memory.md R81: a command writes no RAM byte outside the output region it names; where it
succeeds that region lies inside the RAM and every byte of it has been written. -/
def Obligations.CommandsWriteExactlyTheirOutput : Prop :=
  ∀ (i : Instr) (s t : State), exec i s = .next t →
    sameOutside (destRegion s (encode i)) s.ram t.ram ∧
      (t.err = .ok →
        (destRegion s (encode i)).1 + (destRegion s (encode i)).2 ≤ 65536 ∨ (destRegion s (encode i)).2 = 0) ∧
      (t.err = .ok → ∀ x, inRegion (destRegion s (encode i)) x → ∃ b, Ram.read t.ram x = some b)

/-! ### NOP -/

/-- 40_control.md R140: NOP is complete(OK) and changes nothing but STATUS. -/
def Obligations.NopOnlyCompletes : Prop :=
  ∀ s : State, exec .nop s = .next { s with err := .ok, done := true, pending := none }

/-! ### The oscillator -/

/-- 41_nco.md R150 to R153: where the checks of R151 pass, NCO_BUILD installs the staged oscillator at phase +0.0 and count 0 and
changes nothing else but STATUS. -/
def Obligations.NcoBuildInstallsStagedOscillator : Prop :=
  ∀ (s : State) (inc : F64), inc = F64.div (F64.mul 0x401921FB54442D18#64 s.ncoFreq) s.ncoRate →
    F64.isFinite s.ncoAmp = true → F64.isFinite s.ncoFreq = true →
    F64.isFinite s.ncoRate = true → F64.lt 0#64 s.ncoRate = true →
    1 ≤ s.ncoChunk.toNat → s.ncoChunk.toNat ≤ 8192 → F64.isFinite inc = true →
    exec .ncoBuild s = .next { s with
      nco := { valid := true, amp := s.ncoAmp, inc := inc, phase := 0#64, chunk := s.ncoChunk, count := 0#32 }
      err := .ok, done := true, pending := none }

/-- 41_nco.md R151: where a check fails, NCO_BUILD reports BAD_PARAM and keeps the old oscillator (R154). -/
def Obligations.NcoBuildRejectsBadParameters : Prop :=
  ∀ s : State,
    (F64.isFinite s.ncoAmp = false ∨ F64.isFinite s.ncoFreq = false ∨
        ¬ (F64.isFinite s.ncoRate = true ∧ F64.lt 0#64 s.ncoRate = true) ∨
        ¬ (1 ≤ s.ncoChunk.toNat ∧ s.ncoChunk.toNat ≤ 8192) ∨
        F64.isFinite (F64.div (F64.mul 0x401921FB54442D18#64 s.ncoFreq) s.ncoRate) = false) →
    exec .ncoBuild s = .next { s with err := .badParam, done := true, pending := none }

/-- 41_nco.md R160 to R164: where its three checks pass, NCO_PRODUCE writes sample k, of phase φ + k·Δ, at d + 8k for each k < N,
changes no other byte, reduces the unwrapped end phase into nco.phase, counts one chunk, and changes nothing else but STATUS. -/
def Obligations.NcoProduceWritesOneChunk : Prop :=
  ∀ (s : State) (n : Nat) (phase : Nat → F64), n = s.nco.chunk.toNat →
    (∀ k, phase k = F64.add s.nco.phase (F64.mul (F64.ofNat k) s.nco.inc)) →
    s.nco.valid = true → s.ncoDst.toNat % 8 = 0 → s.ncoDst.toNat + 8 * n ≤ 65536 →
    (∀ k, k ≤ n → F64.isFinite (phase k) = true) →
    ∃ m : Ram,
      exec .ncoProduce s = .next { s with
          ram := m
          nco := { s.nco with phase := F64.mod2Pi (phase n), count := s.nco.count + 1#32 }
          err := .ok, done := true, pending := none } ∧
        (∀ k, k < n →
          holdsWord m (s.ncoDst.toNat + 8 * k) (F64.toF32 (F64.mul s.nco.amp (Config.num.cos64 (phase k)))) ∧
            holdsWord m (s.ncoDst.toNat + 8 * k + 4) (F64.toF32 (F64.mul s.nco.amp (Config.num.sin64 (phase k))))) ∧
        sameOutside (s.ncoDst.toNat, 8 * n) s.ram m

/-- 41_nco.md R160, R165, 60_exceptions.md R301: the first failing check of NCO_PRODUCE, in the order NOT_BUILT, BAD_RANGE,
BAD_PARAM, gives the code, and nothing else changes but STATUS. -/
def Obligations.NcoProduceReportsFirstFailure : Prop :=
  ∀ (s : State) (n : Nat), n = s.nco.chunk.toNat →
    (s.nco.valid = false →
        exec .ncoProduce s = .next { s with err := .notBuilt, done := true, pending := none }) ∧
      (s.nco.valid = true → s.ncoDst.toNat % 8 ≠ 0 ∨ 65536 < s.ncoDst.toNat + 8 * n →
        exec .ncoProduce s = .next { s with err := .badRange, done := true, pending := none }) ∧
      (s.nco.valid = true → s.ncoDst.toNat % 8 = 0 → s.ncoDst.toNat + 8 * n ≤ 65536 →
        (∃ k, k ≤ n ∧
          F64.isFinite (F64.add s.nco.phase (F64.mul (F64.ofNat k) s.nco.inc)) = false) →
        exec .ncoProduce s = .next { s with err := .badParam, done := true, pending := none })

/-- 41_nco.md R170: NCO_RELEASE makes every field of the live oscillator 0, with or without an oscillator, and changes nothing else
but STATUS. -/
def Obligations.NcoReleaseZeroesOscillator : Prop :=
  ∀ s : State, exec .ncoRelease s = .next { s with
    nco := { valid := false, amp := 0#64, inc := 0#64, phase := 0#64, chunk := 0#32, count := 0#32 }
    err := .ok, done := true, pending := none }

/-- 10_state.md R44, 41_nco.md R164: MOD2PI gives a value in [+0.0, TWO_PI), never -0.0. Patterns below TWO_PI's are exactly the
non-negative values below TWO_PI. -/
def Obligations.Mod2PiStaysBelowTwoPi : Prop :=
  ∀ u : F64, F64.isFinite u = true →
    F64.sign (F64.mod2Pi u) = false ∧ F64.isFinite (F64.mod2Pi u) = true ∧
      F64.scaled (F64.mod2Pi u) < F64.scaled F64.twoPi ∧ (F64.mod2Pi u).toNat < 0x401921FB54442D18

/-- 41_nco.md R164: MOD2PI(u) is RNE64 of the exact u - TWO_PI·floor(u / TWO_PI), with TWO_PI itself becoming +0.0; so it differs from u
by a whole number of TWO_PI and at most 2^-51, which is 2^1023 units of 2^-1074. -/
def Obligations.Mod2PiIsTheExactRemainderRoundedOnce : Prop :=
  ∀ u : F64, F64.isFinite u = true →
    (∃ x : F64, F64.sign x = false ∧
        IsRounded ((F64.value u : ℝ) - F64.value F64.twoPi * ⌊(F64.value u : ℝ) / F64.value F64.twoPi⌋) x ∧
        F64.mod2Pi u = if x = 0x401921FB54442D18#64 then 0#64 else x) ∧
      ∃ k : Int, |F64.scaled u - k * F64.scaled F64.twoPi - F64.scaled (F64.mod2Pi u)| ≤ 2 ^ 1023

/-- 41_nco.md R161, R163, R166: the phase of sample 0 is the accumulator itself, so the first phase of the next chunk is MOD2PI of
this chunk's unwrapped end phase: nothing is carried between chunks but nco.phase. -/
def Obligations.NextChunkStartsAtReducedEndPhase : Prop :=
  ∀ (p : Params) (o : Nco), OscillatorOk p o →
    phaseAt o 0 = o.phase ∧ phaseAt (advance o) 0 = F64.mod2Pi (phaseAt o o.chunk.toNat)

/-- 10_state.md R60, 41_nco.md R171: a step changes the live oscillator only by executing an NCO command, or by a reset, which
leaves every register at its reset value. -/
def Obligations.OnlyNcoCommandsAndResetChangeOscillator : Prop :=
  ∀ s t : State, step s = .next t → t.nco ≠ s.nco →
    (s.pending = some (encode .ncoBuild) ∨ s.pending = some (encode .ncoProduce) ∨
        s.pending = some (encode .ncoRelease)) ∧ t.pending = none ∧ t.err = .ok ∨
      registersAtReset t

/-! ### Arithmetic -/

/-- 00_scope.md R11: RNE64 of ±num/den. It overflows to ±Inf exactly from 2^1024 - 2^970 on, and otherwise is a finite value as near
as any finite value, an even one where two are equally near. Distances are in units of 2^-1074, times den. Each binary64 operator
is RNE64 of the exact result, with the IEEE 754 rules for NaN, infinities, a zero divisor and the sign of a zero. -/
def Obligations.Rne64RoundsToNearestEven : Prop :=
  (∀ (neg : Bool) (num den : Nat), 0 < den →
    ∀ (x : F64) (r : Int), x = F64.ofRatio neg num den → r = (if neg then -(num : Int) else num) * 2 ^ 1074 →
      F64.sign x = neg ∧
      (F64.isInf x = true ↔ den * (2 ^ 1024 - 2 ^ 970) ≤ num) ∧
      (num < den * (2 ^ 1024 - 2 ^ 970) →
        F64.isFinite x = true ∧
          ∀ y : F64, F64.isFinite y = true →
            |F64.scaled x * den - r| ≤ |F64.scaled y * den - r| ∧
              (|F64.scaled x * den - r| = |F64.scaled y * den - r| → F64.scaled x ≠ F64.scaled y →
                F64.magBits x % 2 = 0))) ∧
    ∀ x y : F64,
      (F64.isNaN x = true ∨ F64.isNaN y = true →
        F64.isNaN (F64.add x y) = true ∧ F64.isNaN (F64.sub x y) = true ∧ F64.isNaN (F64.mul x y) = true ∧
          F64.isNaN (F64.div x y) = true ∧ F64.lt x y = false ∧ F64.le x y = false) ∧
      (F64.isFinite x = true → F64.isFinite y = true →
        IsRounded (F64.value x + F64.value y) (F64.add x y) ∧
          (F64.value x + F64.value y = 0 →
            F64.add x y = if F64.sign x ∧ F64.sign y then 0x8000000000000000#64 else 0#64) ∧
          IsRounded (F64.value x - F64.value y) (F64.sub x y) ∧
          (F64.value x - F64.value y = 0 →
            F64.sub x y = if F64.sign x ∧ ¬ F64.sign y then 0x8000000000000000#64 else 0#64) ∧
          IsRounded (F64.value x * F64.value y) (F64.mul x y) ∧
          (F64.isZero y = false → IsRounded (F64.value x / F64.value y) (F64.div x y)) ∧
          (F64.lt x y = true ↔ F64.value x < F64.value y) ∧ (F64.le x y = true ↔ F64.value x ≤ F64.value y)) ∧
      (F64.isNaN x = false → F64.isNaN y = false →
        (F64.isInf x = true → F64.isInf y = false → F64.add x y = x ∧ F64.sub x y = x) ∧
          (F64.isInf x = false → F64.isInf y = true →
            F64.add x y = y ∧ F64.sub x y = if F64.sign y then F64.posInf else F64.negInf) ∧
          (F64.isInf x = true → F64.isInf y = true →
            (if F64.sign x = F64.sign y then F64.add x y = x ∧ F64.isNaN (F64.sub x y) = true
              else F64.isNaN (F64.add x y) = true ∧ F64.sub x y = x)) ∧
          (F64.isInf x = true ∨ F64.isInf y = true →
            (if F64.isZero x ∨ F64.isZero y then F64.isNaN (F64.mul x y) = true
              else F64.mul x y = if F64.sign x = F64.sign y then F64.posInf else F64.negInf)) ∧
          (F64.isZero y = true → F64.isInf x = false →
            (if F64.isZero x then F64.isNaN (F64.div x y) = true
              else F64.div x y = if F64.sign x = F64.sign y then F64.posInf else F64.negInf)) ∧
          (F64.isInf x = true →
            (if F64.isInf y then F64.isNaN (F64.div x y) = true
              else F64.div x y = if F64.sign x = F64.sign y then F64.posInf else F64.negInf)) ∧
          (F64.isInf x = false → F64.isInf y = true →
            F64.div x y = if F64.sign x = F64.sign y then 0#64 else 0x8000000000000000#64) ∧
          (F64.isNaN (F64.mul x y) = false → F64.sign (F64.mul x y) = (F64.sign x != F64.sign y)) ∧
          (F64.isNaN (F64.div x y) = false → F64.sign (F64.div x y) = (F64.sign x != F64.sign y)))

/-- 00_scope.md R11: RNE64 of a value that binary64 holds is that value. -/
def Obligations.Rne64KeepsBinary64Values : Prop :=
  ∀ x : F64, F64.isFinite x = true → F64.ofRatio (F64.sign x) (F64.scaledMag x) (2 ^ 1074) = x

/-- 00_scope.md R11: RNE32 of a binary64 value: the canonical NaN, an infinity, or to nearest even. Both values are in units of 2^-1074. -/
def Obligations.Rne32RoundsToNearestEven : Prop :=
  ∀ x : F64,
    (F64.isNaN x = true → F64.toF32 x = 0x7FC00000#32) ∧
      (F64.isInf x = true → F64.toF32 x = if F64.sign x then 0xFF800000#32 else 0x7F800000#32) ∧
      (F64.isFinite x = true →
        (F64.toF32 x).msb = F64.sign x ∧
          (F32.isInf (F64.toF32 x) = true ↔ (2 ^ 128 - 2 ^ 103) * 2 ^ 1074 ≤ F64.scaledMag x) ∧
          (F64.scaledMag x < (2 ^ 128 - 2 ^ 103) * 2 ^ 1074 →
            F32.isNaN (F64.toF32 x) = false ∧
              ∀ y : F32, F32.isNaN y = false → F32.isInf y = false →
                |(F32.scaledMag (F64.toF32 x) : Int) * 2 ^ 925 - F64.scaledMag x| ≤
                    |(F32.scaledMag y : Int) * 2 ^ 925 - F64.scaledMag x| ∧
                  (|(F32.scaledMag (F64.toF32 x) : Int) * 2 ^ 925 - F64.scaledMag x| =
                      |(F32.scaledMag y : Int) * 2 ^ 925 - F64.scaledMag x| →
                    F32.scaledMag (F64.toF32 x) ≠ F32.scaledMag y → F32.magBits (F64.toF32 x) % 2 = 0)))

/-- 00_scope.md R10: every binary32 value is widened exactly; a NaN stays a NaN. -/
def Obligations.WideningIsExact : Prop :=
  ∀ y : F32,
    (F32.isNaN y = true → F64.isNaN (F32.widen y) = true) ∧
      (F32.isInf y = true → F64.isInf (F32.widen y) = true ∧ F64.sign (F32.widen y) = y.msb) ∧
      (F32.isNaN y = false → F32.isInf y = false →
        F64.isFinite (F32.widen y) = true ∧ F64.sign (F32.widen y) = y.msb ∧
          F64.scaledMag (F32.widen y) = F32.scaledMag y * 2 ^ 925)

/-- 00_scope.md R11: sqrt64 is correctly rounded, sqrt64(±0) = ±0, and by IEEE 754 the root of a NaN or of a value below zero is a NaN
and that of +Inf is +Inf. The root of a positive finite x lies on the right side of every midpoint between the result and another
finite value. With x = X·2^-1074 and values Y, Z in the same units, √x ≤ (Y+Z)/2 is 4·X·2^1074 ≤ (Y+Z)². -/
def Obligations.SquareRootIsCorrectlyRounded : Prop :=
  (∀ x : F64, F64.isZero x = true → F64.sqrt x = x) ∧
    (∀ x : F64, F64.isNaN x = true → F64.isNaN (F64.sqrt x) = true) ∧
    (∀ x : F64, F64.sign x = true → F64.isZero x = false → F64.isNaN (F64.sqrt x) = true) ∧
    F64.sqrt F64.posInf = F64.posInf ∧
    ∀ x : F64, F64.isFinite x = true → F64.sign x = false → F64.isZero x = false →
      F64.isFinite (F64.sqrt x) = true ∧ F64.sign (F64.sqrt x) = false ∧
        ∀ z : F64, F64.isFinite z = true → F64.sign z = false →
          (F64.scaled (F64.sqrt x) < F64.scaled z →
              4 * F64.scaled x * 2 ^ 1074 ≤ (F64.scaled (F64.sqrt x) + F64.scaled z) ^ 2) ∧
            (F64.scaled z < F64.scaled (F64.sqrt x) →
              (F64.scaled (F64.sqrt x) + F64.scaled z) ^ 2 ≤ 4 * F64.scaled x * 2 ^ 1074)

/-- 00_scope.md R13: the block's NUM has the properties a model assumes, and the exact values that the spec states for the correctly
rounded default (43_noise.md R211, 95_test_vectors.md V-NCO-4). Holding NUM to the latter is the model's choice (assumption log 9). -/
def Obligations.NumMeetsItsStatedProperties : Prop := Config.num.Admissible ∧ Config.num.Exact

/-- 00_scope.md R5: the parameters the machine runs with are legal, the taps of RSSI_COEF(M) among them (20M+1 of them and symmetric),
and exec and step are what a block built with these parameters does. -/
def Obligations.DefaultParametersAreLegal : Prop :=
  Config.params.wellFormed = true ∧ (∀ (i : Instr) (s : State), exec i s = execOn Config.params i s) ∧
    ∀ s : State, step s = stepOn Config.params s

/-- 42_rssi.md R186: for every M ≥ 2 the default table has 20M+1 taps, is symmetric, and its tap at a nonzero multiple of M is +0.0. With
every tap that 95_test_vectors.md V-RSSI-6 lists: h_2(0) to h_2(20), their sum in binary64, and h_3(0). -/
def Obligations.DefaultTapsHaveTheStatedShape : Prop :=
  (∀ m, 2 ≤ m →
      (Taps.defaultCoef m).length = 20 * m + 1 ∧
        (Taps.defaultCoef m).reverse = Taps.defaultCoef m ∧
        ∀ j, 1 ≤ j → j ≤ 10 → (Taps.defaultCoef m)[10 * m + j * m]? = some 0x0000000000000000#64 ∧
          (Taps.defaultCoef m)[10 * m - j * m]? = some 0x0000000000000000#64) ∧
    (Taps.defaultCoef 2).drop 20 =
      [0x3FE0021E9B749668#64, 0x3FD444D186D50AD7#64, 0#64, 0xBFB9D68FB900890A#64, 0#64, 0x3FAC4EBEF681BC2D#64, 0#64,
        0xBFA195093B0FCBC3#64, 0#64, 0x3F968D3A9A7C6E7D#64, 0#64, 0xBF8CA6C66C3F79E0#64, 0#64, 0x3F818619E8A7D675#64, 0#64,
        0xBF740C9B168157CF#64, 0#64, 0x3F648DAF4CF522C6#64, 0#64, 0xBF513A2342ABBC76#64, 0#64] ∧
    (Taps.defaultCoef 2).foldl F64.add 0#64 = 0x3FF0000000000000#64 ∧
    (Taps.defaultCoef 3)[30]? = some 0x3FD558A4D34C91AF#64

/-- 42_rssi.md R186: for every M from 2 to the default RSSI_MAX_DECIM, tap j of the default table is RNE64 of the exact real
c(j) / Σ c(i), c being the windowed sinc of R186, and the middle tap is above 0. -/
def Obligations.DefaultTapsAreRoundedOnce : Prop :=
  ∀ (m : Nat) (I0 : ℝ → ℝ) (w c : Int → ℝ), 2 ≤ m → m ≤ 16 → KaiserSinc m I0 w c →
    ∀ j : Int, -(10 * m) ≤ j → j ≤ 10 * m →
      ∃ h, (Taps.defaultCoef m)[(10 * m + j).toNat]? = some h ∧
        IsRounded (c j / ∑ i ∈ Finset.Icc (-(10 * m : Int)) (10 * m), c i) h ∧ (j = 0 → F64.lt 0#64 h = true)

/-! ### The RSSI estimator -/

/-- 42_rssi.md R182 to R184: the value of one sample, with the constants 50, 30 and 10 and the floor 2^-298 written out; and the floor
replaces only exact zeros: a sample with a part that is not zero, be it the smallest, has a power that is not zero. -/
def Obligations.SampleDbmFollowsTheFormula : Prop :=
  (∀ (g e : F64) (re im : F32) (p : F64),
    p = F64.add (F64.mul (F32.widen re) (F32.widen re)) (F64.mul (F32.widen im) (F32.widen im)) →
    sampleDbm Config.params g e (re, im) =
      F64.add
        (F64.sub
          (F64.add
            (F64.mul 0x4024000000000000#64
              (Config.num.log10_64
                (F64.div (if F64.isZero p then 0x2D50000000000000#64 else p) 0x4049000000000000#64)))
            0x403E000000000000#64)
          g)
        e) ∧
    ∀ re im : F32, F64.isZero (samplePower (re, im)) = true ↔ F32.magBits re = 0 ∧ F32.magBits im = 0

/-- 42_rssi.md R187: output i of the filter is the sum, from +0.0 on and in ascending order of the taps, of the products of those taps
whose input lies inside the sequence. -/
def Obligations.FilterSumsTapsInAscendingOrder : Prop :=
  ∀ (taps xs : List F64) (m i : Nat),
    firAt taps m xs i =
      ((List.range taps.length).filterMap fun t =>
          if 10 * m ≤ i * m + t then (xs[i * m + t - 10 * m]?).map fun x => F64.mul (taps.getD t 0#64) x
          else none).foldl F64.add 0#64

/-- 42_rssi.md R180, R185, R187 to R189: where the checks of R181 pass, RSSI_RUN writes n = ceil(L/M) words, word k being RNE32 of the
k-th dBm value for M = 1 and of the filter centred on input kM for M ≥ 2; RSSI_OUTLEN becomes n; no other byte changes, nor
anything else but STATUS and the model's count of free values. The k-th value is that of input sample k, whose real part is the
word at src + 8k and whose imaginary part the word at src + 8k + 4 (20_memory.md R85). -/
def Obligations.RssiRunWritesDecimatedTrace : Prop :=
  ∀ (s : State) (len m n : Nat) (xs : List F64), len = s.rssiLen.toNat → m = s.rssiDecim.toNat →
    n = (len + m - 1) / m →
    xs = (drawSamples s.ram s.draws s.rssiSrc.toNat len).1.map (sampleDbm Config.params s.rssiGain s.rssiMerr) →
    1 ≤ len → 1 ≤ m → m ≤ 16 → F64.isFinite s.rssiGain = true → F64.isFinite s.rssiMerr = true →
    s.rssiSrc.toNat % 8 = 0 → s.rssiSrc.toNat + 8 * len ≤ 65536 →
    s.rssiDst.toNat % 4 = 0 → s.rssiDst.toNat + 4 * n ≤ 65536 →
    s.rssiSrc.toNat + 8 * len ≤ s.rssiDst.toNat ∨ s.rssiDst.toNat + 4 * n ≤ s.rssiSrc.toNat →
    m * (n - 1) < len ∧ len ≤ m * n ∧ xs.length = len ∧
      (∀ (k : Nat) (re im : F32), k < len → holdsWord s.ram (s.rssiSrc.toNat + 8 * k) re →
        holdsWord s.ram (s.rssiSrc.toNat + 8 * k + 4) im →
        xs[k]? = some (sampleDbm Config.params s.rssiGain s.rssiMerr (re, im))) ∧
      ∃ (ram : Ram) (draws : Nat),
        exec .rssiRun s = .next { s with
            ram := ram, rssiOutlen := BitVec.ofNat 32 n, draws := draws
            err := .ok, done := true, pending := none } ∧
          s.draws ≤ draws ∧
          (∀ k, k < n → holdsWord ram (s.rssiDst.toNat + 4 * k)
            (F64.toF32 (if m = 1 then xs.getD k 0#64 else firAt (Taps.defaultCoef m) m xs k))) ∧
          sameOutside (s.rssiDst.toNat, 4 * n) s.ram ram

/-- 42_rssi.md R181, 60_exceptions.md R301: the first failing check of RSSI_RUN, in the order of R181, gives the code, and nothing
else changes but STATUS. -/
def Obligations.RssiRunReportsFirstFailure : Prop :=
  ∀ (s : State) (len m n : Nat) (code : ErrCode), len = s.rssiLen.toNat → m = s.rssiDecim.toNat →
    n = (len + m - 1) / m →
    (if len = 0 then code = .badParam
      else if m = 0 ∨ 16 < m then code = .badParam
      else if F64.isFinite s.rssiGain = false then code = .badParam
      else if F64.isFinite s.rssiMerr = false then code = .badParam
      else if s.rssiSrc.toNat % 8 ≠ 0 ∨ 65536 < s.rssiSrc.toNat + 8 * len then code = .badRange
      else if s.rssiDst.toNat % 4 ≠ 0 ∨ 65536 < s.rssiDst.toNat + 4 * n then code = .badRange
      else if s.rssiDst.toNat < s.rssiSrc.toNat + 8 * len ∧ s.rssiSrc.toNat < s.rssiDst.toNat + 4 * n then
        code = .overlap
      else False) →
    exec .rssiRun s = .next { s with err := code, done := true, pending := none }

/-! ### The noise generator -/

/-- 43_noise.md R212: NOISE_SEED copies the seed into the PRNG state and changes nothing else but STATUS. -/
def Obligations.NoiseSeedLoadsGenerator : Prop :=
  ∀ s : State, exec .noiseSeed s = .next { s with prng := s.noiseSeed, err := .ok, done := true, pending := none }

/-- 43_noise.md R210: n draws move the state by n times the increment, and the sequence of states has period 2^64. -/
def Obligations.GeneratorHasFullPeriod : Prop :=
  (∀ (n : Nat) (z : U64), prngAdvance n z = z + BitVec.ofNat 64 n * 0x9E3779B97F4A7C15#64) ∧
    ∀ (n : Nat) (z : U64), prngAdvance n z = z ↔ 2 ^ 64 ∣ n

/-- 43_noise.md R210: the SplitMix64 step and mixing written out, and that two different states draw different values: the mixing loses
nothing. -/
def Obligations.GeneratorOutputIsOneToOne : Prop :=
  (∀ z z' : U64, prngMix z = prngMix z' → z = z') ∧
    ∀ z z1 z2 : U64, z1 = (z ^^^ (z >>> 30)) * 0xBF58476D1CE4E5B9#64 →
      z2 = (z1 ^^^ (z1 >>> 27)) * 0x94D049BB133111EB#64 →
      prngMix z = z2 ^^^ (z2 >>> 31) ∧ prngNext z = z + 0x9E3779B97F4A7C15#64 ∧
        [prngMix (prngNext 0#64), prngMix (prngAdvance 2 0#64), prngMix (prngAdvance 3 0#64), prngMix (prngAdvance 4 0#64)] =
          [0xE220A8397B1DCDAF#64, 0x6E789E6AA1B965F4#64, 0x06C45D188009454F#64, 0xF88BB8A8724C81EC#64]

/-- 43_noise.md R211: u1 = 1 - u lies in (0, 1] and u in [0, 1), both exact multiples of 2^-53: in units of 2^-53 the value is the top 53
bits of the draw. gauss_pair() is the Box–Muller transform of them, written out: with the next two draws z1 and z2 in this order,
r = sqrt64(-2·ln64(u1)) and θ = TWO_PI·u2 it is (r·cos64(θ), r·sin64(θ)). -/
def Obligations.UniformsAreExact : Prop :=
  (∀ z : U64,
    F64.scaled (uniform z) = (z >>> 11).toNat * 2 ^ 1021 ∧
      F64.scaled (F64.sub F64.one (uniform z)) = (2 ^ 53 - (z >>> 11).toNat) * 2 ^ 1021 ∧
      F64.isFinite (uniform z) = true ∧ F64.isFinite (F64.sub F64.one (uniform z)) = true ∧
      0 < F64.scaled (F64.sub F64.one (uniform z))) ∧
    ∀ (num : Numerics) (z z1 z2 : U64) (u1 u2 r theta : F64),
      z1 = prngMix (z + 0x9E3779B97F4A7C15#64) →
      z2 = prngMix (z + 0x9E3779B97F4A7C15#64 + 0x9E3779B97F4A7C15#64) →
      u1 = F64.ofRatio false (2 ^ 53 - (z1 >>> 11).toNat) (2 ^ 53) → u2 = F64.ofRatio false (z2 >>> 11).toNat (2 ^ 53) →
      r = F64.sqrt (F64.mul 0xC000000000000000#64 (num.ln64 u1)) → theta = F64.mul 0x401921FB54442D18#64 u2 →
      gaussPair num z = (F64.mul r (num.cos64 theta), F64.mul r (num.sin64 theta))

/-- 43_noise.md R220 to R226: where the seven checks pass, NOISE_APPLY writes output sample k from input sample k and the k-th Gaussian
pair at d + 8k, advances the PRNG by 2L draws, records the variance, changes no other byte, nor anything else but STATUS and the
model's count of free values. Input sample k has its real part in the word at src + 8k and its imaginary part in the word at
src + 8k + 4 (20_memory.md R85). -/
def Obligations.NoiseApplyWritesNoisySignal : Prop :=
  ∀ (s : State) (len : Nat) (xs : List (F32 × F32)) (var : F64), len = s.noiseLen.toNat →
    xs = (drawSamples s.ram s.draws s.noiseSrc.toNat len).1 →
    var = F64.div
      (F64.div
        (xs.foldl (fun acc x => F64.add acc
          (F64.add (F64.mul (F32.widen x.1) (F32.widen x.1)) (F64.mul (F32.widen x.2) (F32.widen x.2)))) 0#64)
        (F64.ofNat len))
      (F64.mul (F64.mul 0x4000000000000000#64 s.noiseRate)
        (Config.num.exp10_64 (F64.div s.noiseSnr 0x4024000000000000#64))) →
    1 ≤ len → F64.isFinite s.noiseSnr = true →
    F64.lt 0#64 s.noiseRate = true → F64.le s.noiseRate 0x3FF0000000000000#64 = true →
    s.noiseSrc.toNat % 8 = 0 → s.noiseSrc.toNat + 8 * len ≤ 65536 →
    s.noiseDst.toNat % 8 = 0 → s.noiseDst.toNat + 8 * len ≤ 65536 →
    s.noiseDst = s.noiseSrc ∨ s.noiseSrc.toNat + 8 * len ≤ s.noiseDst.toNat ∨
      s.noiseDst.toNat + 8 * len ≤ s.noiseSrc.toNat →
    F64.isFinite var = true →
    ∃ (ram : Ram) (draws : Nat),
      exec .noiseApply s = .next { s with
          ram := ram, draws := draws
          prng := s.prng + BitVec.ofNat 64 (2 * len) * 0x9E3779B97F4A7C15#64
          noiseVar := var, err := .ok, done := true, pending := none } ∧
        s.draws ≤ draws ∧
        (∀ k (x : F32 × F32), xs[k]? = some x →
          ∀ g, g = gaussPair Config.num (prngAdvance (2 * k) s.prng) →
          holdsWord ram (s.noiseDst.toNat + 8 * k)
              (F64.toF32 (F64.add (F32.widen x.1) (F64.mul (F64.sqrt var) g.1))) ∧
            holdsWord ram (s.noiseDst.toNat + 8 * k + 4)
              (F64.toF32 (F64.add (F32.widen x.2) (F64.mul (F64.sqrt var) g.2)))) ∧
        xs.length = len ∧
        (∀ (k : Nat) (re im : F32), k < len → holdsWord s.ram (s.noiseSrc.toNat + 8 * k) re →
          holdsWord s.ram (s.noiseSrc.toNat + 8 * k + 4) im → xs[k]? = some (re, im)) ∧
        sameOutside (s.noiseDst.toNat, 8 * len) s.ram ram

/-- 43_noise.md R221, 60_exceptions.md R301: the first failing check of NOISE_APPLY, in the order of R221, gives the code, and nothing
else changes but STATUS and, for check 7, which reads the input, the model's count of free values. -/
def Obligations.NoiseApplyReportsFirstFailure : Prop :=
  ∀ (s : State) (len : Nat) (code : ErrCode) (draws : Nat), len = s.noiseLen.toNat →
    (if len = 0 then code = .badParam ∧ draws = s.draws
      else if F64.isFinite s.noiseSnr = false then code = .badParam ∧ draws = s.draws
      else if F64.lt 0#64 s.noiseRate = false ∨ F64.le s.noiseRate 0x3FF0000000000000#64 = false then
        code = .badParam ∧ draws = s.draws
      else if s.noiseSrc.toNat % 8 ≠ 0 ∨ 65536 < s.noiseSrc.toNat + 8 * len then
        code = .badRange ∧ draws = s.draws
      else if s.noiseDst.toNat % 8 ≠ 0 ∨ 65536 < s.noiseDst.toNat + 8 * len then
        code = .badRange ∧ draws = s.draws
      else if s.noiseDst ≠ s.noiseSrc ∧ s.noiseDst.toNat < s.noiseSrc.toNat + 8 * len ∧
          s.noiseSrc.toNat < s.noiseDst.toNat + 8 * len then
        code = .overlap ∧ draws = s.draws
      else
        code = .badParam ∧
          F64.isFinite (F64.div (averageEnergy (drawSamples s.ram s.draws s.noiseSrc.toNat len).1)
            (F64.mul (F64.mul 0x4000000000000000#64 s.noiseRate)
              (Config.num.exp10_64 (F64.div s.noiseSnr 0x4024000000000000#64)))) = false ∧
          draws = (drawSamples s.ram s.draws s.noiseSrc.toNat len).2) →
    exec .noiseApply s = .next { s with err := code, done := true, pending := none, draws := draws }

/-- 43_noise.md R226: two NOISE_APPLY commands with the same inputs, operands and PRNG state end with the same code, and where they
succeed with the same outputs, variance and PRNG state. The input bytes have been written, so no free value is read. -/
def Obligations.NoiseIsReproducible : Prop :=
  ∀ s s' t t' : State, SameNoiseOperands s s' →
    (∀ x, inRegion (s.noiseSrc.toNat, 8 * s.noiseLen.toNat) x →
      ∃ b, Ram.read s.ram x = some b ∧ Ram.read s'.ram x = some b) →
    exec .noiseApply s = .next t → exec .noiseApply s' = .next t' →
    t'.err = t.err ∧
      (t.err = .ok → t'.prng = t.prng ∧ t'.noiseVar = t.noiseVar ∧
        ∀ x, inRegion (s.noiseDst.toNat, 8 * s.noiseLen.toNat) x → Ram.read t'.ram x = Ram.read t.ram x)

/-- 43_noise.md R227, with R222 to R225: the SNR that the output measures. (1) E, var and σ of a command satisfy 2·var·R·lin = E and
σ² = var up to a relative 2^-51, where nothing underflows. (2) So E over the noise power 2·σ² is snr_dB + 10·log10(R) in dB, up to
2^-40 and how far NUM's lin is from 10^(snr_dB/10) in dB. (3) With free draws in place of the generator's, independent standard
Gaussian ones, the mean noise power is 2·σ² and the measured SNR converges to that value with probability 1. (4) What `addNoise`
adds to any samples and draws, with its roundings, has the power of σ times the draws: the roots differ by at most 2^-23 of the
two powers' roots and 2^-148. -/
def Obligations.MeasuredSnrConvergesToTheTarget : Prop :=
  (∀ (num : Numerics) (snr rate : F64) (xs : List (F32 × F32)) (energy lin var sigma r : ℝ) (v : F64),
    v = noiseVariance num snr rate xs → energy = F64.value (averageEnergy xs) → lin = F64.value (linearSnr num snr) →
    var = F64.value v → sigma = F64.value (F64.sqrt v) → r = F64.value rate →
    F64.lt 0#64 rate = true → F64.le rate 0x3FF0000000000000#64 = true →
    F64.isFinite (linearSnr num snr) = true → F64.isFinite v = true → (2 : ℝ) ^ (-1022 : ℤ) ≤ 2 * r * lin →
    (2 : ℝ) ^ (-1022 : ℤ) ≤ var →
    |2 * var * (r * lin) - energy| ≤ 2 ^ (-51 : ℤ) * energy ∧ |sigma ^ 2 - var| ≤ 2 ^ (-51 : ℤ) * var ∧
      |10 * Real.logb 10 (energy / (2 * sigma ^ 2)) - (F64.value snr + 10 * Real.logb 10 r)| ≤
        |10 * Real.logb 10 lin - F64.value snr| + 2 ^ (-40 : ℤ) ∧
      ∀ (Ω : Type) (_ : MeasurableSpace Ω) (μ : MeasureTheory.Measure Ω) (g : Nat → Ω → ℝ),
        MeasureTheory.IsProbabilityMeasure μ → GaussianDraws μ g →
        (∀ n : Nat, 0 < n → ∫ ω, (∑ k ∈ Finset.range (2 * n), (sigma * g k ω) ^ 2) / n ∂μ = 2 * sigma ^ 2) ∧
          ∀ᵐ ω ∂μ, Filter.Tendsto
            (fun n : Nat => 10 * Real.logb 10 (energy / ((∑ k ∈ Finset.range (2 * n), (sigma * g k ω) ^ 2) / n)))
            Filter.atTop (nhds (10 * Real.logb 10 (energy / (2 * sigma ^ 2))))) ∧
    ∀ (sigma : F64) (xs : List (F32 × F32)) (gs : List (F64 × F64)) (signal noise : ℝ), xs ≠ [] → gs.length = xs.length →
      F64.isFinite sigma = true →
      (∀ x ∈ xs, F32.isFinite x.1 = true ∧ F32.isFinite x.2 = true) →
      (∀ g ∈ gs, F64.isFinite g.1 = true ∧ F64.isFinite g.2 = true) →
      (∀ x ∈ xs, ∀ g ∈ gs, |F32.value x.1| + |F64.value sigma * F64.value g.1| < 2 ^ 127 ∧
        |F32.value x.2| + |F64.value sigma * F64.value g.2| < 2 ^ 127) →
      signal = √((totalPower xs / xs.length : ℚ) : ℝ) →
      noise = √((F64.value sigma ^ 2 * (gs.map fun g => F64.value g.1 ^ 2 + F64.value g.2 ^ 2).sum / gs.length : ℚ) : ℝ) →
      |√((noisePower xs (addNoise sigma xs gs) : ℚ) : ℝ) - noise| ≤
        2 ^ (-23 : ℤ) * (signal + noise) + 2 ^ (-148 : ℤ)

/-- 10_state.md R61: a step changes the PRNG state only by executing NOISE_SEED, by a NOISE_APPLY that succeeds, or by a reset, which
leaves every register at its reset value. -/
def Obligations.OnlyNoiseCommandsAndResetChangeGenerator : Prop :=
  ∀ s t : State, step s = .next t → t.prng ≠ s.prng →
    (s.pending = some (encode .noiseSeed) ∨ s.pending = some (encode .noiseApply)) ∧ t.pending = none ∧ t.err = .ok ∨
      registersAtReset t

/-! ### The bus, the registers and the interrupt -/

/-- 10_state.md R31 to R62, 60_exceptions.md R300: every bit of STATUS and CTRL, the numbers of the error codes, and which state each
offset of the register window reads: the low half of a 64-bit register at its _LO offset and the high half at its _HI. -/
def Obligations.StatusAndControlReadTheirFields : Prop :=
  (∀ s : State,
      (statusWord s).getLsbD 0 = s.pending.isSome ∧ (statusWord s).getLsbD 1 = s.done ∧
        (statusWord s).getLsbD 2 = s.busyViol ∧ (statusWord s).getLsbD 3 = s.nco.valid ∧
        (statusWord s).extractLsb' 4 4 = 0#4 ∧ (statusWord s).extractLsb' 8 4 = s.err.number ∧
        (statusWord s).extractLsb' 12 20 = 0#20 ∧
        (ctrlWord s).getLsbD 0 = s.irqEn ∧ (ctrlWord s).extractLsb' 1 31 = 0#31) ∧
    (ErrCode.ok.number = 0#4 ∧ ErrCode.illegalCmd.number = 1#4 ∧ ErrCode.notBuilt.number = 2#4 ∧
      ErrCode.badParam.number = 3#4 ∧ ErrCode.badRange.number = 4#4 ∧ ErrCode.overlap.number = 5#4) ∧
    ∀ s : State,
      (readWindow s 0x000 = 0x4E434F31#32 ∧ readWindow s 0x004 = 0x00010000#32 ∧ readWindow s 0x008 = ctrlWord s ∧
        readWindow s 0x00C = statusWord s ∧ readWindow s 0x010 = s.cmd) ∧
      (readWindow s 0x020 = s.ncoAmp.extractLsb' 0 32 ∧ readWindow s 0x024 = s.ncoAmp.extractLsb' 32 32 ∧
        readWindow s 0x028 = s.ncoFreq.extractLsb' 0 32 ∧ readWindow s 0x02C = s.ncoFreq.extractLsb' 32 32 ∧
        readWindow s 0x030 = s.ncoRate.extractLsb' 0 32 ∧ readWindow s 0x034 = s.ncoRate.extractLsb' 32 32 ∧
        readWindow s 0x038 = s.ncoChunk ∧ readWindow s 0x03C = s.ncoDst ∧
        readWindow s 0x040 = s.nco.amp.extractLsb' 0 32 ∧ readWindow s 0x044 = s.nco.amp.extractLsb' 32 32 ∧
        readWindow s 0x048 = s.nco.inc.extractLsb' 0 32 ∧ readWindow s 0x04C = s.nco.inc.extractLsb' 32 32 ∧
        readWindow s 0x050 = s.nco.phase.extractLsb' 0 32 ∧ readWindow s 0x054 = s.nco.phase.extractLsb' 32 32 ∧
        readWindow s 0x058 = s.nco.chunk ∧ readWindow s 0x05C = s.nco.count) ∧
      (readWindow s 0x080 = s.rssiSrc ∧ readWindow s 0x084 = s.rssiLen ∧ readWindow s 0x088 = s.rssiDst ∧
        readWindow s 0x08C = s.rssiDecim ∧
        readWindow s 0x090 = s.rssiGain.extractLsb' 0 32 ∧ readWindow s 0x094 = s.rssiGain.extractLsb' 32 32 ∧
        readWindow s 0x098 = s.rssiMerr.extractLsb' 0 32 ∧ readWindow s 0x09C = s.rssiMerr.extractLsb' 32 32 ∧
        readWindow s 0x0A0 = s.rssiOutlen) ∧
      (readWindow s 0x0C0 = s.noiseSrc ∧ readWindow s 0x0C4 = s.noiseLen ∧ readWindow s 0x0C8 = s.noiseDst ∧
        readWindow s 0x0D0 = s.noiseSnr.extractLsb' 0 32 ∧ readWindow s 0x0D4 = s.noiseSnr.extractLsb' 32 32 ∧
        readWindow s 0x0D8 = s.noiseRate.extractLsb' 0 32 ∧ readWindow s 0x0DC = s.noiseRate.extractLsb' 32 32 ∧
        readWindow s 0x0E0 = s.noiseSeed.extractLsb' 0 32 ∧ readWindow s 0x0E4 = s.noiseSeed.extractLsb' 32 32 ∧
        readWindow s 0x0E8 = s.prng.extractLsb' 0 32 ∧ readWindow s 0x0EC = s.prng.extractLsb' 32 32 ∧
        readWindow s 0x0F0 = s.noiseVar.extractLsb' 0 32 ∧ readWindow s 0x0F4 = s.noiseVar.extractLsb' 32 32)

/-- 40_control.md R131: a write to CMD while idle accepts the command word, legal or not. -/
def Obligations.CommandWriteIsAccepted : Prop :=
  ∀ (s : State) (host : Nat) (w : Word), s.pending = none →
    perform Config.params s ⟨host, .write 32 0x010 w⟩ =
      { s with
        cmd := w, pending := some w, done := false
        replies := ⟨host, .write 32 0x010 w, .ok⟩ :: s.replies }

/-- 40_control.md R133, 10_state.md R34, R35: while a command is pending a write to the register window is dropped, answers ok and
sets BUSY_VIOL, at every offset but CTRL's and STATUS's, whose writes are never dropped. -/
def Obligations.BusyWritesAreDropped : Prop :=
  ∀ (s : State) (host off : Nat) (v : Word), off % 4 = 0 → off < 0x1000 →
    (s.pending.isSome = true → off ≠ 0x008 → off ≠ 0x00C →
        perform Config.params s ⟨host, .write 32 off v⟩ =
          { s with busyViol := true, replies := ⟨host, .write 32 off v, .ok⟩ :: s.replies }) ∧
      (off = 0x00C →
        perform Config.params s ⟨host, .write 32 off v⟩ =
          { s with
            done := s.done && !v.getLsbD 1, busyViol := s.busyViol && !v.getLsbD 2
            replies := ⟨host, .write 32 off v, .ok⟩ :: s.replies }) ∧
      (off = 0x008 → v.getLsbD 1 = false →
        perform Config.params s ⟨host, .write 32 off v⟩ =
          { s with irqEn := v.getLsbD 0, replies := ⟨host, .write 32 off v, .ok⟩ :: s.replies }) ∧
      (off = 0x008 → v.getLsbD 1 = true →
        perform Config.params s ⟨host, .write 32 off v⟩ =
          answer (softReset Config.params s) ⟨host, .write 32 off v⟩ .ok)

/-- 10_state.md R31, 40_control.md R132: while idle, a write to an operand register is kept, all 32 bits, no other register of the
window reads differently, and nothing else of the block changes; a write to a read-only register or a reserved offset changes
nothing; a reserved offset reads 0. -/
def Obligations.OperandRegistersKeepWhatIsWritten : Prop :=
  ∀ (s : State) (off : Nat) (v : Word), s.pending = none → off % 4 = 0 → off < 0x1000 →
    (off ∈ [0x020, 0x024, 0x028, 0x02C, 0x030, 0x034, 0x038, 0x03C, 0x080, 0x084, 0x088, 0x08C, 0x090, 0x094, 0x098,
          0x09C, 0x0C0, 0x0C4, 0x0C8, 0x0D0, 0x0D4, 0x0D8, 0x0DC, 0x0E0, 0x0E4] →
        ∀ t a, performWrite Config.params s 32 off v = (t, a) →
          readWindow t off = v ∧ (∀ other, other ≠ off → readWindow t other = readWindow s other) ∧ a = .ok ∧
            t.ram = s.ram ∧ t.pending = none ∧ t.rstN = s.rstN ∧ t.held = s.held ∧ t.queued = s.queued ∧
            t.schedule = s.schedule ∧ t.replies = s.replies ∧ t.draws = s.draws) ∧
      (off ∈ [0x000, 0x004, 0x040, 0x044, 0x048, 0x04C, 0x050, 0x054, 0x058, 0x05C, 0x0A0, 0x0E8, 0x0EC, 0x0F0,
            0x0F4] ∨ regAt off = none →
        performWrite Config.params s 32 off v = (s, .ok)) ∧
      (regAt off = none → readWindow s off = 0#32)

/-- 20_memory.md R83, 60_exceptions.md R303: an access of another width, at an offset that is no multiple of 4, or outside the register
window and the RAM answers error and changes nothing; any other access does not answer error. -/
def Obligations.BadAccessesAnswerError : Prop :=
  ∀ (s : State) (i : Issued) (width off : Nat), (i.txn = .read width off ∨ ∃ v, i.txn = .write width off v) →
    ((width ≠ 32 ∨ off % 4 ≠ 0 ∨ 0x1000 ≤ off ∧ off < 0x10000 ∨ 0x10000 + 65536 ≤ off) →
        perform Config.params s i = { s with replies := ⟨i.host, i.txn, .error⟩ :: s.replies }) ∧
      (¬ (width ≠ 32 ∨ off % 4 ≠ 0 ∨ 0x1000 ≤ off ∧ off < 0x10000 ∨ 0x10000 + 65536 ≤ off) →
        ∃ (t : State) (a : Answer), perform Config.params s i = answer t i a ∧ a ≠ .error)

/-- 20_memory.md R89: a read changes nothing of the block: only the answer and the model's count of free values (assumption log 5). -/
def Obligations.ReadsChangeNothing : Prop :=
  ∀ (s : State) (host width off : Nat), ∃ (a : Answer) (d : Nat),
    perform Config.params s ⟨host, .read width off⟩ =
        { s with replies := ⟨host, .read width off, a⟩ :: s.replies, draws := d } ∧
      s.draws ≤ d

/-- 20_memory.md R81, R84: while idle, the word written at RAM offset a is little-endian in the bytes a .. a+3, no other byte changes,
and a read of it answers the same word. To hold the word w at offset a (`holdsWord`) is to have the bytes of w at a .. a+3. -/
def Obligations.RamWordsAreLittleEndian : Prop :=
  (∀ (m : Ram) (a : Nat) (w : Word),
      holdsWord m a w ↔
        Ram.read m a = some (w.extractLsb' 0 8) ∧ Ram.read m (a + 1) = some (w.extractLsb' 8 8) ∧
          Ram.read m (a + 2) = some (w.extractLsb' 16 8) ∧ Ram.read m (a + 3) = some (w.extractLsb' 24 8)) ∧
    ∀ (s : State) (host a : Nat) (v : Word), a % 4 = 0 → a + 4 ≤ 65536 →
      ∃ m : Ram,
        perform Config.params s ⟨host, .write 32 (0x10000 + a) v⟩ =
            { s with ram := m, replies := ⟨host, .write 32 (0x10000 + a) v, .ok⟩ :: s.replies } ∧
          Ram.read m a = some (v.extractLsb' 0 8) ∧ Ram.read m (a + 1) = some (v.extractLsb' 8 8) ∧
          Ram.read m (a + 2) = some (v.extractLsb' 16 8) ∧ Ram.read m (a + 3) = some (v.extractLsb' 24 8) ∧
          sameOutside (a, 4) s.ram m ∧
          (performRead Config.params { s with ram := m } 32 (0x10000 + a)).2 = .okData v

/-- 20_memory.md R90: a read of four bytes nothing has written answers four fresh free values, and uses them up. That a used value is
not used again is the model's form of a free draw (assumption log 5). -/
def Obligations.UnwrittenRamReadsAreFreeDraws : Prop :=
  ∀ (s : State) (a : Nat), a % 4 = 0 → a + 4 ≤ 65536 →
    (∀ x, inRegion (a, 4) x → Ram.read s.ram x = none) →
    performRead Config.params s 32 (0x10000 + a) =
      ({ s with draws := s.draws + 4 },
        .okData (Config.freeByte (s.draws + 3) ++ Config.freeByte (s.draws + 2) ++ Config.freeByte (s.draws + 1) ++
          Config.freeByte s.draws))

/-- 20_memory.md R81, R82, R83, R87, R88, 40_control.md R138. (0) A transaction reaches the sample RAM exactly when it is 32 bits wide, at
a multiple of 4, and at an offset from 0x10000 to 0x1FFFF. (1) A transaction that is next reaches the block in one step, and where its host is
not stalled and the block is idle it is performed wholly. (2) While a command is pending a sample-RAM access holds, and a register
access of a host that is not stalled is performed at once. (3) A transaction of a host that holds waits behind it. (4) While a
command is pending no step answers a sample-RAM access or releases one that holds. Waiting transactions as lists in State, and that
what is released goes before the next event, are the model's own (assumption log 1 and 3). -/
def Obligations.RamAccessHoldsWhileBusy : Prop :=
  (∀ (width off : Nat) (v : Word),
      (reachesRam Config.params (.read width off) = true ↔
        width = 32 ∧ off % 4 = 0 ∧ 0x10000 ≤ off ∧ off < 0x20000) ∧
      (reachesRam Config.params (.write width off v) = true ↔
        width = 32 ∧ off % 4 = 0 ∧ 0x10000 ≤ off ∧ off < 0x20000)) ∧
    (∀ (s : State) (i : Issued) (es : List Event), s.rstN = true → released s = none → s.schedule = .bus i :: es →
      step s = .next (issue Config.params { s with schedule := es } i)) ∧
    (∀ (s : State) (i : Issued), (∀ j ∈ s.held, j.host ≠ i.host) → (∀ j ∈ s.queued, j.host ≠ i.host) →
      (s.pending = none → issue Config.params s i = perform Config.params s i) ∧
        (s.pending.isSome = true → reachesRam Config.params i.txn = true →
          issue Config.params s i = { s with held := s.held ++ [i] }) ∧
        (reachesRam Config.params i.txn = false → issue Config.params s i = perform Config.params s i)) ∧
    (∀ (s : State) (i j : Issued), j ∈ s.held ∨ j ∈ s.queued → j.host = i.host →
      issue Config.params s i = { s with queued := s.queued ++ [i] }) ∧
    ∀ s t : State, s.pending.isSome = true → step s = .next t →
      (t.held = s.held ∨ ∃ i, t.held = s.held ++ [i]) ∧
        (t.replies = s.replies ∨
          ∃ (r : Reply), t.replies = r :: s.replies ∧ reachesRam Config.params r.txn = false) ∧
        ∀ i u, released s = some (i, u) → u.held = s.held

/-- 20_memory.md R87: the accesses that hold act after the completion, on the RAM as the command leaves it: the steps after the
engine's perform every one of them. And 40_control.md R138, each host's transactions happen in its issue order: what a step
releases is, once BUSY = 0, the oldest access that holds, and else the first queued transaction of a host that does not hold;
the step takes exactly it from its list and brings it to the block, where it is performed or, as a sample-RAM access while a
command is pending, holds; nothing is released exactly where there is none, or while `rst_n` is low. That they act oldest first and before any other outside event is the model's choice (assumption log 3, 4). -/
def Obligations.HeldAccessActsAfterCompletion : Prop :=
  (∀ s : State, released s = none ↔
      s.rstN = false ∨
        (s.held = [] ∨ s.pending.isSome = true) ∧ ∀ j ∈ s.queued, ∃ h ∈ s.held, h.host = j.host) ∧
    (∀ (s u : State) (i : Issued), released s = some (i, u) →
        step s = .next (receive Config.params u i) ∧
          ((s.pending = none ∧ ∃ rest, s.held = i :: rest ∧ u = { s with held := rest }) ∨
            ((s.held = [] ∨ s.pending.isSome = true) ∧
              ∃ before after, s.queued = before ++ i :: after ∧ (∀ j ∈ before, ∃ h ∈ s.held, h.host = j.host) ∧
                (∀ h ∈ s.held, h.host ≠ i.host) ∧ u = { s with queued := before ++ after }))) ∧
    (∀ (s : State) (i : Issued),
      (s.pending = none ∨ reachesRam Config.params i.txn = false →
          receive Config.params s i = perform Config.params s i) ∧
        (s.pending.isSome = true → reachesRam Config.params i.txn = true →
          receive Config.params s i = { s with held := s.held ++ [i] })) ∧
    ∀ (s t : State) (w : Word) (es : List Event),
      s.rstN = true → s.pending = some w → s.schedule = .engine :: es → released s = none →
      (∀ i ∈ s.held, reachesRam Config.params i.txn = true) → execWord w { s with schedule := es } = .next t →
      step s = .next t ∧ t.held = s.held ∧
        Sys2Proof.core.run s.held.length t = .next (heldServed Config.params t) ∧
        (heldServed Config.params t).held = [] ∧ (heldServed Config.params t).pending = none

/-- 20_memory.md R95, 40_control.md R133: no step changes an operand register while a command is pending, unless it resets the block. -/
def Obligations.OperandsAreFixedWhileBusy : Prop :=
  ∀ s t : State, s.pending.isSome = true → step s = .next t → SameOperands s t ∨ registersAtReset t

/-- 60_exceptions.md R311: the block cannot tell hosts apart: the same transaction has the same effect and the same answer whatever host
issues it. Only the number of the host in the list of answers, the model's own, differs. -/
def Obligations.HostsAreIndistinguishable : Prop :=
  ∀ (s : State) (h h' : Nat) (t : Txn),
    withoutHosts (perform Config.params s ⟨h, t⟩) = withoutHosts (perform Config.params s ⟨h', t⟩) ∧
      ∃ a, (perform Config.params s ⟨h, t⟩).replies = ⟨h, t, a⟩ :: s.replies ∧
        (perform Config.params s ⟨h', t⟩).replies = ⟨h', t, a⟩ :: s.replies

/-- 60_exceptions.md R306: the interrupt is IRQ_EN ∧ DONE (with `rst_n` high, 70_reset_and_hazards.md R400), so the completion of any
command raises it exactly when it is enabled, acceptance drops it, so do a STATUS write with bit 1 = 1 and a reset, and a read
does not. -/
def Obligations.InterruptFollowsCompletion : Prop :=
  (∀ (w : Word) (s t : State), s.rstN = true → execWord w s = .next t → irq t = s.irqEn) ∧
    (∀ (s : State) (w : Word), irq (accept s w) = false) ∧
    (∀ (s : State) (v : Word), v.getLsbD 1 = true → irq (writeStatus s v) = false) ∧
    (∀ s : State, irq (softReset Config.params s) = false) ∧
    (∀ (s : State) (host width off : Nat), irq (perform Config.params s ⟨host, .read width off⟩) = irq s) ∧
    ∀ s : State, s.rstN = true → irq s = (s.irqEn && s.done)

/-! ### Reset -/

/-- 70_reset_and_hazards.md R401, 10_state.md R64: what every register of the window reads after reset. -/
def Obligations.ResetRegistersRead : Prop :=
  (∀ off, readWindow State.reset off =
      if off = 0x000 then 0x4E434F31#32 else if off = 0x004 then 0x00010000#32
      else if off = 0x0DC then 0x3FF00000#32 else 0#32) ∧
    State.reset.pending = none ∧ irq State.reset = false ∧ ∀ a, Ram.read State.reset.ram a = none

/-- 70_reset_and_hazards.md R402: dest(w) for every command word (for RSSI_RUN with M = 0, which its rule leaves out, no byte), and the
soft reset: every register and state field at its reset value, no command pending, each destination byte of an aborted command
inside the RAM a free value of its own, every other byte kept, and every access that was holding released: the next steps perform
them all on the RAM as it then stands. That each free value is used once is the model's form of a free draw (assumption log 6), and
that the accesses act oldest first and before any other event is the model's choice (assumption log 3). -/
def Obligations.SoftResetAbortsAndResets : Prop :=
  (∀ s : State,
      destRegion s (encode .ncoProduce) = (s.ncoDst.toNat, 8 * s.nco.chunk.toNat) ∧
        (1 ≤ s.rssiDecim.toNat → destRegion s (encode .rssiRun) =
          (s.rssiDst.toNat, 4 * ((s.rssiLen.toNat + s.rssiDecim.toNat - 1) / s.rssiDecim.toNat))) ∧
        (s.rssiDecim.toNat = 0 → ∀ x, ¬ inRegion (destRegion s (encode .rssiRun)) x) ∧
        destRegion s (encode .noiseApply) = (s.noiseDst.toNat, 8 * s.noiseLen.toNat) ∧
        ∀ w, w ≠ encode .ncoProduce → w ≠ encode .rssiRun → w ≠ encode .noiseApply →
          ∀ x, ¬ inRegion (destRegion s w) x) ∧
    ∀ (s : State) (host : Nat) (v : Word), v.getLsbD 1 = true →
      ∃ (m : Ram) (d : Nat) (t : State),
        perform Config.params s ⟨host, .write 32 0x008 v⟩ = t ∧
          t = { State.reset with
              ram := m, draws := d, rstN := s.rstN, held := s.held, queued := s.queued, schedule := s.schedule
              replies := ⟨host, .write 32 0x008 v, .ok⟩ :: s.replies } ∧
          (s.pending = none → m = s.ram ∧ d = s.draws) ∧
          (s.rstN = true → (∀ i ∈ s.held, reachesRam Config.params i.txn = true) →
            Sys2Proof.core.run s.held.length t = .next (heldServed Config.params t) ∧
              (heldServed Config.params t).held = [] ∧ (heldServed Config.params t).pending = none) ∧
          ∀ w, s.pending = some w →
            (∀ x, inRegion (destRegion s w) x → x < 65536 →
                Ram.read m x = some (Config.freeByte (s.draws + (x - (destRegion s w).1)))) ∧
              ∀ x, ¬ (inRegion (destRegion s w) x ∧ x < 65536) → Ram.read m x = Ram.read s.ram x

/-- 70_reset_and_hazards.md R400, R401: `rst_n` going low resets the block and drives irq = 0, keeping every RAM byte outside the
destination of a pending command; while it is low a bus transaction is refused; when it returns high nothing else changes. A power
cycle loses everything, the RAM included (60_exceptions.md R316). That waiting transactions go on waiting across both, and that
power returns with `rst_n` low, is the model's choice (assumption log 4 and 15). -/
def Obligations.HardwareResetResets : Prop :=
  ∀ (s : State) (es : List Event), released s = none →
    (s.schedule = .resetLow :: es →
        ∃ (m : Ram) (d : Nat),
          step s = .next { State.reset with
              ram := m, draws := d, rstN := false, held := s.held, queued := s.queued, schedule := es
              replies := s.replies } ∧
            (s.pending = none → m = s.ram) ∧
            (∀ w, s.pending = some w → sameOutside (destRegion s w) s.ram m) ∧
            ∀ t : State, t.rstN = false → irq t = false) ∧
      (∀ i, s.rstN = false → s.schedule = .bus i :: es → step s = .refused (.busWhileReset i.host)) ∧
      (s.schedule = .resetHigh :: es → step s = .next { s with rstN := true, schedule := es }) ∧
      (s.schedule = .powerCycle :: es →
        step s = .next { State.reset with
          ram := [], draws := s.draws, rstN := false, held := s.held, queued := s.queued, schedule := es
          replies := s.replies })

/-! ### The invariant -/

/-- Sys2Proof.Safety.BlockInvariant holds after reset, on every choice of the parameters (00_scope.md R5). -/
def Obligations.ResetStateIsWellFormed : Prop := ∀ p : Params, BlockInvariant p State.reset

/-- Every step keeps Sys2Proof.Safety.BlockInvariant, on every legal choice of the parameters (00_scope.md R5) and so on the default
ones: the RAM stays in its canonical form and inside 0 .. SRAM_BYTES-1 (20_memory.md R81), the live oscillator stays as 10_state.md R60
and 41_nco.md R151 and R164 leave it, NOISE_VAR stays finite, CMD names the pending word, BUSY and DONE are never 1 together, the
block is idle while `rst_n` is low, and only sample-RAM accesses hold, one a host (20_memory.md R82, R87, R88). -/
def Obligations.EveryStepKeepsTheInvariant : Prop :=
  (∀ (p : Params) (s t : State), p.wellFormed = true → BlockInvariant p s → stepOn p s = .next t → BlockInvariant p t) ∧
    ∀ s t : State, BlockInvariant Config.params s → step s = .next t → BlockInvariant Config.params t
end

