-- ==== Sys2Proof/Laws/Ram.lean ====
section
/-! SUPPORT. The laws of the sample RAM: reading back a written byte, every other byte unchanged, the canonical form and the bound on
offsets kept by every operation. -/

namespace Sys2Proof.Machine

/-! ### One byte -/

theorem Ram.read_write_same (m : Ram) (a : Nat) (b : Byte) : Ram.read (Ram.write m a b) a = some b := by
  induction m with
  | nil => simp [Ram.write, Ram.read]
  | cons c m ih =>
    unfold Ram.write
    split
    · simp [Ram.read]
    · split
      · simp [Ram.read]
      · rename_i hne
        simp [Ram.read, Ne.symm hne, ih]

theorem Ram.read_write_other (m : Ram) (a x : Nat) (b : Byte) (h : x ≠ a) :
    Ram.read (Ram.write m a b) x = Ram.read m x := by
  induction m with
  | nil => simp [Ram.write, Ram.read, Ne.symm h]
  | cons c m ih =>
    unfold Ram.write
    split
    · simp [Ram.read, Ne.symm h]
    · split
      · rename_i heq
        simp [Ram.read, Ne.symm h, ← heq]
      · simp [Ram.read, ih]

theorem Ram.read_write (m : Ram) (a x : Nat) (b : Byte) :
    Ram.read (Ram.write m a b) x = if x = a then some b else Ram.read m x := by
  split
  · rename_i h
    rw [h, Ram.read_write_same]
  · rename_i h
    exact Ram.read_write_other m a x b h

/-! ### The canonical form -/

theorem Ram.risingFrom_write (m : Ram) (low a : Nat) (b : Byte) (hm : Ram.risingFrom low m = true) (ha : low ≤ a) :
    Ram.risingFrom low (Ram.write m a b) = true := by
  induction m generalizing low with
  | nil => simp [Ram.write, Ram.risingFrom, ha]
  | cons c m ih =>
    simp only [Ram.risingFrom, Bool.and_eq_true, decide_eq_true_eq] at hm
    unfold Ram.write
    split
    · rename_i hlt
      simp only [Ram.risingFrom, Bool.and_eq_true, decide_eq_true_eq]
      exact ⟨ha, hlt, hm.2⟩
    · split
      · rename_i heq
        simp only [Ram.risingFrom, Bool.and_eq_true, decide_eq_true_eq]
        exact ⟨ha, heq ▸ hm.2⟩
      · simp only [Ram.risingFrom, Bool.and_eq_true, decide_eq_true_eq]
        exact ⟨hm.1, ih (c.1 + 1) hm.2 (by omega)⟩

theorem Ram.wf_write (m : Ram) (a : Nat) (b : Byte) (hm : Ram.wf m = true) : Ram.wf (Ram.write m a b) = true :=
  Ram.risingFrom_write m 0 a b hm (Nat.zero_le a)

theorem Ram.below_write (n : Nat) (m : Ram) (a : Nat) (b : Byte) (hm : Ram.below n m = true) (ha : a < n) :
    Ram.below n (Ram.write m a b) = true := by
  induction m with
  | nil => simp [Ram.write, Ram.below, ha]
  | cons c m ih =>
    simp only [Ram.below, List.all_cons, Bool.and_eq_true, decide_eq_true_eq] at hm ih ⊢
    unfold Ram.write
    split
    · simp only [List.all_cons, Bool.and_eq_true, decide_eq_true_eq]
      exact ⟨ha, hm⟩
    · split
      · simp only [List.all_cons, Bool.and_eq_true, decide_eq_true_eq]
        exact ⟨ha, hm.2⟩
      · simp only [List.all_cons, Bool.and_eq_true, decide_eq_true_eq]
        exact ⟨hm.1, ih hm.2⟩

/-! ### Words -/

theorem Ram.wf_writeWord (m : Ram) (a : Nat) (w : Word) (hm : Ram.wf m = true) : Ram.wf (Ram.writeWord m a w) = true :=
  Ram.wf_write _ _ _ (Ram.wf_write _ _ _ (Ram.wf_write _ _ _ (Ram.wf_write _ _ _ hm)))

theorem Ram.below_writeWord (n : Nat) (m : Ram) (a : Nat) (w : Word) (hm : Ram.below n m = true) (ha : a + 4 ≤ n) :
    Ram.below n (Ram.writeWord m a w) = true := by
  unfold Ram.writeWord
  exact Ram.below_write _ _ _ _ (Ram.below_write _ _ _ _ (Ram.below_write _ _ _ _
    (Ram.below_write _ _ _ _ hm (by omega)) (by omega)) (by omega)) (by omega)

theorem Ram.read_writeWord_other (m : Ram) (a x : Nat) (w : Word) (h : x < a ∨ a + 4 ≤ x) :
    Ram.read (Ram.writeWord m a w) x = Ram.read m x := by
  unfold Ram.writeWord
  rw [Ram.read_write_other _ _ _ _ (by omega), Ram.read_write_other _ _ _ _ (by omega),
    Ram.read_write_other _ _ _ _ (by omega), Ram.read_write_other _ _ _ _ (by omega)]

/-- What a word write leaves at any byte. -/
theorem Ram.read_writeWord (m : Ram) (a x : Nat) (w : Word) :
    Ram.read (Ram.writeWord m a w) x =
      if x = a then some (w.extractLsb' 0 8)
      else if x = a + 1 then some (w.extractLsb' 8 8)
      else if x = a + 2 then some (w.extractLsb' 16 8)
      else if x = a + 3 then some (w.extractLsb' 24 8)
      else Ram.read m x := by
  simp only [Ram.writeWord, Ram.read_write]
  by_cases h0 : x = a <;> by_cases h1 : x = a + 1 <;> by_cases h2 : x = a + 2 <;> by_cases h3 : x = a + 3 <;>
    simp_all

theorem Ram.wf_writeWords (ws : List Word) (m : Ram) (a : Nat) (hm : Ram.wf m = true) :
    Ram.wf (Ram.writeWords m a ws) = true := by
  induction ws generalizing m a with
  | nil => exact hm
  | cons w ws ih => exact ih _ _ (Ram.wf_writeWord m a w hm)

theorem Ram.below_writeWords (n : Nat) (ws : List Word) (m : Ram) (a : Nat) (hm : Ram.below n m = true)
    (ha : a + 4 * ws.length ≤ n) : Ram.below n (Ram.writeWords m a ws) = true := by
  induction ws generalizing m a with
  | nil => exact hm
  | cons w ws ih =>
    simp only [List.length_cons] at ha
    exact ih _ _ (Ram.below_writeWord n m a w hm (by omega)) (by omega)

/-- A store of words changes no byte outside the bytes it names. -/
theorem Ram.read_writeWords_other (ws : List Word) (m : Ram) (a x : Nat) (h : x < a ∨ a + 4 * ws.length ≤ x) :
    Ram.read (Ram.writeWords m a ws) x = Ram.read m x := by
  induction ws generalizing m a with
  | nil => rfl
  | cons w ws ih =>
    simp only [List.length_cons] at h
    unfold Ram.writeWords
    rw [ih _ _ (by omega), Ram.read_writeWord_other _ _ _ _ (by omega)]

/-- What storeWords can do: it answers the RAM with exactly these words written, all inside the RAM. -/
theorem storeWords_ok {p : Params} {m m' : Ram} {a : Nat} {ws : List Word} (h : storeWords p m a ws = .ok m') :
    a + 4 * ws.length ≤ p.sramBytes ∧ m' = Ram.writeWords m a ws := by
  unfold storeWords at h
  split at h
  · rename_i hle
    exact ⟨hle, by cases h; rfl⟩
  · cases h

/-- What loadSamples can do: it answers the samples read in order, all inside the RAM. -/
theorem loadSamples_ok {p : Params} {s : State} {a n : Nat} {r : List (F32 × F32) × Nat}
    (h : loadSamples p s a n = .ok r) : a + 8 * n ≤ p.sramBytes ∧ r = drawSamples s.ram s.draws a n := by
  unfold loadSamples at h
  split at h
  · rename_i hle
    exact ⟨hle, by cases h; rfl⟩
  · cases h

@[simp] theorem sampleWords_length (xs : List (F32 × F32)) : (sampleWords xs).length = 2 * xs.length := by
  induction xs with
  | nil => rfl
  | cons x xs ih => simp only [sampleWords, List.length_cons, ih]; omega

@[simp] theorem drawSamples_length (m : Ram) (d a n : Nat) : (drawSamples m d a n).1.length = n := by
  induction n generalizing d a with
  | zero => rfl
  | succ n ih => simp [drawSamples, ih]

/-! ### Free draws -/

theorem drawByte_of_some {m : Ram} {a : Nat} {b : Byte} (d : Nat) (h : Ram.read m a = some b) :
    drawByte m d a = (b, d) := by
  simp [drawByte, h]

theorem drawByte_of_none {m : Ram} {a : Nat} (d : Nat) (h : Ram.read m a = none) :
    drawByte m d a = (Config.freeByte d, d + 1) := by
  simp [drawByte, h]

/-- Reads only use free values up. -/
theorem drawByte_draws_le (m : Ram) (d a : Nat) : d ≤ (drawByte m d a).2 := by
  unfold drawByte
  split <;> simp

theorem drawWord_draws_le (m : Ram) (d a : Nat) : d ≤ (drawWord m d a).2 :=
  (drawByte_draws_le m d a).trans ((drawByte_draws_le m _ _).trans
    ((drawByte_draws_le m _ _).trans (drawByte_draws_le m _ _)))

theorem drawSamples_draws_le (m : Ram) (d a n : Nat) : d ≤ (drawSamples m d a n).2 := by
  induction n generalizing d a with
  | zero => exact Nat.le_refl d
  | succ n ih =>
    exact ((drawWord_draws_le m d a).trans (drawWord_draws_le m _ (a + 4))).trans (ih _ _)

theorem scramble_wf (n : Nat) (m : Ram) (d a : Nat) (hm : Ram.wf m = true) : Ram.wf (scramble m d a n).1 = true := by
  induction n generalizing m d a with
  | zero => exact hm
  | succ n ih => exact ih _ _ _ (Ram.wf_write m a _ hm)

theorem scramble_below (k n : Nat) (m : Ram) (d a : Nat) (hm : Ram.below k m = true) (ha : a + n ≤ k) :
    Ram.below k (scramble m d a n).1 = true := by
  induction n generalizing m d a with
  | zero => exact hm
  | succ n ih => exact ih _ _ _ (Ram.below_write k m a _ hm (by omega)) (by omega)

theorem scramble_read_other (n : Nat) (m : Ram) (d a x : Nat) (h : x < a ∨ a + n ≤ x) :
    Ram.read (scramble m d a n).1 x = Ram.read m x := by
  induction n generalizing m d a with
  | zero => rfl
  | succ n ih =>
    unfold scramble
    rw [ih _ _ _ (by omega), Ram.read_write_other _ _ _ _ (by omega)]

theorem scramble_draws (n : Nat) (m : Ram) (d a : Nat) : (scramble m d a n).2 = d + n := by
  induction n generalizing m d a with
  | zero => rfl
  | succ n ih => unfold scramble; rw [ih]; omega

end Sys2Proof.Machine
end

