-- ==== Sys2Proof/Laws/State.lean ====
section
/-! SUPPORT. One lemma per field for each shared update of the state, true by definition, so that no later proof unfolds a
record update. -/

namespace Sys2Proof.Machine

/-! ### The parameters the machine runs with -/

@[simp] theorem params_blockBase : Config.params.blockBase = Config.blockBase := rfl
@[simp] theorem params_sramBytes : Config.params.sramBytes = 65536 := rfl
@[simp] theorem params_rssiMaxDecim : Config.params.rssiMaxDecim = 16 := rfl
@[simp] theorem params_rssiPFloor : Config.params.rssiPFloor = 0x2D50000000000000#64 := rfl
@[simp] theorem params_rssiCoef : Config.params.rssiCoef = Taps.defaultCoef := rfl
@[simp] theorem params_num : Config.params.num = Config.num := rfl

/-! ### The whole of an update's effect on the flags -/

@[simp] theorem busy_accept (s : State) (w : Word) : busy (accept s w) = true := rfl
@[simp] theorem busy_complete (s : State) (c : ErrCode) : busy (complete s c) = false := rfl
@[simp] theorem busy_answer (s : State) (i : Issued) (a : Answer) : busy (answer s i a) = busy s := rfl
@[simp] theorem busy_resetRegisters (s : State) : busy (resetRegisters s) = false := rfl

/-! ### `complete` -/

@[simp] theorem complete_irqEn (s : State) (c : ErrCode) : (complete s c).irqEn = s.irqEn := rfl
@[simp] theorem complete_done (s : State) (c : ErrCode) : (complete s c).done = true := rfl
@[simp] theorem complete_busyViol (s : State) (c : ErrCode) : (complete s c).busyViol = s.busyViol := rfl
@[simp] theorem complete_err (s : State) (c : ErrCode) : (complete s c).err = c := rfl
@[simp] theorem complete_cmd (s : State) (c : ErrCode) : (complete s c).cmd = s.cmd := rfl
@[simp] theorem complete_ncoAmp (s : State) (c : ErrCode) : (complete s c).ncoAmp = s.ncoAmp := rfl
@[simp] theorem complete_ncoFreq (s : State) (c : ErrCode) : (complete s c).ncoFreq = s.ncoFreq := rfl
@[simp] theorem complete_ncoRate (s : State) (c : ErrCode) : (complete s c).ncoRate = s.ncoRate := rfl
@[simp] theorem complete_ncoChunk (s : State) (c : ErrCode) : (complete s c).ncoChunk = s.ncoChunk := rfl
@[simp] theorem complete_ncoDst (s : State) (c : ErrCode) : (complete s c).ncoDst = s.ncoDst := rfl
@[simp] theorem complete_nco (s : State) (c : ErrCode) : (complete s c).nco = s.nco := rfl
@[simp] theorem complete_rssiSrc (s : State) (c : ErrCode) : (complete s c).rssiSrc = s.rssiSrc := rfl
@[simp] theorem complete_rssiLen (s : State) (c : ErrCode) : (complete s c).rssiLen = s.rssiLen := rfl
@[simp] theorem complete_rssiDst (s : State) (c : ErrCode) : (complete s c).rssiDst = s.rssiDst := rfl
@[simp] theorem complete_rssiDecim (s : State) (c : ErrCode) : (complete s c).rssiDecim = s.rssiDecim := rfl
@[simp] theorem complete_rssiGain (s : State) (c : ErrCode) : (complete s c).rssiGain = s.rssiGain := rfl
@[simp] theorem complete_rssiMerr (s : State) (c : ErrCode) : (complete s c).rssiMerr = s.rssiMerr := rfl
@[simp] theorem complete_rssiOutlen (s : State) (c : ErrCode) : (complete s c).rssiOutlen = s.rssiOutlen := rfl
@[simp] theorem complete_noiseSrc (s : State) (c : ErrCode) : (complete s c).noiseSrc = s.noiseSrc := rfl
@[simp] theorem complete_noiseLen (s : State) (c : ErrCode) : (complete s c).noiseLen = s.noiseLen := rfl
@[simp] theorem complete_noiseDst (s : State) (c : ErrCode) : (complete s c).noiseDst = s.noiseDst := rfl
@[simp] theorem complete_noiseSnr (s : State) (c : ErrCode) : (complete s c).noiseSnr = s.noiseSnr := rfl
@[simp] theorem complete_noiseRate (s : State) (c : ErrCode) : (complete s c).noiseRate = s.noiseRate := rfl
@[simp] theorem complete_noiseSeed (s : State) (c : ErrCode) : (complete s c).noiseSeed = s.noiseSeed := rfl
@[simp] theorem complete_prng (s : State) (c : ErrCode) : (complete s c).prng = s.prng := rfl
@[simp] theorem complete_noiseVar (s : State) (c : ErrCode) : (complete s c).noiseVar = s.noiseVar := rfl
@[simp] theorem complete_pending (s : State) (c : ErrCode) : (complete s c).pending = none := rfl
@[simp] theorem complete_ram (s : State) (c : ErrCode) : (complete s c).ram = s.ram := rfl
@[simp] theorem complete_rstN (s : State) (c : ErrCode) : (complete s c).rstN = s.rstN := rfl
@[simp] theorem complete_held (s : State) (c : ErrCode) : (complete s c).held = s.held := rfl
@[simp] theorem complete_queued (s : State) (c : ErrCode) : (complete s c).queued = s.queued := rfl
@[simp] theorem complete_schedule (s : State) (c : ErrCode) : (complete s c).schedule = s.schedule := rfl
@[simp] theorem complete_replies (s : State) (c : ErrCode) : (complete s c).replies = s.replies := rfl
@[simp] theorem complete_draws (s : State) (c : ErrCode) : (complete s c).draws = s.draws := rfl

/-! ### `accept` -/

@[simp] theorem accept_irqEn (s : State) (w : Word) : (accept s w).irqEn = s.irqEn := rfl
@[simp] theorem accept_done (s : State) (w : Word) : (accept s w).done = false := rfl
@[simp] theorem accept_busyViol (s : State) (w : Word) : (accept s w).busyViol = s.busyViol := rfl
@[simp] theorem accept_err (s : State) (w : Word) : (accept s w).err = s.err := rfl
@[simp] theorem accept_cmd (s : State) (w : Word) : (accept s w).cmd = w := rfl
@[simp] theorem accept_ncoAmp (s : State) (w : Word) : (accept s w).ncoAmp = s.ncoAmp := rfl
@[simp] theorem accept_ncoFreq (s : State) (w : Word) : (accept s w).ncoFreq = s.ncoFreq := rfl
@[simp] theorem accept_ncoRate (s : State) (w : Word) : (accept s w).ncoRate = s.ncoRate := rfl
@[simp] theorem accept_ncoChunk (s : State) (w : Word) : (accept s w).ncoChunk = s.ncoChunk := rfl
@[simp] theorem accept_ncoDst (s : State) (w : Word) : (accept s w).ncoDst = s.ncoDst := rfl
@[simp] theorem accept_nco (s : State) (w : Word) : (accept s w).nco = s.nco := rfl
@[simp] theorem accept_rssiSrc (s : State) (w : Word) : (accept s w).rssiSrc = s.rssiSrc := rfl
@[simp] theorem accept_rssiLen (s : State) (w : Word) : (accept s w).rssiLen = s.rssiLen := rfl
@[simp] theorem accept_rssiDst (s : State) (w : Word) : (accept s w).rssiDst = s.rssiDst := rfl
@[simp] theorem accept_rssiDecim (s : State) (w : Word) : (accept s w).rssiDecim = s.rssiDecim := rfl
@[simp] theorem accept_rssiGain (s : State) (w : Word) : (accept s w).rssiGain = s.rssiGain := rfl
@[simp] theorem accept_rssiMerr (s : State) (w : Word) : (accept s w).rssiMerr = s.rssiMerr := rfl
@[simp] theorem accept_rssiOutlen (s : State) (w : Word) : (accept s w).rssiOutlen = s.rssiOutlen := rfl
@[simp] theorem accept_noiseSrc (s : State) (w : Word) : (accept s w).noiseSrc = s.noiseSrc := rfl
@[simp] theorem accept_noiseLen (s : State) (w : Word) : (accept s w).noiseLen = s.noiseLen := rfl
@[simp] theorem accept_noiseDst (s : State) (w : Word) : (accept s w).noiseDst = s.noiseDst := rfl
@[simp] theorem accept_noiseSnr (s : State) (w : Word) : (accept s w).noiseSnr = s.noiseSnr := rfl
@[simp] theorem accept_noiseRate (s : State) (w : Word) : (accept s w).noiseRate = s.noiseRate := rfl
@[simp] theorem accept_noiseSeed (s : State) (w : Word) : (accept s w).noiseSeed = s.noiseSeed := rfl
@[simp] theorem accept_prng (s : State) (w : Word) : (accept s w).prng = s.prng := rfl
@[simp] theorem accept_noiseVar (s : State) (w : Word) : (accept s w).noiseVar = s.noiseVar := rfl
@[simp] theorem accept_pending (s : State) (w : Word) : (accept s w).pending = some w := rfl
@[simp] theorem accept_ram (s : State) (w : Word) : (accept s w).ram = s.ram := rfl
@[simp] theorem accept_rstN (s : State) (w : Word) : (accept s w).rstN = s.rstN := rfl
@[simp] theorem accept_held (s : State) (w : Word) : (accept s w).held = s.held := rfl
@[simp] theorem accept_queued (s : State) (w : Word) : (accept s w).queued = s.queued := rfl
@[simp] theorem accept_schedule (s : State) (w : Word) : (accept s w).schedule = s.schedule := rfl
@[simp] theorem accept_replies (s : State) (w : Word) : (accept s w).replies = s.replies := rfl
@[simp] theorem accept_draws (s : State) (w : Word) : (accept s w).draws = s.draws := rfl

/-! ### `answer` -/

@[simp] theorem answer_irqEn (s : State) (i : Issued) (a : Answer) : (answer s i a).irqEn = s.irqEn := rfl
@[simp] theorem answer_done (s : State) (i : Issued) (a : Answer) : (answer s i a).done = s.done := rfl
@[simp] theorem answer_busyViol (s : State) (i : Issued) (a : Answer) : (answer s i a).busyViol = s.busyViol := rfl
@[simp] theorem answer_err (s : State) (i : Issued) (a : Answer) : (answer s i a).err = s.err := rfl
@[simp] theorem answer_cmd (s : State) (i : Issued) (a : Answer) : (answer s i a).cmd = s.cmd := rfl
@[simp] theorem answer_ncoAmp (s : State) (i : Issued) (a : Answer) : (answer s i a).ncoAmp = s.ncoAmp := rfl
@[simp] theorem answer_ncoFreq (s : State) (i : Issued) (a : Answer) : (answer s i a).ncoFreq = s.ncoFreq := rfl
@[simp] theorem answer_ncoRate (s : State) (i : Issued) (a : Answer) : (answer s i a).ncoRate = s.ncoRate := rfl
@[simp] theorem answer_ncoChunk (s : State) (i : Issued) (a : Answer) : (answer s i a).ncoChunk = s.ncoChunk := rfl
@[simp] theorem answer_ncoDst (s : State) (i : Issued) (a : Answer) : (answer s i a).ncoDst = s.ncoDst := rfl
@[simp] theorem answer_nco (s : State) (i : Issued) (a : Answer) : (answer s i a).nco = s.nco := rfl
@[simp] theorem answer_rssiSrc (s : State) (i : Issued) (a : Answer) : (answer s i a).rssiSrc = s.rssiSrc := rfl
@[simp] theorem answer_rssiLen (s : State) (i : Issued) (a : Answer) : (answer s i a).rssiLen = s.rssiLen := rfl
@[simp] theorem answer_rssiDst (s : State) (i : Issued) (a : Answer) : (answer s i a).rssiDst = s.rssiDst := rfl
@[simp] theorem answer_rssiDecim (s : State) (i : Issued) (a : Answer) : (answer s i a).rssiDecim = s.rssiDecim := rfl
@[simp] theorem answer_rssiGain (s : State) (i : Issued) (a : Answer) : (answer s i a).rssiGain = s.rssiGain := rfl
@[simp] theorem answer_rssiMerr (s : State) (i : Issued) (a : Answer) : (answer s i a).rssiMerr = s.rssiMerr := rfl
@[simp] theorem answer_rssiOutlen (s : State) (i : Issued) (a : Answer) : (answer s i a).rssiOutlen = s.rssiOutlen := rfl
@[simp] theorem answer_noiseSrc (s : State) (i : Issued) (a : Answer) : (answer s i a).noiseSrc = s.noiseSrc := rfl
@[simp] theorem answer_noiseLen (s : State) (i : Issued) (a : Answer) : (answer s i a).noiseLen = s.noiseLen := rfl
@[simp] theorem answer_noiseDst (s : State) (i : Issued) (a : Answer) : (answer s i a).noiseDst = s.noiseDst := rfl
@[simp] theorem answer_noiseSnr (s : State) (i : Issued) (a : Answer) : (answer s i a).noiseSnr = s.noiseSnr := rfl
@[simp] theorem answer_noiseRate (s : State) (i : Issued) (a : Answer) : (answer s i a).noiseRate = s.noiseRate := rfl
@[simp] theorem answer_noiseSeed (s : State) (i : Issued) (a : Answer) : (answer s i a).noiseSeed = s.noiseSeed := rfl
@[simp] theorem answer_prng (s : State) (i : Issued) (a : Answer) : (answer s i a).prng = s.prng := rfl
@[simp] theorem answer_noiseVar (s : State) (i : Issued) (a : Answer) : (answer s i a).noiseVar = s.noiseVar := rfl
@[simp] theorem answer_pending (s : State) (i : Issued) (a : Answer) : (answer s i a).pending = s.pending := rfl
@[simp] theorem answer_ram (s : State) (i : Issued) (a : Answer) : (answer s i a).ram = s.ram := rfl
@[simp] theorem answer_rstN (s : State) (i : Issued) (a : Answer) : (answer s i a).rstN = s.rstN := rfl
@[simp] theorem answer_held (s : State) (i : Issued) (a : Answer) : (answer s i a).held = s.held := rfl
@[simp] theorem answer_queued (s : State) (i : Issued) (a : Answer) : (answer s i a).queued = s.queued := rfl
@[simp] theorem answer_schedule (s : State) (i : Issued) (a : Answer) : (answer s i a).schedule = s.schedule := rfl
@[simp] theorem answer_replies (s : State) (i : Issued) (a : Answer) : (answer s i a).replies = { host := i.host, txn := i.txn, answer := a } :: s.replies := rfl
@[simp] theorem answer_draws (s : State) (i : Issued) (a : Answer) : (answer s i a).draws = s.draws := rfl

/-! ### `writeStatus` -/

@[simp] theorem writeStatus_irqEn (s : State) (v : Word) : (writeStatus s v).irqEn = s.irqEn := rfl
@[simp] theorem writeStatus_done (s : State) (v : Word) : (writeStatus s v).done = (s.done && !v.getLsbD 1) := rfl
@[simp] theorem writeStatus_busyViol (s : State) (v : Word) : (writeStatus s v).busyViol = (s.busyViol && !v.getLsbD 2) := rfl
@[simp] theorem writeStatus_err (s : State) (v : Word) : (writeStatus s v).err = s.err := rfl
@[simp] theorem writeStatus_cmd (s : State) (v : Word) : (writeStatus s v).cmd = s.cmd := rfl
@[simp] theorem writeStatus_ncoAmp (s : State) (v : Word) : (writeStatus s v).ncoAmp = s.ncoAmp := rfl
@[simp] theorem writeStatus_ncoFreq (s : State) (v : Word) : (writeStatus s v).ncoFreq = s.ncoFreq := rfl
@[simp] theorem writeStatus_ncoRate (s : State) (v : Word) : (writeStatus s v).ncoRate = s.ncoRate := rfl
@[simp] theorem writeStatus_ncoChunk (s : State) (v : Word) : (writeStatus s v).ncoChunk = s.ncoChunk := rfl
@[simp] theorem writeStatus_ncoDst (s : State) (v : Word) : (writeStatus s v).ncoDst = s.ncoDst := rfl
@[simp] theorem writeStatus_nco (s : State) (v : Word) : (writeStatus s v).nco = s.nco := rfl
@[simp] theorem writeStatus_rssiSrc (s : State) (v : Word) : (writeStatus s v).rssiSrc = s.rssiSrc := rfl
@[simp] theorem writeStatus_rssiLen (s : State) (v : Word) : (writeStatus s v).rssiLen = s.rssiLen := rfl
@[simp] theorem writeStatus_rssiDst (s : State) (v : Word) : (writeStatus s v).rssiDst = s.rssiDst := rfl
@[simp] theorem writeStatus_rssiDecim (s : State) (v : Word) : (writeStatus s v).rssiDecim = s.rssiDecim := rfl
@[simp] theorem writeStatus_rssiGain (s : State) (v : Word) : (writeStatus s v).rssiGain = s.rssiGain := rfl
@[simp] theorem writeStatus_rssiMerr (s : State) (v : Word) : (writeStatus s v).rssiMerr = s.rssiMerr := rfl
@[simp] theorem writeStatus_rssiOutlen (s : State) (v : Word) : (writeStatus s v).rssiOutlen = s.rssiOutlen := rfl
@[simp] theorem writeStatus_noiseSrc (s : State) (v : Word) : (writeStatus s v).noiseSrc = s.noiseSrc := rfl
@[simp] theorem writeStatus_noiseLen (s : State) (v : Word) : (writeStatus s v).noiseLen = s.noiseLen := rfl
@[simp] theorem writeStatus_noiseDst (s : State) (v : Word) : (writeStatus s v).noiseDst = s.noiseDst := rfl
@[simp] theorem writeStatus_noiseSnr (s : State) (v : Word) : (writeStatus s v).noiseSnr = s.noiseSnr := rfl
@[simp] theorem writeStatus_noiseRate (s : State) (v : Word) : (writeStatus s v).noiseRate = s.noiseRate := rfl
@[simp] theorem writeStatus_noiseSeed (s : State) (v : Word) : (writeStatus s v).noiseSeed = s.noiseSeed := rfl
@[simp] theorem writeStatus_prng (s : State) (v : Word) : (writeStatus s v).prng = s.prng := rfl
@[simp] theorem writeStatus_noiseVar (s : State) (v : Word) : (writeStatus s v).noiseVar = s.noiseVar := rfl
@[simp] theorem writeStatus_pending (s : State) (v : Word) : (writeStatus s v).pending = s.pending := rfl
@[simp] theorem writeStatus_ram (s : State) (v : Word) : (writeStatus s v).ram = s.ram := rfl
@[simp] theorem writeStatus_rstN (s : State) (v : Word) : (writeStatus s v).rstN = s.rstN := rfl
@[simp] theorem writeStatus_held (s : State) (v : Word) : (writeStatus s v).held = s.held := rfl
@[simp] theorem writeStatus_queued (s : State) (v : Word) : (writeStatus s v).queued = s.queued := rfl
@[simp] theorem writeStatus_schedule (s : State) (v : Word) : (writeStatus s v).schedule = s.schedule := rfl
@[simp] theorem writeStatus_replies (s : State) (v : Word) : (writeStatus s v).replies = s.replies := rfl
@[simp] theorem writeStatus_draws (s : State) (v : Word) : (writeStatus s v).draws = s.draws := rfl

/-! ### `releaseReset` -/

@[simp] theorem releaseReset_irqEn (s : State) : (releaseReset s).irqEn = s.irqEn := rfl
@[simp] theorem releaseReset_done (s : State) : (releaseReset s).done = s.done := rfl
@[simp] theorem releaseReset_busyViol (s : State) : (releaseReset s).busyViol = s.busyViol := rfl
@[simp] theorem releaseReset_err (s : State) : (releaseReset s).err = s.err := rfl
@[simp] theorem releaseReset_cmd (s : State) : (releaseReset s).cmd = s.cmd := rfl
@[simp] theorem releaseReset_ncoAmp (s : State) : (releaseReset s).ncoAmp = s.ncoAmp := rfl
@[simp] theorem releaseReset_ncoFreq (s : State) : (releaseReset s).ncoFreq = s.ncoFreq := rfl
@[simp] theorem releaseReset_ncoRate (s : State) : (releaseReset s).ncoRate = s.ncoRate := rfl
@[simp] theorem releaseReset_ncoChunk (s : State) : (releaseReset s).ncoChunk = s.ncoChunk := rfl
@[simp] theorem releaseReset_ncoDst (s : State) : (releaseReset s).ncoDst = s.ncoDst := rfl
@[simp] theorem releaseReset_nco (s : State) : (releaseReset s).nco = s.nco := rfl
@[simp] theorem releaseReset_rssiSrc (s : State) : (releaseReset s).rssiSrc = s.rssiSrc := rfl
@[simp] theorem releaseReset_rssiLen (s : State) : (releaseReset s).rssiLen = s.rssiLen := rfl
@[simp] theorem releaseReset_rssiDst (s : State) : (releaseReset s).rssiDst = s.rssiDst := rfl
@[simp] theorem releaseReset_rssiDecim (s : State) : (releaseReset s).rssiDecim = s.rssiDecim := rfl
@[simp] theorem releaseReset_rssiGain (s : State) : (releaseReset s).rssiGain = s.rssiGain := rfl
@[simp] theorem releaseReset_rssiMerr (s : State) : (releaseReset s).rssiMerr = s.rssiMerr := rfl
@[simp] theorem releaseReset_rssiOutlen (s : State) : (releaseReset s).rssiOutlen = s.rssiOutlen := rfl
@[simp] theorem releaseReset_noiseSrc (s : State) : (releaseReset s).noiseSrc = s.noiseSrc := rfl
@[simp] theorem releaseReset_noiseLen (s : State) : (releaseReset s).noiseLen = s.noiseLen := rfl
@[simp] theorem releaseReset_noiseDst (s : State) : (releaseReset s).noiseDst = s.noiseDst := rfl
@[simp] theorem releaseReset_noiseSnr (s : State) : (releaseReset s).noiseSnr = s.noiseSnr := rfl
@[simp] theorem releaseReset_noiseRate (s : State) : (releaseReset s).noiseRate = s.noiseRate := rfl
@[simp] theorem releaseReset_noiseSeed (s : State) : (releaseReset s).noiseSeed = s.noiseSeed := rfl
@[simp] theorem releaseReset_prng (s : State) : (releaseReset s).prng = s.prng := rfl
@[simp] theorem releaseReset_noiseVar (s : State) : (releaseReset s).noiseVar = s.noiseVar := rfl
@[simp] theorem releaseReset_pending (s : State) : (releaseReset s).pending = s.pending := rfl
@[simp] theorem releaseReset_ram (s : State) : (releaseReset s).ram = s.ram := rfl
@[simp] theorem releaseReset_rstN (s : State) : (releaseReset s).rstN = true := rfl
@[simp] theorem releaseReset_held (s : State) : (releaseReset s).held = s.held := rfl
@[simp] theorem releaseReset_queued (s : State) : (releaseReset s).queued = s.queued := rfl
@[simp] theorem releaseReset_schedule (s : State) : (releaseReset s).schedule = s.schedule := rfl
@[simp] theorem releaseReset_replies (s : State) : (releaseReset s).replies = s.replies := rfl
@[simp] theorem releaseReset_draws (s : State) : (releaseReset s).draws = s.draws := rfl

/-! ### `resetRegisters` -/

@[simp] theorem resetRegisters_irqEn (s : State) : (resetRegisters s).irqEn = State.reset.irqEn := rfl
@[simp] theorem resetRegisters_done (s : State) : (resetRegisters s).done = State.reset.done := rfl
@[simp] theorem resetRegisters_busyViol (s : State) : (resetRegisters s).busyViol = State.reset.busyViol := rfl
@[simp] theorem resetRegisters_err (s : State) : (resetRegisters s).err = State.reset.err := rfl
@[simp] theorem resetRegisters_cmd (s : State) : (resetRegisters s).cmd = State.reset.cmd := rfl
@[simp] theorem resetRegisters_ncoAmp (s : State) : (resetRegisters s).ncoAmp = State.reset.ncoAmp := rfl
@[simp] theorem resetRegisters_ncoFreq (s : State) : (resetRegisters s).ncoFreq = State.reset.ncoFreq := rfl
@[simp] theorem resetRegisters_ncoRate (s : State) : (resetRegisters s).ncoRate = State.reset.ncoRate := rfl
@[simp] theorem resetRegisters_ncoChunk (s : State) : (resetRegisters s).ncoChunk = State.reset.ncoChunk := rfl
@[simp] theorem resetRegisters_ncoDst (s : State) : (resetRegisters s).ncoDst = State.reset.ncoDst := rfl
@[simp] theorem resetRegisters_nco (s : State) : (resetRegisters s).nco = State.reset.nco := rfl
@[simp] theorem resetRegisters_rssiSrc (s : State) : (resetRegisters s).rssiSrc = State.reset.rssiSrc := rfl
@[simp] theorem resetRegisters_rssiLen (s : State) : (resetRegisters s).rssiLen = State.reset.rssiLen := rfl
@[simp] theorem resetRegisters_rssiDst (s : State) : (resetRegisters s).rssiDst = State.reset.rssiDst := rfl
@[simp] theorem resetRegisters_rssiDecim (s : State) : (resetRegisters s).rssiDecim = State.reset.rssiDecim := rfl
@[simp] theorem resetRegisters_rssiGain (s : State) : (resetRegisters s).rssiGain = State.reset.rssiGain := rfl
@[simp] theorem resetRegisters_rssiMerr (s : State) : (resetRegisters s).rssiMerr = State.reset.rssiMerr := rfl
@[simp] theorem resetRegisters_rssiOutlen (s : State) : (resetRegisters s).rssiOutlen = State.reset.rssiOutlen := rfl
@[simp] theorem resetRegisters_noiseSrc (s : State) : (resetRegisters s).noiseSrc = State.reset.noiseSrc := rfl
@[simp] theorem resetRegisters_noiseLen (s : State) : (resetRegisters s).noiseLen = State.reset.noiseLen := rfl
@[simp] theorem resetRegisters_noiseDst (s : State) : (resetRegisters s).noiseDst = State.reset.noiseDst := rfl
@[simp] theorem resetRegisters_noiseSnr (s : State) : (resetRegisters s).noiseSnr = State.reset.noiseSnr := rfl
@[simp] theorem resetRegisters_noiseRate (s : State) : (resetRegisters s).noiseRate = State.reset.noiseRate := rfl
@[simp] theorem resetRegisters_noiseSeed (s : State) : (resetRegisters s).noiseSeed = State.reset.noiseSeed := rfl
@[simp] theorem resetRegisters_prng (s : State) : (resetRegisters s).prng = State.reset.prng := rfl
@[simp] theorem resetRegisters_noiseVar (s : State) : (resetRegisters s).noiseVar = State.reset.noiseVar := rfl
@[simp] theorem resetRegisters_pending (s : State) : (resetRegisters s).pending = State.reset.pending := rfl
@[simp] theorem resetRegisters_ram (s : State) : (resetRegisters s).ram = s.ram := rfl
@[simp] theorem resetRegisters_rstN (s : State) : (resetRegisters s).rstN = s.rstN := rfl
@[simp] theorem resetRegisters_held (s : State) : (resetRegisters s).held = s.held := rfl
@[simp] theorem resetRegisters_queued (s : State) : (resetRegisters s).queued = s.queued := rfl
@[simp] theorem resetRegisters_schedule (s : State) : (resetRegisters s).schedule = s.schedule := rfl
@[simp] theorem resetRegisters_replies (s : State) : (resetRegisters s).replies = s.replies := rfl
@[simp] theorem resetRegisters_draws (s : State) : (resetRegisters s).draws = s.draws := rfl

end Sys2Proof.Machine
end

