-- ==== Sys2Proof/Laws/Ops.lean ====
section
/-! SUPPORT. What each shared operation can do, said once: how a command ends, what each command stages, what a transaction and a
reset do, and what one step is. Later proofs cite these instead of unfolding. -/

namespace Sys2Proof.Machine

/-! ### Ending a command -/

/-- A command ends by committing its staged effects, or by an error with nothing committed. -/
theorem conclude_next {s t : State} {a : Attempt} (h : conclude s a = .next t) :
    (∃ u, a = .commit u ∧ t = complete u .ok) ∨
      (∃ c d, a = .raise c d ∧ t = complete { s with draws := d } c) := by
  cases a with
  | commit u => exact .inl ⟨u, rfl, by simpa [conclude] using h.symm⟩
  | raise c d => exact .inr ⟨c, d, rfl, by simpa [conclude] using h.symm⟩
  | broken f => cases h

@[simp] theorem conclude_commit (s u : State) : conclude s (.commit u) = .next (complete u .ok) := rfl

@[simp] theorem conclude_raise (s : State) (c : ErrCode) (d : Nat) :
    conclude s (.raise c d) = .next (complete { s with draws := d } c) := rfl

/-- A command never answers a refusal. -/
theorem conclude_ne_refused (s : State) (a : Attempt) (r : Refusal) : conclude s a ≠ .refused r := by
  cases a <;> simp [conclude]

/-! ### The checks and the lengths of what is written -/

theorem bufferOk_iff (p : Params) (align a len : Nat) :
    bufferOk p align a len = true ↔ a % align = 0 ∧ a + len ≤ p.sramBytes := by
  simp [bufferOk]

theorem disjoint_iff (a la b lb : Nat) : disjoint a la b lb = true ↔ a + la ≤ b ∨ b + lb ≤ a := by
  simp [disjoint]

theorem phasesFinite_iff (o : Nco) :
    phasesFinite o = true ↔ ∀ k, k ≤ o.chunk.toNat → F64.isFinite (phaseAt o k) = true := by
  simp [phasesFinite]

@[simp] theorem chunkSamples_length (num : Numerics) (o : Nco) : (chunkSamples num o).length = o.chunk.toNat := by
  simp [chunkSamples]

@[simp] theorem gaussPairs_length (num : Numerics) (z : U64) (n : Nat) : (gaussPairs num z n).length = n := by
  induction n generalizing z with
  | zero => rfl
  | succ n ih => simp [gaussPairs, ih]

@[simp] theorem noisySamples_length (num : Numerics) (sigma : F64) (z : U64) (xs : List (F32 × F32)) :
    (noisySamples num sigma z xs).length = xs.length := by
  simp [noisySamples, addNoise]

/-- One sample takes one Gaussian pair, and the rest goes on two draws later. -/
@[simp] theorem noisySamples_cons (num : Numerics) (sigma : F64) (z : U64) (x : F32 × F32) (xs : List (F32 × F32)) :
    noisySamples num sigma z (x :: xs) =
      (noisyPart sigma (gaussPair num z).1 x.1, noisyPart sigma (gaussPair num z).2 x.2) ::
        noisySamples num sigma (prngNext (prngNext z)) xs := by
  simp [noisySamples, addNoise, gaussPairs]

@[simp] theorem decimate_length (p : Params) (m : Nat) (xs : List F64) :
    (decimate p m xs).length = ceilDiv xs.length m := by
  unfold decimate
  split
  · rename_i h
    simp [h, ceilDiv]
  · simp

@[simp] theorem rssiWords_length (p : Params) (m : Nat) (g e : F64) (xs : List (F32 × F32)) :
    (rssiWords p m g e xs).length = ceilDiv xs.length m := by
  simp [rssiWords]

/-- What RSSI_RUN's checks let through. -/
theorem rssiChecks_none {p : Params} {s : State} (h : rssiChecks p s = none) :
    1 ≤ s.rssiLen.toNat ∧ 1 ≤ s.rssiDecim.toNat ∧ s.rssiDecim.toNat ≤ p.rssiMaxDecim ∧
      F64.isFinite s.rssiGain = true ∧ F64.isFinite s.rssiMerr = true ∧
      bufferOk p 8 s.rssiSrc.toNat (8 * s.rssiLen.toNat) = true ∧
      bufferOk p 4 s.rssiDst.toNat (4 * ceilDiv s.rssiLen.toNat s.rssiDecim.toNat) = true ∧
      disjoint s.rssiSrc.toNat (8 * s.rssiLen.toNat) s.rssiDst.toNat
        (4 * ceilDiv s.rssiLen.toNat s.rssiDecim.toNat) = true := by
  unfold rssiChecks at h
  dsimp only at h
  repeat' split at h
  all_goals first | (simp at h; done) | skip
  rename_i h1 h2 h3 h4 h5 h6 h7
  simp at h2 h3 h4 h5 h6 h7
  exact ⟨by omega, by omega, by omega, h3, h4, h5, h6, h7⟩

/-- What NOISE_APPLY's checks let through. -/
theorem noiseChecks_none {p : Params} {s : State} (h : noiseChecks p s = none) :
    1 ≤ s.noiseLen.toNat ∧ F64.isFinite s.noiseSnr = true ∧ inHalfOpenUnit s.noiseRate = true ∧
      bufferOk p 8 s.noiseSrc.toNat (8 * s.noiseLen.toNat) = true ∧
      bufferOk p 8 s.noiseDst.toNat (8 * s.noiseLen.toNat) = true ∧
      (s.noiseDst = s.noiseSrc ∨
        disjoint s.noiseSrc.toNat (8 * s.noiseLen.toNat) s.noiseDst.toNat (8 * s.noiseLen.toNat) = true) := by
  unfold noiseChecks at h
  dsimp only at h
  repeat' split at h
  all_goals first | (simp at h; done) | skip
  rename_i h1 h3 h4 h5 h6 h7
  simp at h3 h4 h5 h6 h7
  refine ⟨by omega, h3, h4, h5, h6, ?_⟩
  by_cases he : s.noiseDst = s.noiseSrc
  · exact .inl he
  · exact .inr (h7 he)

/-! ### What each command stages -/

theorem ncoBuild_commit {p : Params} {s t : State} (h : ncoBuild p s = .commit t) :
    buildChecks p s = true ∧ t = { s with nco := stagedOscillator s } := by
  unfold ncoBuild at h
  split at h
  · rename_i hc
    exact ⟨hc, by cases h; rfl⟩
  · cases h

theorem ncoBuild_raise {p : Params} {s : State} {c : ErrCode} {d : Nat} (h : ncoBuild p s = .raise c d) :
    buildChecks p s = false ∧ c = .badParam ∧ d = s.draws := by
  unfold ncoBuild at h
  split at h
  · cases h
  · rename_i hc
    cases h
    exact ⟨by simpa using hc, rfl, rfl⟩

theorem ncoProduce_commit {p : Params} {s t : State} (h : ncoProduce p s = .commit t) :
    s.nco.valid = true ∧ bufferOk p 8 s.ncoDst.toNat (8 * s.nco.chunk.toNat) = true ∧ phasesFinite s.nco = true ∧
      t = { s with
        ram := Ram.writeWords s.ram s.ncoDst.toNat (sampleWords (chunkSamples p.num s.nco))
        nco := advance s.nco } := by
  unfold ncoProduce at h
  split at h
  · cases h
  split at h
  · cases h
  split at h
  · cases h
  split at h
  · cases h
  · rename_i hv hb hf _ m hm
    cases h
    exact ⟨by simpa using hv, by simpa using hb, by simpa using hf, by rw [(storeWords_ok hm).2]⟩

theorem ncoProduce_raise {p : Params} {s : State} {c : ErrCode} {d : Nat} (h : ncoProduce p s = .raise c d) :
    c ≠ .ok ∧ d = s.draws := by
  unfold ncoProduce at h
  split at h
  · cases h
    exact ⟨by decide, rfl⟩
  split at h
  · cases h
    exact ⟨by decide, rfl⟩
  split at h
  · cases h
    exact ⟨by decide, rfl⟩
  split at h <;> cases h

theorem rssiChecks_ne_ok (p : Params) (s : State) : rssiChecks p s ≠ some .ok := by
  unfold rssiChecks
  dsimp only
  repeat' split
  all_goals simp

theorem noiseChecks_ne_ok (p : Params) (s : State) : noiseChecks p s ≠ some .ok := by
  unfold noiseChecks
  dsimp only
  repeat' split
  all_goals simp

theorem rssiRun_commit {p : Params} {s t : State} (h : rssiRun p s = .commit t) :
    rssiChecks p s = none ∧
      t = { s with
        ram := Ram.writeWords s.ram s.rssiDst.toNat
          (rssiWords p s.rssiDecim.toNat s.rssiGain s.rssiMerr
            (drawSamples s.ram s.draws s.rssiSrc.toNat s.rssiLen.toNat).1)
        rssiOutlen := BitVec.ofNat 32 (ceilDiv s.rssiLen.toNat s.rssiDecim.toNat)
        draws := (drawSamples s.ram s.draws s.rssiSrc.toNat s.rssiLen.toNat).2 } := by
  unfold rssiRun at h
  split at h
  · cases h
  split at h
  · cases h
  split at h
  · cases h
  · rename_i _ hc _ r hr _ m hm
    cases h
    obtain ⟨-, rfl⟩ := loadSamples_ok hr
    exact ⟨hc, by rw [(storeWords_ok hm).2]⟩

theorem rssiRun_raise {p : Params} {s : State} {c : ErrCode} {d : Nat} (h : rssiRun p s = .raise c d) :
    rssiChecks p s = some c ∧ d = s.draws := by
  unfold rssiRun at h
  split at h
  · rename_i hc
    cases h
    exact ⟨hc, rfl⟩
  split at h
  · cases h
  split at h <;> cases h

/-- The samples NOISE_APPLY reads. -/
abbrev noiseInput (s : State) : List (F32 × F32) × Nat :=
  drawSamples s.ram s.draws s.noiseSrc.toNat s.noiseLen.toNat

theorem noiseApply_commit {p : Params} {s t : State} (h : noiseApply p s = .commit t) :
    noiseChecks p s = none ∧
      F64.isFinite (noiseVariance p.num s.noiseSnr s.noiseRate (noiseInput s).1) = true ∧
      t = { s with
        ram := Ram.writeWords s.ram s.noiseDst.toNat
          (sampleWords (noisySamples p.num
            (F64.sqrt (noiseVariance p.num s.noiseSnr s.noiseRate (noiseInput s).1)) s.prng (noiseInput s).1))
        prng := prngAdvance (2 * s.noiseLen.toNat) s.prng
        noiseVar := noiseVariance p.num s.noiseSnr s.noiseRate (noiseInput s).1
        draws := (noiseInput s).2 } := by
  unfold noiseApply at h
  split at h
  · cases h
  split at h
  · cases h
  dsimp only at h
  split at h
  · cases h
  split at h
  · cases h
  · rename_i _ hc _ r hr hf _ m hm
    cases h
    obtain ⟨-, rfl⟩ := loadSamples_ok hr
    exact ⟨hc, by simpa using hf, by rw [(storeWords_ok hm).2]⟩

theorem noiseApply_raise {p : Params} {s : State} {c : ErrCode} {d : Nat} (h : noiseApply p s = .raise c d) :
    (noiseChecks p s = some c ∧ d = s.draws) ∨ (noiseChecks p s = none ∧ c = .badParam ∧ d = (noiseInput s).2) := by
  unfold noiseApply at h
  split at h
  · rename_i hc
    cases h
    exact .inl ⟨hc, rfl⟩
  split at h
  · cases h
  dsimp only at h
  split at h
  · rename_i _ hc _ r hr hf
    cases h
    obtain ⟨-, rfl⟩ := loadSamples_ok hr
    exact .inr ⟨hc, rfl, rfl⟩
  split at h <;> cases h

/-! ### Reset -/

@[simp] theorem abortCommand_idle (p : Params) {s : State} (h : s.pending = none) : abortCommand p s = s := by
  simp [abortCommand, h]

/-- What an abort can do: only the RAM, the free draws and the pending command change. -/
theorem abortCommand_eq (p : Params) (s : State) :
    abortCommand p s = { s with
      ram := (abortCommand p s).ram, draws := (abortCommand p s).draws, pending := none } := by
  cases h : s.pending with
  | none => simp [abortCommand, h]; cases s; simp_all
  | some w => simp [abortCommand, h]

/-- What a soft reset leaves: every register at its reset value, and the RAM the abort leaves. -/
theorem softReset_eq (p : Params) (s : State) :
    softReset p s = { State.reset with
      ram := (abortCommand p s).ram, rstN := s.rstN, held := s.held, queued := s.queued, schedule := s.schedule,
      replies := s.replies, draws := (abortCommand p s).draws } := by
  unfold softReset
  rw [abortCommand_eq]
  rfl

/-! ### Transactions -/

theorem perform_read (p : Params) (s : State) (host width off : Nat) :
    perform p s ⟨host, .read width off⟩ =
      answer (performRead p s width off).1 ⟨host, .read width off⟩ (performRead p s width off).2 := rfl

theorem perform_write (p : Params) (s : State) (host width off : Nat) (v : Word) :
    perform p s ⟨host, .write width off v⟩ =
      answer (performWrite p s width off v).1 ⟨host, .write width off v⟩ (performWrite p s width off v).2 := rfl

/-- What a read can do to the state: it uses free draws, and nothing else. -/
theorem performRead_state (p : Params) (s : State) (width off : Nat) :
    ∃ d, (performRead p s width off).1 = { s with draws := d } := by
  unfold performRead
  split
  · exact ⟨s.draws, rfl⟩
  · exact ⟨_, rfl⟩
  · exact ⟨s.draws, rfl⟩

/-- The level of `rst_n`, the waiting transactions and the order of events are the same in t as in s. -/
structure SameBus (s t : State) : Prop where
  rstN : t.rstN = s.rstN
  held : t.held = s.held
  queued : t.queued = s.queued
  schedule : t.schedule = s.schedule

/-- The same, and no answer was given. -/
structure SilentBus (s t : State) : Prop extends SameBus s t where
  replies : t.replies = s.replies

theorem writeReg_bus (p : Params) (s : State) (r : Reg) (v : Word) : SilentBus s (writeReg p s r v) := by
  cases r <;> first | exact ⟨⟨rfl, rfl, rfl, rfl⟩, rfl⟩ | skip
  unfold writeReg writeCtrl
  dsimp only
  split
  · rw [softReset_eq]
    exact ⟨⟨rfl, rfl, rfl, rfl⟩, rfl⟩
  · exact ⟨⟨rfl, rfl, rfl, rfl⟩, rfl⟩

theorem writeWindow_bus (p : Params) (s : State) (off : Nat) (v : Word) : SilentBus s (writeWindow p s off v) := by
  unfold writeWindow
  split
  · split
    · exact ⟨⟨rfl, rfl, rfl, rfl⟩, rfl⟩
    · exact writeReg_bus p s _ v
  · split <;> exact ⟨⟨rfl, rfl, rfl, rfl⟩, rfl⟩

/-- A transaction leaves the level of `rst_n`, the waiting transactions and the order of events as they are. -/
theorem perform_bus (p : Params) (s : State) (i : Issued) : SameBus s (perform p s i) := by
  obtain ⟨host, txn⟩ := i
  cases txn with
  | read width off =>
    obtain ⟨d, h⟩ := performRead_state p s width off
    rw [perform_read, h]
    exact ⟨rfl, rfl, rfl, rfl⟩
  | write width off v =>
    rw [perform_write]
    unfold performWrite
    split
    · obtain ⟨⟨h1, h2, h3, h4⟩, -⟩ := writeWindow_bus p s _ v
      exact ⟨h1, h2, h3, h4⟩
    · exact ⟨rfl, rfl, rfl, rfl⟩
    · exact ⟨rfl, rfl, rfl, rfl⟩

/-- What a write can do: a register-window write, a RAM word, or nothing. -/
theorem performWrite_state (p : Params) (s : State) (width off : Nat) (v : Word) :
    (∃ o, locate p width off = .window o ∧ (performWrite p s width off v).1 = writeWindow p s o v) ∨
      (∃ a, locate p width off = .ram a ∧
        (performWrite p s width off v).1 = { s with ram := Ram.writeWord s.ram a v }) ∨
      (locate p width off = .nowhere ∧ (performWrite p s width off v).1 = s) := by
  unfold performWrite
  cases h : locate p width off with
  | window o => exact .inl ⟨o, rfl, rfl⟩
  | ram a => exact .inr (.inl ⟨a, rfl, rfl⟩)
  | nowhere => exact .inr (.inr ⟨rfl, rfl⟩)

/-- A transaction is answered once, and the answers given before stay. -/
theorem perform_replies (p : Params) (s : State) (i : Issued) :
    ∃ a, (perform p s i).replies = ⟨i.host, i.txn, a⟩ :: s.replies := by
  obtain ⟨host, txn⟩ := i
  cases txn with
  | read width off =>
    obtain ⟨d, h⟩ := performRead_state p s width off
    exact ⟨_, by rw [perform_read, h]; rfl⟩
  | write width off v =>
    refine ⟨(performWrite p s width off v).2, ?_⟩
    have h : (performWrite p s width off v).1.replies = s.replies := by
      rcases performWrite_state p s width off v with ⟨o, -, h⟩ | ⟨a, -, h⟩ | ⟨-, h⟩ <;> rw [h]
      exact (writeWindow_bus p s o v).replies
    rw [perform_write, answer_replies, h]

/-- A sample-RAM access does the same whatever else holds, and starts and ends no command. -/
theorem perform_ram_access (p : Params) (s : State) (i : Issued) (h : reachesRam p i.txn = true) :
    (∀ l, perform p { s with held := l } i = { perform p s i with held := l }) ∧ (perform p s i).pending = s.pending := by
  obtain ⟨host, txn⟩ := i
  unfold reachesRam Txn.target at h
  cases txn with
  | read width off =>
    simp only [perform_read, performRead]
    cases hl : locate p width off <;> simp [hl] at h
    exact ⟨fun _ => rfl, rfl⟩
  | write width off v =>
    simp only [perform_write, performWrite]
    cases hl : locate p width off <;> simp [hl] at h
    exact ⟨fun _ => rfl, rfl⟩

/-- Where an access can lead: only 32 bits at a multiple of 4, inside the register window or the RAM. -/
theorem locate_ram {p : Params} {width off a : Nat} (h : locate p width off = .ram a) :
    width = 32 ∧ off % 4 = 0 ∧ off = 0x10000 + a ∧ a < p.sramBytes := by
  unfold locate at h
  split at h
  · cases h
  split at h
  · cases h
  split at h
  · rename_i h1 _ h3
    simp only [Target.ram.injEq] at h
    omega
  · cases h

theorem locate_window {p : Params} {width off o : Nat} (h : locate p width off = .window o) :
    width = 32 ∧ off % 4 = 0 ∧ off = o ∧ o < 0x1000 := by
  unfold locate at h
  split at h
  · cases h
  split at h
  · rename_i h1 h2
    cases h
    omega
  split at h <;> cases h

/-! ### Holding and its release -/

/-- What a transaction that reaches the block does: it holds, which only a sample-RAM access does while a command is pending, or it
is performed. -/
theorem receive_cases (p : Params) (s : State) (i : Issued) :
    (busy s = true ∧ reachesRam p i.txn = true ∧ receive p s i = { s with held := s.held ++ [i] }) ∨
      ((busy s = false ∨ reachesRam p i.txn = false) ∧ receive p s i = perform p s i) := by
  unfold receive mustHold
  cases busy s <;> cases reachesRam p i.txn <;> simp

/-- While the block is idle a transaction that reaches it is performed. -/
theorem receive_of_idle (p : Params) {s : State} (h : s.pending = none) (i : Issued) : receive p s i = perform p s i := by
  simp [receive, mustHold, busy, h]

/-- What issuing a transaction does: it waits behind an earlier one of its host, or it reaches the block. -/
theorem issue_cases (p : Params) (s : State) (i : Issued) :
    (hostStalled s i.host = true ∧ issue p s i = { s with queued := s.queued ++ [i] }) ∨
      (hostStalled s i.host = false ∧ issue p s i = receive p s i) := by
  unfold issue
  cases hostStalled s i.host <;> simp

theorem hostStalled_eq_false (s : State) (host : Nat) :
    hostStalled s host = false ↔ (∀ j ∈ s.held, j.host ≠ host) ∧ ∀ j ∈ s.queued, j.host ≠ host := by
  simp [hostStalled]

theorem takeHeld_some {s u : State} {i : Issued} (h : takeHeld s = some (i, u)) :
    s.pending = none ∧ ∃ rest, s.held = i :: rest ∧ u = { s with held := rest } := by
  unfold takeHeld at h
  split at h
  · cases h
  · rename_i j rest hs
    split at h
    · cases h
    · rename_i hb
      cases h
      exact ⟨by simpa [busy] using hb, rest, hs, rfl⟩

theorem takeQueued_some {s u : State} {i : Issued} (h : takeQueued s = some (i, u)) :
    ∃ before after, s.queued = before ++ i :: after ∧ (∀ j ∈ before, ∃ k ∈ s.held, k.host = j.host) ∧
      (∀ k ∈ s.held, k.host ≠ i.host) ∧ u = { s with queued := before ++ after } := by
  unfold takeQueued at h
  split at h
  · cases h
  · rename_i j hj
    cases h
    obtain ⟨hi, before, after, hq, hb⟩ := List.find?_eq_some_iff_append.1 hj
    refine ⟨before, after, hq, by simpa [unblocked] using hb, by simpa [unblocked] using hi, ?_⟩
    rw [hq, List.eraseP_append_right _ (by simpa using hb), List.eraseP_cons_of_pos hi]

/-- What is released, and when: the oldest access that holds, once the block is idle, or else the first queued transaction of a host
that does not hold. -/
theorem released_some {s u : State} {i : Issued} (h : released s = some (i, u)) :
    s.rstN = true ∧
      ((s.pending = none ∧ ∃ rest, s.held = i :: rest ∧ u = { s with held := rest }) ∨
        ((s.pending = none → s.held = []) ∧
          ∃ before after, s.queued = before ++ i :: after ∧ (∀ j ∈ before, ∃ k ∈ s.held, k.host = j.host) ∧
            (∀ k ∈ s.held, k.host ≠ i.host) ∧ u = { s with queued := before ++ after })) := by
  unfold released at h
  split at h
  · rename_i hr
    refine ⟨hr, ?_⟩
    split at h
    · rename_i r hh
      cases h
      exact .inl (takeHeld_some hh)
    · rename_i hh
      refine .inr ⟨fun hp => ?_, takeQueued_some h⟩
      unfold takeHeld at hh
      split at hh
      · assumption
      · simp [busy, hp] at hh
  · cases h

/-- While the block is idle and out of reset the oldest access that holds is released. -/
theorem released_of_idle {s : State} {i : Issued} {rest : List Issued} (hh : s.held = i :: rest)
    (hr : s.rstN = true) (hp : s.pending = none) : released s = some (i, { s with held := rest }) := by
  simp [released, hr, takeHeld, hh, busy, hp]

theorem takeHeld_eq_none (s : State) : takeHeld s = none ↔ (s.pending = none → s.held = []) := by
  unfold takeHeld busy
  cases s.held <;> cases s.pending <;> simp

theorem takeQueued_eq_none (s : State) :
    takeQueued s = none ↔ ∀ i ∈ s.queued, ∃ j ∈ s.held, j.host = i.host := by
  have h : takeQueued s = none ↔ s.queued.find? (unblocked s.held) = none := by
    unfold takeQueued
    cases s.queued.find? (unblocked s.held) <;> simp
  simp [h, unblocked]

/-- Nothing is released exactly when `rst_n` is low, or no access that holds may go and every queued transaction is stalled. -/
theorem released_eq_none (s : State) :
    released s = none ↔
      (s.rstN = true → (s.pending = none → s.held = []) ∧ ∀ i ∈ s.queued, ∃ j ∈ s.held, j.host = i.host) := by
  rw [← takeHeld_eq_none, ← takeQueued_eq_none]
  unfold released
  cases s.rstN
  · simp
  · cases takeHeld s <;> simp

@[simp] theorem released_of_nothing_waiting {s : State} (hh : s.held = []) (hq : s.queued = []) : released s = none := by
  simp [released_eq_none, hh, hq]

theorem takeHeld_with_schedule (s : State) (es : List Event) :
    takeHeld { s with schedule := es } = (takeHeld s).map fun r => (r.1, { r.2 with schedule := es }) := by
  unfold takeHeld
  cases s.held with
  | nil => rfl
  | cons i rest => show (if busy s then _ else _) = _; cases busy s <;> rfl

theorem takeQueued_with_schedule (s : State) (es : List Event) :
    takeQueued { s with schedule := es } = (takeQueued s).map fun r => (r.1, { r.2 with schedule := es }) := by
  unfold takeQueued
  cases s.queued.find? (unblocked s.held) <;> rfl

/-- What is released does not depend on the events to come. -/
@[simp] theorem released_with_schedule (s : State) (es : List Event) :
    released { s with schedule := es } = (released s).map fun r => (r.1, { r.2 with schedule := es }) := by
  unfold released
  rw [takeHeld_with_schedule, takeQueued_with_schedule]
  show (if s.rstN then _ else _) = _
  cases s.rstN
  · rfl
  · cases takeHeld s <;> rfl

/-! ### One step -/

/-- `exec` is `execOn` on the default parameters (00_scope.md R5). -/
theorem exec_eq_execOn (i : Instr) (s : State) : exec i s = execOn Config.params i s := by
  cases i <;> rfl

/-- `step` is `stepOn` on the default parameters (00_scope.md R5). -/
theorem step_eq_stepOn (s : State) : step s = stepOn Config.params s := by
  unfold step stepOn
  rw [show exec = execOn Config.params from funext fun i => funext fun s => exec_eq_execOn i s]

/-- What a step is: a released transaction, the engine's turn on an empty schedule, or the next outside event. -/
theorem stepWith_cases (p : Params) (run : Executor) (s : State) :
    (∃ i u, released s = some (i, u) ∧ stepWith p run s = .next (receive p u i)) ∨
      (released s = none ∧ s.schedule = [] ∧ stepWith p run s = engineStepWith run s) ∨
      (∃ e es, released s = none ∧ s.schedule = e :: es ∧
        stepWith p run s = runEventWith p run e { s with schedule := es }) := by
  unfold stepWith
  cases hr : released s with
  | some r => exact .inl ⟨r.1, r.2, rfl, rfl⟩
  | none =>
    cases hs : s.schedule with
    | nil => exact .inr (.inl ⟨rfl, rfl, rfl⟩)
    | cons e es => exact .inr (.inr ⟨e, es, rfl, rfl, rfl⟩)

theorem step_cases (s : State) :
    (∃ i u, released s = some (i, u) ∧ step s = .next (receive Config.params u i)) ∨
      (released s = none ∧ s.schedule = [] ∧ step s = engineStep s) ∨
      (∃ e es, released s = none ∧ s.schedule = e :: es ∧
        step s = runEventWith Config.params exec e { s with schedule := es }) :=
  stepWith_cases Config.params exec s

end Sys2Proof.Machine
end

