-- ==== Sys2Proof/Laws/PerInstr.lean ====
section
/-! SUPPORT. A statement about every command as syntax, one lemma for each constructor: its word passes every check of
WellFormed.lean (30_encoding.md R110, R111). -/

namespace Sys2Proof.Laws.WordWellFormed

/-- The command is well-formed, and so is its word. -/
def Statement (i : Instr) : Prop := i.wellFormed = true ∧ wordWellFormed (encode i) = true

theorem nop : Statement .nop := ⟨rfl, by decide⟩

theorem ncoBuild : Statement .ncoBuild := ⟨rfl, by decide⟩

theorem ncoProduce : Statement .ncoProduce := ⟨rfl, by decide⟩

theorem ncoRelease : Statement .ncoRelease := ⟨rfl, by decide⟩

theorem rssiRun : Statement .rssiRun := ⟨rfl, by decide⟩

theorem noiseSeed : Statement .noiseSeed := ⟨rfl, by decide⟩

theorem noiseApply : Statement .noiseApply := ⟨rfl, by decide⟩

end Sys2Proof.Laws.WordWellFormed
end

