-- ==== Sys2Proof/Laws/Taps.lean ====
section
/-! SUPPORT. How close the fixed-point numbers of Machine/Taps.lean are to the real ones of 42_rssi.md R186 (assumption log 12): each
rounding down adds at most one unit of 2^-320, and the rest of a series is at most twice its first term left out. The last
results are `shape_close_kaiserSinc` and `total_close_kaiserSinc`. -/

namespace Sys2Proof.Taps

open Sys2Proof.Safety

theorem unit_pos : 0 < unit := by
  unfold unit
  positivity

/-! ### Rounding down -/

theorem natDiv_close {a b : ℕ} {x e : ℝ} (hb : 0 < b) (h : |(a : ℝ) - x| ≤ e) :
    |((a / b : ℕ) : ℝ) - x / b| ≤ e / b + 1 := by
  have hb' : (0 : ℝ) < b := by exact_mod_cast hb
  have h1 : ((a / b : ℕ) : ℝ) ≤ a / b := Nat.cast_div_le
  have h2 : (a : ℝ) / b < (a / b : ℕ) + 1 := by
    rw [div_lt_iff₀ hb']
    exact_mod_cast (Nat.lt_mul_of_div_lt (Nat.lt_succ_self (a / b)) hb).trans_eq (by rw [Nat.succ_eq_add_one])
  have h3 : |(a : ℝ) / b - x / b| ≤ e / b := by
    rw [← sub_div, abs_div, abs_of_pos hb']
    gcongr
  rw [abs_le] at h3 ⊢
  constructor <;> linarith [h3.1, h3.2]

theorem intDiv_close {a b : ℤ} (hb : 0 < b) : |((a / b : ℤ) : ℝ) - a / b| ≤ 1 := by
  have hb' : (0 : ℝ) < b := by exact_mod_cast hb
  have h1 : ((a / b : ℤ) : ℝ) * b ≤ a := by exact_mod_cast Int.ediv_mul_le a hb.ne'
  have h2 : (a : ℝ) < ((a / b : ℤ) + 1) * b := by exact_mod_cast Int.lt_ediv_add_one_mul_self a hb
  rw [← le_div_iff₀ hb'] at h1
  rw [← div_lt_iff₀ hb'] at h2
  rw [abs_le]
  constructor <;> linarith

/-- The rest of a series whose terms at least halve from index n on is at most twice the n-th term. -/
theorem partialSum_close {f : ℕ → ℝ} {s : ℝ} (h : HasSum f s) (n : ℕ) (hf : ∀ k, n ≤ k → |f (k + 1)| ≤ |f k| / 2) :
    |∑ k ∈ Finset.range n, f k - s| ≤ 2 * |f n| := by
  have bound : ∀ i, ‖f (i + n)‖ ≤ |f n| * (1 / 2) ^ i := by
    intro i
    induction i with
    | zero => simp
    | succ i ih =>
      have := hf (i + n) (by omega)
      rw [Real.norm_eq_abs] at ih ⊢
      rw [show i + 1 + n = i + n + 1 by ring, pow_succ]
      linarith
  have := ((hasSum_nat_add_iff' n).2 h).norm_le_of_bounded (hasSum_geometric_two.mul_left |f n|) bound
  rw [abs_sub_comm]
  simpa [mul_comm] using this

/-! ### The three series -/

/-- The fixed-point arctangent series, against the terms t of the real one. -/
theorem arctanInvSeries_close {n : ℕ} (hn : 2 ≤ n) {t : ℕ → ℝ} (ht : ∀ k, t (k + 1) = t k / (n * n : ℕ)) (fuel i pow : ℕ)
    (h : |(pow : ℝ) - t i| ≤ 2) :
    |(arctanInvSeries n fuel i pow : ℝ) - ∑ k ∈ Finset.range fuel, (-1) ^ k * (t (i + k) / (2 * (i + k) + 1 : ℕ))| ≤
      3 * fuel := by
  induction fuel generalizing i pow with
  | zero => simp [arctanInvSeries]
  | succ fuel ih =>
    have hn' : (4 : ℝ) ≤ (n * n : ℕ) := by exact_mod_cast Nat.mul_le_mul hn hn
    have head := natDiv_close (b := 2 * i + 1) (by omega) h
    have next := natDiv_close (b := n * n) (by positivity) h
    rw [← ht] at next
    have small : (2 : ℝ) / (n * n : ℕ) + 1 ≤ 2 := by
      have : (2 : ℝ) / (n * n : ℕ) ≤ 2 / 4 := by gcongr
      linarith
    have small' : (2 : ℝ) / (2 * i + 1 : ℕ) ≤ 2 := div_le_self (by norm_num) (by exact_mod_cast Nat.le_add_left 1 _)
    have rest := ih (i + 1) (pow / (n * n)) (next.trans small)
    rw [Finset.sum_range_succ', arctanInvSeries, Int.cast_sub, Int.cast_natCast]
    have shift : ∑ k ∈ Finset.range fuel, (-1) ^ (k + 1) * (t (i + (k + 1)) / (2 * (i + (k + 1)) + 1 : ℕ)) =
        -∑ k ∈ Finset.range fuel, (-1) ^ k * (t (i + 1 + k) / (2 * (i + 1 + k) + 1 : ℕ)) := by
      rw [← Finset.sum_neg_distrib]
      refine Finset.sum_congr rfl fun k _ => ?_
      rw [show i + (k + 1) = i + 1 + k by ring]
      ring
    rw [shift]
    push_cast at *
    simp only [add_zero, pow_zero, one_mul] at *
    rw [abs_le] at *
    constructor <;> linarith [head.1, head.2, rest.1, rest.2]

/-- The fixed-point Bessel series, against the terms t of the real one. -/
theorem besselSeries_close {num den : ℕ} (hd : 0 < den) (hq : num ≤ 7 * den) {t : ℕ → ℝ}
    (ht : ∀ k, t (k + 1) = t k * num / (den * ((k + 1) * (k + 1)) : ℕ)) (fuel k term : ℕ) (h : |(term : ℝ) - t k| ≤ k ^ 2) :
    |(besselSeries num den fuel k term : ℝ) - ∑ i ∈ Finset.range fuel, t (k + i)| ≤ fuel * (k + fuel) ^ 2 := by
  induction fuel generalizing k term with
  | zero => simp [besselSeries]
  | succ fuel ih =>
    have hd' : (0 : ℝ) < den := by exact_mod_cast hd
    have hq' : (num : ℝ) ≤ 7 * den := by exact_mod_cast hq
    have scaled : |((term * num : ℕ) : ℝ) - t k * num| ≤ k ^ 2 * num := by
      push_cast
      rw [← sub_mul, abs_mul, abs_of_nonneg (Nat.cast_nonneg (α := ℝ) num)]
      gcongr
    have next := natDiv_close (b := den * ((k + 1) * (k + 1))) (by positivity) scaled
    rw [← ht] at next
    have small : (k : ℝ) ^ 2 * num / (den * ((k + 1) * (k + 1)) : ℕ) + 1 ≤ ((k + 1 : ℕ) : ℝ) ^ 2 := by
      have hk : (0 : ℝ) ≤ k := Nat.cast_nonneg k
      have : (k : ℝ) ^ 2 * num / (den * ((k + 1) * (k + 1)) : ℕ) ≤ 7 * k ^ 2 / (k + 1) ^ 2 := by
        push_cast
        rw [div_le_div_iff₀ (by positivity) (by positivity)]
        nlinarith [mul_le_mul_of_nonneg_left hq' (by positivity : (0 : ℝ) ≤ k ^ 2 * (k + 1) ^ 2)]
      have : 7 * (k : ℝ) ^ 2 / (k + 1) ^ 2 + 1 ≤ (k + 1) ^ 2 := by
        rw [← le_sub_iff_add_le, div_le_iff₀ (by positivity)]
        nlinarith [mul_nonneg hk (sq_nonneg ((k : ℝ) - 1)), mul_nonneg hk hk, mul_nonneg hk (mul_nonneg hk hk),
          sq_nonneg ((k : ℝ) ^ 2 - 1)]
      rw [Nat.cast_add_one]
      linarith
    have rest := ih (k + 1) _ (next.trans small)
    rw [Finset.sum_range_succ', besselSeries]
    have shift : ∑ i ∈ Finset.range fuel, t (k + (i + 1)) = ∑ i ∈ Finset.range fuel, t (k + 1 + i) :=
      Finset.sum_congr rfl fun i _ => by rw [show k + (i + 1) = k + 1 + i by ring]
    rw [shift]
    have grow : (k : ℝ) ^ 2 ≤ (k + (fuel + 1)) ^ 2 := by
      gcongr
      linarith [Nat.cast_nonneg (α := ℝ) fuel]
    push_cast at *
    simp only [add_zero] at *
    rw [show (k : ℝ) + 1 + fuel = k + (fuel + 1) by ring] at rest
    rw [abs_le] at *
    constructor <;> linarith [h.1, h.2, rest.1, rest.2]

/-- The fixed-point sine series at y = x / 2^320, against the terms t of the real one. -/
theorem sineSeries_close {x : ℕ} {y : ℝ} (hy : (x : ℝ) = unit * y) (hy2 : y ≤ 2) {t : ℕ → ℝ}
    (ht : ∀ k, t (k + 1) = t k * y * y / ((2 * k + 2) * (2 * k + 3) : ℕ)) (fuel i term : ℕ) (h : |(term : ℝ) - t i| ≤ 8) :
    |(sineSeries x fuel i term : ℝ) - ∑ k ∈ Finset.range fuel, (-1) ^ k * t (i + k)| ≤ 8 * fuel := by
  induction fuel generalizing i term with
  | zero => simp [sineSeries]
  | succ fuel ih =>
    have hu : (0 : ℝ) < unit := by exact_mod_cast unit_pos
    have hy0 : 0 ≤ y := by
      have : (0 : ℝ) ≤ unit * y := hy ▸ Nat.cast_nonneg x
      exact nonneg_of_mul_nonneg_right this hu
    have times {a : ℕ} {r e : ℝ} (ha : |(a : ℝ) - r| ≤ e) : |((a * x : ℕ) : ℝ) - r * x| ≤ e * x := by
      push_cast
      rw [← sub_mul, abs_mul, abs_of_nonneg (Nat.cast_nonneg (α := ℝ) x)]
      gcongr
    have first := natDiv_close (b := unit) unit_pos (times h)
    have second := natDiv_close (b := unit * ((2 * i + 2) * (2 * i + 3))) (Nat.mul_pos unit_pos (by positivity)) (times first)
    have real : t i * x / unit * x / (unit * ((2 * i + 2) * (2 * i + 3)) : ℕ) = t (i + 1) := by
      rw [ht, hy]
      push_cast
      field_simp
    rw [real] at second
    have small : (8 * x / unit + 1) * x / (unit * ((2 * i + 2) * (2 * i + 3)) : ℕ) + 1 ≤ (8 : ℝ) := by
      have : (8 * x / unit + 1) * x / (unit * ((2 * i + 2) * (2 * i + 3)) : ℕ) =
          (8 * y + 1) * y / ((2 * i + 2) * (2 * i + 3)) := by
        rw [hy]
        push_cast
        field_simp
      rw [this]
      have den : (6 : ℝ) ≤ (2 * i + 2) * (2 * i + 3) := by nlinarith [Nat.cast_nonneg (α := ℝ) i]
      have : (8 * y + 1) * y / ((2 * i + 2) * (2 * i + 3)) ≤ (8 * 2 + 1) * 2 / 6 := by gcongr
      linarith
    have rest := ih (i + 1) _ (second.trans small)
    rw [Finset.sum_range_succ', sineSeries, Int.cast_sub, Int.cast_natCast]
    have shift : ∑ k ∈ Finset.range fuel, (-1) ^ (k + 1) * t (i + (k + 1)) =
        -∑ k ∈ Finset.range fuel, (-1) ^ k * t (i + 1 + k) := by
      rw [← Finset.sum_neg_distrib]
      refine Finset.sum_congr rfl fun k _ => ?_
      rw [show i + (k + 1) = i + 1 + k by ring]
      ring
    rw [shift]
    push_cast at *
    simp only [add_zero, pow_zero, one_mul] at *
    rw [abs_le] at *
    constructor <;> linarith [h.1, h.2, rest.1, rest.2]

theorem unit_pos_real : (0 : ℝ) < unit := by exact_mod_cast unit_pos

theorem unit_eq : (unit : ℝ) = 2 ^ 160 * 2 ^ 160 := by
  simp only [unit, ← pow_add, Nat.cast_pow, Nat.cast_ofNat]

/-! ### π -/

theorem arctanInv_close {n : ℕ} (hn : 5 ≤ n) :
    |(arctanInvSeries n 160 0 (unit / n) : ℝ) - unit * Real.arctan (n : ℝ)⁻¹| ≤ 500 := by
  have hn' : (5 : ℝ) ≤ n := by exact_mod_cast hn
  have hn0 : (0 : ℝ) < n := by linarith
  let t : ℕ → ℝ := fun k => unit * (n : ℝ)⁻¹ ^ (2 * k + 1)
  have series := arctanInvSeries_close (n := n) (by omega) (t := t)
    (fun k => by
      simp only [t]
      rw [show 2 * (k + 1) + 1 = 2 * k + 1 + 1 + 1 by ring, pow_succ, pow_succ]
      push_cast
      field_simp) 160 0 (unit / n)
    (by
      have := natDiv_close (a := unit) (b := n) (x := unit) (e := 0) (by omega) (by simp)
      simp only [t]
      refine (this.trans (by norm_num)).trans_eq' ?_
      simp [div_eq_mul_inv])
  have small : ‖(n : ℝ)⁻¹‖ < 1 := by
    rw [Real.norm_eq_abs, abs_of_pos (by positivity)]
    exact inv_lt_one_of_one_lt₀ (by linarith)
  have inv_le : (n : ℝ)⁻¹ ≤ 5⁻¹ := by gcongr
  have tail := partialSum_close ((Real.hasSum_arctan small).mul_left (unit : ℝ)) 160 (by
    intro k _
    have : unit * ((-1 : ℝ) ^ (k + 1) * (n : ℝ)⁻¹ ^ (2 * (k + 1) + 1) / ((2 * (k + 1) + 1 : ℕ) : ℝ)) =
        unit * ((-1 : ℝ) ^ k * (n : ℝ)⁻¹ ^ (2 * k + 1) / ((2 * k + 1 : ℕ) : ℝ)) *
          (-((n : ℝ)⁻¹ ^ 2 * ((2 * k + 1 : ℕ) / (2 * (k + 1) + 1 : ℕ) : ℝ))) := by
      rw [show (n : ℝ)⁻¹ ^ (2 * (k + 1) + 1) = (n : ℝ)⁻¹ ^ (2 * k + 1) * (n : ℝ)⁻¹ ^ 2 by ring]
      push_cast
      field_simp
      ring
    rw [this, abs_mul, div_eq_mul_inv]
    refine mul_le_mul_of_nonneg_left ?_ (abs_nonneg _)
    rw [abs_neg, abs_of_nonneg (by positivity)]
    have h1 : (n : ℝ)⁻¹ ^ 2 ≤ 5⁻¹ ^ 2 := by gcongr
    have h2 : ((2 * k + 1 : ℕ) / (2 * (k + 1) + 1 : ℕ) : ℝ) ≤ 1 := by
      rw [div_le_one (by positivity)]
      push_cast
      linarith
    calc (n : ℝ)⁻¹ ^ 2 * ((2 * k + 1 : ℕ) / (2 * (k + 1) + 1 : ℕ) : ℝ) ≤ 5⁻¹ ^ 2 * 1 := by gcongr
      _ ≤ 2⁻¹ := by norm_num)
  have last : 2 * |(unit : ℝ) * ((-1) ^ 160 * (n : ℝ)⁻¹ ^ (2 * 160 + 1) / ((2 * 160 + 1 : ℕ) : ℝ))| ≤ 1 := by
    rw [abs_of_nonneg (by positivity)]
    calc 2 * ((unit : ℝ) * ((-1) ^ 160 * (n : ℝ)⁻¹ ^ (2 * 160 + 1) / ((2 * 160 + 1 : ℕ) : ℝ)))
        ≤ 2 * ((unit : ℝ) * ((-1) ^ 160 * (2⁻¹ ^ 160 * 2⁻¹ ^ 161) / ((2 * 160 + 1 : ℕ) : ℝ))) := by
          rw [← pow_add]
          gcongr
          linarith
      _ ≤ 1 := by
        rw [unit_eq]
        norm_num
  have same : ∑ k ∈ Finset.range 160, (-1) ^ k * (t (0 + k) / (2 * (0 + k) + 1 : ℕ)) =
      ∑ k ∈ Finset.range 160, (unit : ℝ) * ((-1) ^ k * (n : ℝ)⁻¹ ^ (2 * k + 1) / ((2 * k + 1 : ℕ) : ℝ)) := by
    refine Finset.sum_congr rfl fun k _ => ?_
    simp only [t, zero_add]
    ring
  rw [same] at series
  have := (abs_sub_le _ _ _).trans (add_le_add series (tail.trans last))
  norm_num at this ⊢
  linarith

theorem pi_close : |(pi : ℝ) - unit * Real.pi| ≤ 2 ^ 14 := by
  have h5 := arctanInv_close (n := 5) (by norm_num)
  have h239 := arctanInv_close (n := 239) (by norm_num)
  have machin := Real.four_mul_arctan_inv_5_sub_arctan_inv_239
  let d : ℤ := 16 * arctanInvSeries 5 160 0 (unit / 5) - 4 * arctanInvSeries 239 160 0 (unit / 239)
  have close : |(d : ℝ) - unit * Real.pi| ≤ 10000 := by
    have : Real.pi = 16 * Real.arctan 5⁻¹ - 4 * Real.arctan 239⁻¹ := by linarith
    simp only [d]
    rw [this]
    push_cast at *
    rw [abs_le] at *
    constructor <;> linarith [h5.1, h5.2, h239.1, h239.2]
  have big : (10000 : ℝ) ≤ unit * Real.pi := by
    have : (10000 : ℝ) ≤ unit := by norm_num [unit_eq]
    nlinarith [Real.pi_gt_three]
  have nonneg : 0 ≤ d := by
    have : (0 : ℝ) ≤ d := by linarith [(abs_le.1 close).1]
    exact_mod_cast this
  have cast : (pi : ℝ) = d := by
    have : ((d.toNat : ℤ) : ℝ) = d := by rw [Int.toNat_of_nonneg nonneg]
    exact_mod_cast this
  rw [cast]
  linarith

/-! ### The sine -/

theorem sine_close {x : ℕ} {y : ℝ} (hy : (x : ℝ) = unit * y) (hy0 : 0 ≤ y) (hy2 : y ≤ 2) :
    |(sineSeries x 80 0 x : ℝ) - unit * Real.sin y| ≤ 1000 := by
  let t : ℕ → ℝ := fun k => unit * (y ^ (2 * k + 1) / ((2 * k + 1).factorial : ℝ))
  have series := sineSeries_close hy hy2 (t := t)
    (fun k => by
      simp only [t]
      rw [show 2 * (k + 1) + 1 = 2 * k + 1 + 1 + 1 by ring, Nat.factorial_succ, Nat.factorial_succ]
      push_cast
      field_simp
      ring) 80 0 x (by simp [t, hy])
  have tail := partialSum_close ((Real.hasSum_sin y).mul_left (unit : ℝ)) 80 (by
    intro k _
    have : unit * ((-1 : ℝ) ^ (k + 1) * y ^ (2 * (k + 1) + 1) / ((2 * (k + 1) + 1).factorial : ℝ)) =
        unit * ((-1 : ℝ) ^ k * y ^ (2 * k + 1) / ((2 * k + 1).factorial : ℝ)) *
          (-(y ^ 2 / ((2 * k + 2) * (2 * k + 3)))) := by
      rw [show 2 * (k + 1) + 1 = 2 * k + 1 + 1 + 1 by ring, Nat.factorial_succ, Nat.factorial_succ]
      push_cast
      field_simp
      ring
    rw [this, abs_mul, div_eq_mul_inv]
    refine mul_le_mul_of_nonneg_left ?_ (abs_nonneg _)
    rw [abs_neg, abs_of_nonneg (by positivity)]
    have den : (80 : ℝ) ≤ (2 * k + 2) * (2 * k + 3) := by
      have : (80 : ℝ) ≤ k := by exact_mod_cast ‹80 ≤ k›
      nlinarith
    calc y ^ 2 / ((2 * k + 2) * (2 * k + 3)) ≤ 2 ^ 2 / 80 := by gcongr
      _ ≤ 2⁻¹ := by norm_num)
  have last : 2 * |(unit : ℝ) * ((-1) ^ 80 * y ^ (2 * 80 + 1) / ((2 * 80 + 1).factorial : ℝ))| ≤ 1 := by
    rw [abs_of_nonneg (by positivity)]
    calc 2 * ((unit : ℝ) * ((-1) ^ 80 * y ^ (2 * 80 + 1) / ((2 * 80 + 1).factorial : ℝ)))
        ≤ 2 * ((unit : ℝ) * ((-1) ^ 80 * 2 ^ (2 * 80 + 1) / ((2 * 80 + 1).factorial : ℝ))) := by gcongr
      _ ≤ 1 := by norm_num [unit_eq, Nat.factorial]
  have same : ∑ k ∈ Finset.range 80, (-1) ^ k * t (0 + k) =
      ∑ k ∈ Finset.range 80, (unit : ℝ) * ((-1) ^ k * y ^ (2 * k + 1) / ((2 * k + 1).factorial : ℝ)) := by
    refine Finset.sum_congr rfl fun k _ => ?_
    simp only [t, zero_add]
    ring
  rw [same] at series
  have := (abs_sub_le _ _ _).trans (add_le_add series (tail.trans last))
  norm_num at this ⊢
  linarith

theorem sinPi_close {m r : ℕ} (hm : 0 < m) (hr : r ≤ m) :
    |(sinPi m r : ℝ) - unit * Real.sin (Real.pi * r / m)| ≤ 2 ^ 15 := by
  have hm' : (0 : ℝ) < m := by exact_mod_cast hm
  have hu := unit_pos_real
  let q := min r (m - r)
  have hq : 2 * q ≤ m := by simp only [q]; omega
  have hq' : (q : ℝ) / m ≤ 1 / 2 := by
    rw [div_le_div_iff₀ hm' (by norm_num)]
    have : ((2 * q : ℕ) : ℝ) ≤ m := by exact_mod_cast hq
    push_cast at this
    linarith
  have fold : Real.sin (Real.pi * r / m) = Real.sin (Real.pi * q / m) := by
    rcases le_total r (m - r) with h | h
    · rw [show q = r from min_eq_left h]
    · rw [show q = m - r from min_eq_right h, Nat.cast_sub hr, ← Real.sin_pi_sub]
      congr 1
      field_simp
  have scaled : |((pi * q : ℕ) : ℝ) - unit * (Real.pi * q)| ≤ 2 ^ 14 * q := by
    push_cast
    rw [← mul_assoc, ← sub_mul, abs_mul, abs_of_nonneg (Nat.cast_nonneg (α := ℝ) q)]
    gcongr
    exact pi_close
  have arg := natDiv_close hm scaled
  have arg' : |((pi * q / m : ℕ) : ℝ) - unit * (Real.pi * q / m)| ≤ 2 ^ 13 + 1 := by
    rw [← mul_div_assoc]
    refine arg.trans ?_
    rw [mul_div_assoc]
    linarith
  let y : ℝ := (pi * q / m : ℕ) / unit
  have hy : ((pi * q / m : ℕ) : ℝ) = unit * y := by simp only [y]; field_simp
  have hy0 : 0 ≤ y := by positivity
  rw [hy, ← mul_sub, abs_mul, abs_of_pos hu] at arg'
  have near : |y - Real.pi * q / m| ≤ 1 / 4 := by
    have : (1 : ℝ) / 4 = unit / 4 / unit := by field_simp
    rw [this, le_div_iff₀ hu]
    have : (2 : ℝ) ^ 13 + 1 ≤ unit / 4 := by norm_num [unit_eq]
    linarith
  have hy2 : y ≤ 2 := by
    have : Real.pi * q / m ≤ 3.15 * (1 / 2) := by
      rw [mul_div_assoc]
      gcongr
      exact Real.pi_lt_d2.le
    linarith [(abs_le.1 near).2]
  have lip : |unit * Real.sin y - unit * Real.sin (Real.pi * q / m)| ≤ 2 ^ 13 + 1 := by
    rw [← mul_sub, abs_mul, abs_of_pos hu]
    exact (mul_le_mul_of_nonneg_left (Real.abs_sin_sub_sin_le _ _) hu.le).trans arg'
  have := (abs_sub_le _ _ _).trans (add_le_add (sine_close hy hy0 hy2) lip)
  rw [fold]
  refine (this.trans (by norm_num)).trans_eq' ?_
  rfl

/-! ### The window -/

/-- The terms of I0(2√q), as R186 writes them and as the fixed-point series runs through them. -/
theorem besselTerm_eq {z q : ℝ} (h : (z / 2) ^ 2 = q) (k : ℕ) :
    ((z / 2) ^ k / (k.factorial : ℝ)) ^ 2 = q ^ k / (k.factorial : ℝ) ^ 2 := by
  rw [div_pow, ← pow_mul, mul_comm k 2, pow_mul, h]

theorem besselTerms {q : ℝ} (hq0 : 0 ≤ q) (hq : q ≤ 7) :
    Summable (fun k : ℕ => q ^ k / (k.factorial : ℝ) ^ 2) ∧ ∑' k : ℕ, q ^ k / (k.factorial : ℝ) ^ 2 ≤ 2200 := by
  have exp := NormedSpace.expSeries_div_hasSum_exp q
  rw [← Real.exp_eq_exp_ℝ] at exp
  have le : ∀ k : ℕ, q ^ k / (k.factorial : ℝ) ^ 2 ≤ q ^ k / (k.factorial : ℝ) := by
    intro k
    have : (1 : ℝ) ≤ k.factorial := by exact_mod_cast Nat.factorial_pos k
    gcongr
    nlinarith
  have summable := Summable.of_nonneg_of_le (fun k => by positivity) le exp.summable
  refine ⟨summable, (summable.tsum_le_tsum le exp.summable).trans ?_⟩
  rw [exp.tsum_eq]
  calc Real.exp q ≤ Real.exp 7 := Real.exp_le_exp.2 hq
    _ = Real.exp 1 ^ 7 := by rw [← Real.exp_nat_mul]; norm_num
    _ ≤ 3 ^ 7 := by gcongr; exact Real.exp_one_lt_three.le
    _ ≤ 2200 := by norm_num

theorem window_close {n j : ℕ} (hn : 0 < n) (hj : j ≤ n) {q : ℝ} (hq : q = 25 / 4 * (1 - ((j : ℝ) / n) ^ 2)) :
    |(window n j : ℝ) - unit * ∑' k : ℕ, q ^ k / (k.factorial : ℝ) ^ 2| ≤ 2 ^ 20 := by
  have hn' : (0 : ℝ) < n := by exact_mod_cast hn
  have hjn : (j : ℝ) / n ≤ 1 := by
    rw [div_le_one hn']
    exact_mod_cast hj
  have hq0 : 0 ≤ q := by
    have : ((j : ℝ) / n) ^ 2 ≤ 1 := pow_le_one₀ (by positivity) hjn
    rw [hq]
    linarith
  have hq7 : q ≤ 7 := by
    have : 0 ≤ ((j : ℝ) / n) ^ 2 := by positivity
    rw [hq]
    linarith
  have ratio : (((25 * (n * n - j * j) : ℕ) : ℝ)) = q * (4 * n * n : ℕ) := by
    rw [hq]
    push_cast [Nat.cast_sub (Nat.mul_le_mul hj hj)]
    field_simp
  let t : ℕ → ℝ := fun k => unit * (q ^ k / (k.factorial : ℝ) ^ 2)
  have step : ∀ k, t (k + 1) = t k * (q / ((k + 1) * (k + 1))) := by
    intro k
    simp only [t, Nat.factorial_succ, pow_succ]
    push_cast
    field_simp
  have series := besselSeries_close (num := 25 * (n * n - j * j)) (den := 4 * n * n) (by positivity)
    (by
      have := Nat.sub_le (n * n) (j * j)
      nlinarith) (t := t)
    (fun k => by
      rw [step, ratio]
      push_cast
      field_simp) 80 0 unit (by simp [t])
  have tail := partialSum_close ((besselTerms hq0 hq7).1.hasSum.mul_left (unit : ℝ)) 80 (by
    intro k hk
    show |t (k + 1)| ≤ |t k| / 2
    rw [step, abs_mul, div_eq_mul_inv]
    refine mul_le_mul_of_nonneg_left ?_ (abs_nonneg _)
    rw [abs_of_nonneg (by positivity)]
    have den : (80 : ℝ) ≤ (k + 1) * (k + 1) := by
      have : (80 : ℝ) ≤ k := by exact_mod_cast hk
      nlinarith
    calc q / ((k + 1) * (k + 1)) ≤ 7 / 80 := by gcongr
      _ ≤ 2⁻¹ := by norm_num)
  have last : 2 * |(unit : ℝ) * (q ^ 80 / ((80).factorial : ℝ) ^ 2)| ≤ 1 := by
    rw [abs_of_nonneg (by positivity)]
    calc 2 * ((unit : ℝ) * (q ^ 80 / ((80).factorial : ℝ) ^ 2)) ≤ 2 * ((unit : ℝ) * (7 ^ 80 / ((80).factorial : ℝ) ^ 2)) := by
          gcongr
      _ ≤ 1 := by norm_num [unit_eq, Nat.factorial]
  simp only [zero_add] at series
  unfold window
  refine ((abs_sub_le _ _ _).trans (add_le_add series (tail.trans last))).trans ?_
  norm_num

/-! ### One tap before the normalisation -/

/-- A quotient of products of nearby numbers is near. -/
theorem quotient_close {u α a σ b ϖ p x : ℝ} (hu : 2 ^ 20 ≤ u) (hα0 : 0 ≤ α) (hα : α ≤ 2200) (ha : |a| ≤ 2 ^ 20)
    (hσ : |σ| ≤ 1) (hb : |b| ≤ 2 ^ 15) (hϖ : 3 ≤ ϖ) (hϖ4 : ϖ ≤ 4) (hp : |p| ≤ 2 ^ 14) (hx0 : 0 ≤ x) (hx : x ≤ 16) :
    |(u * α + a) * (u * σ + b) * x / (u * ϖ + p) - u * (α * (σ * x / ϖ))| ≤ 2 ^ 40 := by
  have hu0 : 0 < u := lt_of_lt_of_le (by norm_num) hu
  have den : u ≤ u * ϖ + p := by nlinarith [(abs_le.1 hp).1]
  have den0 : 0 < u * ϖ + p := hu0.trans_le den
  have eq : (u * α + a) * (u * σ + b) * x / (u * ϖ + p) - u * (α * (σ * x / ϖ)) =
      (u * (α * b * ϖ) + u * (a * σ * ϖ) + a * b * ϖ - u * (α * σ * p)) * x / ((u * ϖ + p) * ϖ) := by
    field_simp
    ring
  have n1 : |u * (α * b * ϖ)| ≤ u * (2200 * 2 ^ 15 * 4) := by
    rw [abs_mul, abs_mul, abs_mul, abs_of_pos hu0, abs_of_nonneg hα0, abs_of_nonneg (by linarith : (0:ℝ) ≤ ϖ)]
    gcongr
  have n2 : |u * (a * σ * ϖ)| ≤ u * (2 ^ 20 * 1 * 4) := by
    rw [abs_mul, abs_mul, abs_mul, abs_of_pos hu0, abs_of_nonneg (by linarith : (0:ℝ) ≤ ϖ)]
    gcongr
  have n3 : |a * b * ϖ| ≤ u * (2 ^ 15 * 4) := by
    rw [abs_mul, abs_mul, abs_of_nonneg (by linarith : (0:ℝ) ≤ ϖ)]
    calc |a| * |b| * ϖ ≤ 2 ^ 20 * 2 ^ 15 * 4 := by gcongr
      _ ≤ u * (2 ^ 15 * 4) := by linarith
  have n4 : |u * (α * σ * p)| ≤ u * (2200 * 1 * 2 ^ 14) := by
    rw [abs_mul, abs_mul, abs_mul, abs_of_pos hu0, abs_of_nonneg hα0]
    gcongr
  have num : |u * (α * b * ϖ) + u * (a * σ * ϖ) + a * b * ϖ - u * (α * σ * p)| ≤ u * 2 ^ 30 := by
    rw [abs_le] at *
    constructor <;> linarith [n1.1, n1.2, n2.1, n2.2, n3.1, n3.2, n4.1, n4.2]
  rw [eq, abs_div, abs_mul, abs_of_nonneg hx0, abs_of_pos (by positivity : 0 < (u * ϖ + p) * ϖ), div_le_iff₀ (by positivity)]
  calc _ ≤ u * 2 ^ 30 * 16 := by gcongr
    _ ≤ 2 ^ 40 * (u * 3) := by linarith
    _ ≤ 2 ^ 40 * ((u * ϖ + p) * ϖ) := by gcongr

/-- The same for the quotient that `shape` takes in whole numbers. -/
theorem floorQuotient_close {u α σ ϖ : ℝ} {w p m j : ℕ} {s : ℤ} (hu : 2 ^ 20 ≤ u) (hα0 : 0 ≤ α) (hα : α ≤ 2200)
    (hw : |(w : ℝ) - u * α| ≤ 2 ^ 20) (hσ : |σ| ≤ 1) (hs : |(s : ℝ) - u * σ| ≤ 2 ^ 15) (hϖ : 3 ≤ ϖ) (hϖ4 : ϖ ≤ 4)
    (hp : |(p : ℝ) - u * ϖ| ≤ 2 ^ 14) (hm : 0 < m) (hm16 : m ≤ 16) (hj : 0 < j) :
    |(((w : ℤ) * s * m / (p * j : ℕ) : ℤ) : ℝ) - u * (α * (σ / (ϖ * (j / m))))| ≤ 2 ^ 45 := by
  have hm' : (0 : ℝ) < m := by exact_mod_cast hm
  have hj' : (1 : ℝ) ≤ j := by exact_mod_cast hj
  have hp0 : (0 : ℝ) < p := by nlinarith [(abs_le.1 hp).1]
  have ppos : 0 < p := by exact_mod_cast hp0
  have floor := intDiv_close (a := (w : ℤ) * s * m) (b := ((p * j : ℕ) : ℤ)) (by exact_mod_cast Nat.mul_pos ppos hj)
  have near := quotient_close (x := (m : ℝ) / j) hu hα0 hα hw hσ hs hϖ hϖ4 hp (by positivity)
    (by
      rw [div_le_iff₀ (by linarith)]
      have : (m : ℝ) ≤ 16 := by exact_mod_cast hm16
      linarith)
  simp only [add_sub_cancel] at near
  have eq1 : ((((w : ℤ) * s * m : ℤ) : ℝ) / (((p * j : ℕ) : ℤ) : ℝ)) = w * s * (m / j) / p := by
    push_cast
    field_simp
  have eq2 : σ / (ϖ * (j / m)) = σ * (m / j) / ϖ := by
    field_simp
  rw [eq1] at floor
  rw [eq2]
  exact ((abs_sub_le _ _ _).trans (add_le_add floor near)).trans (by norm_num)

/-- sin(π·j/m), folded to the first m points. -/
theorem sin_fold {m : ℕ} (hm : 0 < m) (j : ℕ) :
    Real.sin (Real.pi * (j / m)) =
      (if j / m % 2 = 0 then 1 else -1) * Real.sin (Real.pi * (j % m : ℕ) / m) := by
  have hm' : (0 : ℝ) < m := by exact_mod_cast hm
  have split : Real.pi * (j / m : ℝ) = Real.pi * (j % m : ℕ) / m + (j / m : ℕ) * Real.pi := by
    have : (j : ℝ) = m * (j / m : ℕ) + (j % m : ℕ) := by exact_mod_cast (Nat.div_add_mod j m).symm
    field_simp
    linarith
  rw [split, Real.sin_add_nat_mul_pi]
  congr 1
  split
  · next h => exact (Nat.even_iff.2 h).neg_one_pow
  · next h => exact (Nat.odd_iff.2 (by omega)).neg_one_pow

/-- `shape` is c(j)·I0(β) of R186 in fixed point, within 2^-275. -/
theorem shape_close {m j : ℕ} (hm : 2 ≤ m) (hm16 : m ≤ 16) (hj : j ≤ 10 * m) {q : ℝ}
    (hq : q = 25 / 4 * (1 - ((j : ℝ) / (10 * m : ℕ)) ^ 2)) :
    |(shape m j : ℝ) - unit * ((∑' k : ℕ, q ^ k / (k.factorial : ℝ) ^ 2) *
      if j = 0 then 1 else Real.sin (Real.pi * (j / m)) / (Real.pi * (j / m)))| ≤ 2 ^ 45 := by
  have hm' : (0 : ℝ) < m := by exact_mod_cast (by omega : 0 < m)
  have hw := window_close (n := 10 * m) (by omega) hj hq
  have hp := pi_close
  unfold shape
  by_cases h0 : j = 0
  · simp only [h0, if_true, mul_one] at *
    exact_mod_cast hw.trans (by norm_num)
  · have hj0 : (0 : ℝ) < j := by exact_mod_cast Nat.pos_of_ne_zero h0
    simp only [h0, if_false]
    by_cases hz : j % m = 0
    · simp only [hz, if_true]
      have : Real.sin (Real.pi * (j / m)) = 0 := by
        rw [sin_fold (by omega), hz]
        simp
      rw [this]
      norm_num
    · simp only [hz, if_false]
      obtain ⟨g, hgdef⟩ : ∃ g : ℤ, g = if j / m % 2 = 0 then 1 else -1 := ⟨_, rfl⟩
      have hs := sinPi_close (m := m) (r := j % m) (by omega) (Nat.mod_lt _ (by omega)).le
      have hg : |(g : ℝ)| = 1 := by
        rw [hgdef]
        split <;> simp
      have hs' : |((g * sinPi m (j % m) : ℤ) : ℝ) - unit * Real.sin (Real.pi * (j / m))| ≤ 2 ^ 15 := by
        have : Real.sin (Real.pi * (j / m)) = g * Real.sin (Real.pi * (j % m : ℕ) / m) := by
          rw [sin_fold (by omega)]
          rw [hgdef]
          split <;> simp
        rw [this, Int.cast_mul, mul_left_comm, ← mul_sub, abs_mul, hg, one_mul]
        exact hs
      have sign : (if j / m % 2 = 0 then sinPi m (j % m) else -sinPi m (j % m)) = g * sinPi m (j % m) := by
        rw [hgdef]
        split <;> simp
      rw [sign]
      have hjm : (j : ℝ) / (10 * m : ℕ) ≤ 1 := by
        rw [div_le_one (by positivity)]
        exact_mod_cast hj
      have hq0 : 0 ≤ q := by
        have : ((j : ℝ) / (10 * m : ℕ)) ^ 2 ≤ 1 := pow_le_one₀ (by positivity) hjm
        rw [hq]
        linarith
      have bound := besselTerms hq0 (by
        have : 0 ≤ ((j : ℝ) / (10 * m : ℕ)) ^ 2 := by positivity
        rw [hq]
        linarith)
      exact floorQuotient_close (by norm_num [unit_eq]) (tsum_nonneg fun k => by positivity) bound.2 hw
        (Real.abs_sin_le_one _) hs' Real.pi_gt_three.le Real.pi_lt_four.le hp (by omega) hm16 (Nat.pos_of_ne_zero h0)

/-! ### All the taps -/

/-- A sum from -n to n, taken from the middle outwards. -/
theorem sum_symm (f : ℤ → ℝ) (n : ℕ) :
    ∑ i ∈ Finset.Icc (-(n : ℤ)) n, f i = f 0 + ∑ j ∈ Finset.range n, (f (j + 1 : ℕ) + f (-(j + 1 : ℕ))) := by
  induction n with
  | zero => simp
  | succ n ih =>
    have grow : Finset.Icc (-((n + 1 : ℕ) : ℤ)) ((n + 1 : ℕ) : ℤ) =
        insert ((n + 1 : ℕ) : ℤ) (insert (-((n + 1 : ℕ) : ℤ)) (Finset.Icc (-(n : ℤ)) n)) := by
      ext i
      simp only [Finset.mem_insert, Finset.mem_Icc]
      omega
    rw [grow, Finset.sum_insert (by simp only [Finset.mem_insert, Finset.mem_Icc]; omega),
      Finset.sum_insert (by simp only [Finset.mem_Icc]; omega), ih, Finset.sum_range_succ]
    ring

theorem kaiserSinc_even {m : ℕ} {I0 : ℝ → ℝ} {w c : ℤ → ℝ} (h : KaiserSinc m I0 w c) (j : ℤ) : c (-j) = c j := by
  rw [h.shape, h.shape, h.window, h.window]
  simp only [Int.cast_neg, neg_div, neg_eq_zero, mul_neg, Real.sin_neg, div_neg, neg_neg, neg_sq]

theorem kaiserSinc_bessel_pos {m : ℕ} {I0 : ℝ → ℝ} {w c : ℤ → ℝ} (h : KaiserSinc m I0 w c) : 0 < I0 5 := by
  have eq : ∀ k : ℕ, (((5 : ℝ) / 2) ^ k / (k.factorial : ℝ)) ^ 2 = (25 / 4) ^ k / (k.factorial : ℝ) ^ 2 :=
    besselTerm_eq (by norm_num)
  rw [h.bessel]
  simp only [eq]
  exact (besselTerms (by norm_num) (by norm_num)).1.tsum_pos (fun k => by positivity) 0 (by simp)

/-- `shape` is c(j)·I0(β) of 42_rssi.md R186 in fixed point, within 2^-275. -/
theorem shape_close_kaiserSinc {m j : ℕ} (hm : 2 ≤ m) (hm16 : m ≤ 16) (hj : j ≤ 10 * m) {I0 : ℝ → ℝ} {w c : ℤ → ℝ}
    (h : KaiserSinc m I0 w c) : |(shape m j : ℝ) - unit * (I0 5 * c j)| ≤ 2 ^ 45 := by
  have hm' : (0 : ℝ) < m := by exact_mod_cast (by omega : 0 < m)
  have close := shape_close hm hm16 hj rfl
  have root : (5 * √(1 - ((j : ℝ) / (10 * m : ℕ)) ^ 2) / 2) ^ 2 = 25 / 4 * (1 - ((j : ℝ) / (10 * m : ℕ)) ^ 2) := by
    have : (j : ℝ) / (10 * m : ℕ) ≤ 1 := by
      rw [div_le_one (by positivity)]
      exact_mod_cast hj
    have : ((j : ℝ) / (10 * m : ℕ)) ^ 2 ≤ 1 := pow_le_one₀ (by positivity) this
    rw [div_pow, mul_pow, Real.sq_sqrt (by linarith)]
    ring
  have cancel : I0 5 * c j = I0 (5 * √(1 - ((j : ℝ) / (10 * m : ℕ)) ^ 2)) *
      if j = 0 then 1 else Real.sin (Real.pi * (j / m)) / (Real.pi * (j / m)) := by
    have := (kaiserSinc_bessel_pos h).ne'
    rw [h.shape, h.window, ← mul_assoc, mul_div_cancel₀ _ this]
    push_cast
    simp only [Nat.cast_eq_zero]
  rw [cancel, h.bessel]
  simpa only [besselTerm_eq root] using close

theorem list_sum_map_range (f : ℕ → ℤ) (n : ℕ) : ((List.range n).map f).sum = ∑ j ∈ Finset.range n, f j := by
  induction n with
  | zero => rfl
  | succ n ih => rw [List.range_succ, List.map_append, List.sum_append, ih, Finset.sum_range_succ]; simp

theorem total_halfShape (m : ℕ) :
    total (halfShape m) = shape m 0 + ∑ j ∈ Finset.range (10 * m), 2 * shape m (j + 1) := by
  rw [halfShape, List.range_succ_eq_map, List.map_cons, total, List.map_map, ← Finset.mul_sum, list_sum_map_range]
  rfl

/-- `total` is the sum of all c(i)·I0(β) of 42_rssi.md R186 in fixed point, within 2^-260. -/
theorem total_close_kaiserSinc {m : ℕ} (hm : 2 ≤ m) (hm16 : m ≤ 16) {I0 : ℝ → ℝ} {w c : ℤ → ℝ} (h : KaiserSinc m I0 w c) :
    |(total (halfShape m) : ℝ) - unit * (I0 5 * ∑ i ∈ Finset.Icc (-(10 * m : ℤ)) (10 * m), c i)| ≤ 2 ^ 60 := by
  have sum := sum_symm c (10 * m)
  simp only [kaiserSinc_even h, ← two_mul] at sum
  push_cast at sum
  rw [sum, total_halfShape]
  push_cast
  have diff : (shape m 0 : ℝ) + ∑ j ∈ Finset.range (10 * m), 2 * (shape m (j + 1) : ℝ) -
      unit * (I0 5 * (c 0 + ∑ j ∈ Finset.range (10 * m), 2 * c (j + 1))) =
      (shape m 0 - unit * (I0 5 * c 0)) +
        ∑ j ∈ Finset.range (10 * m), 2 * ((shape m (j + 1) : ℝ) - unit * (I0 5 * c (j + 1))) := by
    rw [mul_add, mul_add, Finset.mul_sum, Finset.mul_sum, add_sub_add_comm, ← Finset.sum_sub_distrib]
    congr 1
    refine Finset.sum_congr rfl fun j _ => ?_
    ring
  have first := shape_close_kaiserSinc hm hm16 (Nat.zero_le _) h
  have rest : |∑ j ∈ Finset.range (10 * m), 2 * ((shape m (j + 1) : ℝ) - unit * (I0 5 * c (j + 1)))| ≤ 160 * 2 ^ 46 := by
    refine (Finset.abs_sum_le_sum_abs _ _).trans ?_
    refine (Finset.sum_le_card_nsmul _ _ (2 ^ 46) fun j hj => ?_).trans ?_
    · have := shape_close_kaiserSinc hm hm16 (j := j + 1) (by have := Finset.mem_range.1 hj; omega) h
      push_cast at this
      rw [abs_mul, abs_two]
      linarith
    · rw [Finset.card_range, nsmul_eq_mul]
      have : ((10 * m : ℕ) : ℝ) ≤ 160 := by exact_mod_cast (by omega : 10 * m ≤ 160)
      gcongr
  rw [diff]
  push_cast at first
  exact (abs_add_le _ _).trans ((add_le_add first rest).trans (by norm_num))

/-! ### Rounding between two numbers -/

theorem abs_sub_le_abs_sub_iff (x y r : ℝ) : |x - r| ≤ |y - r| ↔ (x - y) * (x + y - 2 * r) ≤ 0 := by
  rw [← sq_le_sq, ← sub_nonpos]
  ring_nf

theorem abs_sub_eq_abs_sub_iff (x y r : ℝ) : |x - r| = |y - r| ↔ (x - y) * (x + y - 2 * r) = 0 := by
  rw [← sq_eq_sq_iff_abs_eq_abs, ← sub_eq_zero]
  ring_nf

/-- What two numbers round to, every number between them rounds to. -/
theorem isRounded_between {r1 r r2 : ℝ} {x : F64} (h1 : IsRounded r1 x) (h2 : IsRounded r2 x) (l1 : r1 ≤ r) (l2 : r ≤ r2)
    (b1 : |r1| < 2 ^ 1024 - 2 ^ 970) (b2 : |r2| < 2 ^ 1024 - 2 ^ 970) : IsRounded r x := by
  have b := (abs_le_max_abs_abs l1 l2).trans_lt (max_lt b1 b2)
  refine ⟨fun h => absurd b (not_lt.2 h), fun _ => h1.finite b1, fun _ y hy => ?_, fun _ y hy eq ne => ?_⟩
  · have n1 := (abs_sub_le_abs_sub_iff _ _ _).1 (h1.nearest b1 y hy)
    have n2 := (abs_sub_le_abs_sub_iff _ _ _).1 (h2.nearest b2 y hy)
    rw [abs_sub_le_abs_sub_iff]
    rcases le_total (F64.value x : ℝ) (F64.value y) with s | s
    · exact (mul_le_mul_of_nonpos_left (by linarith) (sub_nonpos.2 s)).trans n2
    · exact (mul_le_mul_of_nonneg_left (by linarith) (sub_nonneg.2 s)).trans n1
  · have mid : (F64.value x : ℝ) + F64.value y = 2 * r := by
      have := (mul_eq_zero.1 ((abs_sub_eq_abs_sub_iff _ _ _).1 eq)).resolve_left (sub_ne_zero.2 (by exact_mod_cast ne))
      linarith
    rcases lt_or_gt_of_ne ne with s | s
    · have s' : (F64.value x : ℝ) - F64.value y < 0 := sub_neg.2 (by exact_mod_cast s)
      have n2 := nonneg_of_mul_nonpos_right ((abs_sub_le_abs_sub_iff _ _ _).1 (h2.nearest b2 y hy)) s'
      obtain rfl : r = r2 := le_antisymm l2 (by linarith)
      exact h2.tiesToEven b2 y hy eq ne
    · have s' : 0 < (F64.value x : ℝ) - F64.value y := sub_pos.2 (by exact_mod_cast s)
      have n1 := nonpos_of_mul_nonpos_right ((abs_sub_le_abs_sub_iff _ _ _).1 (h1.nearest b1 y hy)) s'
      obtain rfl : r1 = r := le_antisymm l1 (by linarith)
      exact h1.tiesToEven b1 y hy eq ne

end Sys2Proof.Taps
end

