-- ==== Sys2Proof/Tests/Slice0.lean ====
section
/-! SUPPORT. Tests. Expected values come from 95_test_vectors.md (the vector is named), from hand calculation, or from the map of
30_encoding.md R111. Vectors that depend on values of NUM which are open are not tested here. -/

namespace Sys2Proof.Tests

-- The tests are elaborated in turn: a kernel `decide` waits for everything before it, and would wait in a thread of its own.
set_option Elab.async false

open Sys2Proof.Machine Sys2Proof.Safety

/-- The state a step answers, or the given one where it stops. -/
def stateOr (d : State) : Host.Outcome State Fault Refusal → State
  | .next t => t
  | .fault _ => d
  | .refused _ => d

/-- The state after the command word w is accepted and executed from s. -/
def runWord (s : State) (w : Nat) : State := stateOr s (step (s.withFetchWord 32 w))

/-- The answer to host 0's transaction t in state s, given when nothing holds. -/
def answerTo (s : State) (t : Txn) : Option Answer := (perform Config.params s ⟨0, t⟩).replies.head?.map Reply.answer

/-- The state after host 0's transaction t. -/
def afterTxn (s : State) (t : Txn) : State := perform Config.params s ⟨0, t⟩

/-! ### Well-formedness refuses what is ill-formed -/

theorem test_reserved_bits_refused : reservedZero 0x00000101#32 = false := by decide

theorem test_unknown_opcode_refused : opcodeKnown 0x00000004#32 = false := by decide

theorem test_ill_formed_words_refused :
    wordWellFormed 0x00000101#32 = false ∧ wordWellFormed 0x000000FF#32 = false := by decide

theorem test_sram_size_refused :
    ({ Config.params with sramBytes := 12 }).sramLegal = false ∧ ({ Config.params with sramBytes := 0 }).sramLegal = false ∧
      ({ Config.params with sramBytes := 2 ^ 31 + 8 }).sramLegal = false := by decide

theorem test_max_decim_refused :
    ({ Config.params with rssiMaxDecim := 0 }).maxDecimLegal = false ∧
      ({ Config.params with rssiMaxDecim := 2 ^ 16 + 1 }).maxDecimLegal = false := by decide

theorem test_floor_refused :
    ({ Config.params with rssiPFloor := 0#64 }).floorLegal = false ∧
      ({ Config.params with rssiPFloor := F64.posInf }).floorLegal = false ∧
      ({ Config.params with rssiPFloor := 0xBFF0000000000000#64 }).floorLegal = false := by decide +kernel

theorem test_coef_refused :
    ({ Config.params with rssiCoef := fun _ => [F64.one] }).coefLegal 2 = false ∧
      ({ Config.params with rssiCoef := fun _ => F64.one :: List.replicate 40 0#64 }).coefLegal 2 = false := by
  decide +kernel

/-! ### Decoding: each command's word written out bit by bit from 30_encoding.md R111 -/

theorem test_decode_nop : decode 0b00000000000000000000000000000000#32 = .ok .nop := by decide

theorem test_decode_nco_build : decode 0b00000000000000000000000000000001#32 = .ok .ncoBuild := by decide

theorem test_decode_nco_produce : decode 0b00000000000000000000000000000010#32 = .ok .ncoProduce := by decide

theorem test_decode_nco_release : decode 0b00000000000000000000000000000011#32 = .ok .ncoRelease := by decide

theorem test_decode_rssi_run : decode 0b00000000000000000000000000010000#32 = .ok .rssiRun := by decide

theorem test_decode_noise_seed : decode 0b00000000000000000000000000100000#32 = .ok .noiseSeed := by decide

theorem test_decode_noise_apply : decode 0b00000000000000000000000000100001#32 = .ok .noiseApply := by decide

theorem test_decode_rejects :
    decode 0x00000101#32 = .error .reservedNonzero ∧ decode 0x80000000#32 = .error .reservedNonzero ∧
      decode 0x00000004#32 = .error (.unknownOpcode 0x04#8) ∧ decodeTableWord 32 0xFF = none ∧
      decodeTableWord 32 0x21 = some .noiseApply := by decide

/-! ### Arithmetic: well-known binary64 results, and the exact vectors of 41_nco.md R164 -/

/-- 0.1 + 0.2, 1/3, sqrt 2, and 0.1 in binary32. -/
theorem test_rounding :
    F64.add 0x3FB999999999999A#64 0x3FC999999999999A#64 = 0x3FD3333333333334#64 ∧
      F64.div F64.one 0x4008000000000000#64 = 0x3FD5555555555555#64 ∧
      F64.sqrt 0x4000000000000000#64 = 0x3FF6A09E667F3BCD#64 ∧
      F64.toF32 0x3FB999999999999A#64 = 0x3DCCCCCD#32 ∧
      F64.mul 0x7FE0000000000000#64 0x4000000000000000#64 = F64.posInf := by decide +kernel

/-- Signs of zero (00_scope.md R11): 1 - 1 = +0, (-0) + (-0) = -0, 0 × (-1) = -0, sqrt (-0) = -0. -/
theorem test_signed_zeros :
    F64.sub F64.one F64.one = 0#64 ∧ F64.add (1#64 <<< 63) (1#64 <<< 63) = 1#64 <<< 63 ∧
      F64.mul 0#64 0xBFF0000000000000#64 = 1#64 <<< 63 ∧ F64.sqrt (1#64 <<< 63) = 1#64 <<< 63 := by decide +kernel

/-- V-NCO-8. -/
theorem test_mod2pi :
    [0x0000000000000000#64, 0x8000000000000000#64, 0x401921FB54442D18#64, 0xBC30000000000000#64, 0xBFF0000000000000#64,
        0x401C000000000000#64, 0xC01921FB54442D18#64, 0x4033597C7F3321D2#64, 0x412E848000000000#64].map F64.mod2Pi =
      [0#64, 0#64, 0#64, 0#64, 0x401521FB54442D18#64, 0x3FE6F0255DDE9740#64, 0#64, 0x3FE0000000000000#64,
        0x4017B3D607356D50#64] := by decide +kernel

/-! ### Registers and the bus (V-CTL-5 to V-CTL-13) -/

/-- V-CTL-5: a write while a command is pending is dropped. -/
theorem test_busy_write_dropped :
    (afterTxn (accept State.reset 0#32) (.write 32 0x038 5#32)).ncoChunk = 0#32 ∧
      statusWord (stateOr State.reset (engineStep (afterTxn (accept State.reset 0#32) (.write 32 0x038 5#32)))) =
        0x00000006#32 := by decide

/-- V-CTL-6. -/
theorem test_busy_command_dropped :
    (afterTxn (accept State.reset 0#32) (.write 32 0x010 1#32)).cmd = 0#32 ∧
      (afterTxn (accept State.reset 0#32) (.write 32 0x010 1#32)).pending = some 0#32 := by decide

/-- V-CTL-7, V-CTL-8. -/
theorem test_status_write :
    statusWord (afterTxn { State.reset with done := true, busyViol := true } (.write 32 0x00C 2#32)) = 4#32 ∧
      statusWord (afterTxn { State.reset with done := true, busyViol := true } (.write 32 0x00C 0xFFFFFFF9#32)) = 6#32 := by
  decide

/-- V-CTL-9. -/
theorem test_bus_errors :
    answerTo State.reset (.write 32 0x1000 0#32) = some .error ∧ answerTo State.reset (.write 32 0x0002 0#32) = some .error ∧
      answerTo State.reset (.read 32 0x20000) = some .error ∧ answerTo State.reset (.read 16 0x000) = some .error := by
  decide

/-- V-CTL-10, V-CTL-11. -/
theorem test_constant_registers :
    answerTo State.reset (.read 32 0x0FC) = some (.okData 0#32) ∧
      answerTo State.reset (.read 32 0x000) = some (.okData 0x4E434F31#32) ∧
      answerTo State.reset (.read 32 0x004) = some (.okData 0x00010000#32) := by decide

/-- V-CTL-12: a soft reset aborts a pending NCO_PRODUCE; a byte of its destination becomes a free value. -/
theorem test_soft_reset_aborts :
    let s := { State.reset with nco := { Nco.none with valid := true, chunk := 1#32 }, pending := some 2#32 }
    (afterTxn s (.write 32 0x008 2#32)).nco = Nco.none ∧ (afterTxn s (.write 32 0x008 2#32)).pending = none ∧
      Ram.read (afterTxn s (.write 32 0x008 2#32)).ram 7 = some (Config.freeByte 7) ∧
      Ram.read (afterTxn s (.write 32 0x008 2#32)).ram 8 = none := by
  exact ⟨rfl, rfl, rfl, rfl⟩

/-- V-CTL-13. -/
theorem test_irq :
    irq (runWord State.reset 0) = false ∧ irq (afterTxn (runWord State.reset 0) (.write 32 0x008 1#32)) = true ∧
      irq (afterTxn (afterTxn (runWord State.reset 0) (.write 32 0x008 1#32)) (.write 32 0x00C 2#32)) = false := by decide

/-- 20_memory.md R84: little-endian bytes. -/
theorem test_ram_little_endian :
    (afterTxn State.reset (.write 32 0x10004 0x11223344#32)).ram = [(4, 0x44#8), (5, 0x33#8), (6, 0x22#8), (7, 0x11#8)] ∧
      answerTo (afterTxn State.reset (.write 32 0x10004 0x11223344#32)) (.read 32 0x10004) =
        some (.okData 0x11223344#32) := by decide

/-- 20_memory.md R87: a sample-RAM access holds until the completion and then acts first. -/
theorem test_ram_access_waits :
    let s := { accept State.reset 0#32 with schedule := [.bus ⟨3, .write 32 0x10000 1#32⟩, .engine] }
    (stateOr s (step s)).held = [⟨3, .write 32 0x10000 1#32⟩] ∧
      (stateOr s (step (stateOr s (step (stateOr s (step s)))))).replies = [⟨3, .write 32 0x10000 1#32, .ok⟩] := by decide

/-- 70_reset_and_hazards.md R402: after a soft reset every access that held acts before a CMD write queued behind one of them. -/
theorem test_soft_reset_releases_all :
    let s := { accept State.reset 0#32 with
      held := [⟨1, .write 32 0x10000 1#32⟩, ⟨2, .write 32 0x10004 2#32⟩], queued := [⟨1, .write 32 0x010 3#32⟩]
      schedule := [.bus ⟨0, .write 32 0x008 2#32⟩] }
    let t := stateOr s (step (stateOr s (step (stateOr s (step s)))))
    t.ram.length = 8 ∧ t.held = [] ∧ t.pending = none ∧ (stateOr s (step t)).pending = some 3#32 := by decide

/-- 70_reset_and_hazards.md R400: a bus transaction in reset is refused. -/
theorem test_bus_in_reset_refused :
    step { State.reset with rstN := false, schedule := [.bus ⟨3, .read 32 0⟩] } = .refused (.busWhileReset 3) := rfl

/-! ### Commands -/

/-- V-CTL-1. -/
theorem test_nop : statusWord (runWord State.reset 0) = 0x00000002#32 ∧ (runWord State.reset 0).cmd = 0#32 := by decide

/-- V-CTL-2, V-CTL-3, V-CTL-4. -/
theorem test_illegal_words :
    statusWord (runWord State.reset 0x004) = 0x00000102#32 ∧ (runWord State.reset 0x004).cmd = 0x00000004#32 ∧
      statusWord (runWord State.reset 0x101) = 0x00000102#32 ∧ statusWord (runWord State.reset 0x0FF) = 0x00000102#32 := by
  decide

/-- The staged registers of V-NCO-2: A = 1.0, f = -800e3, fs = 1e6, N = 8. -/
def toneStaged : State :=
  { State.reset with
    ncoAmp := F64.one, ncoFreq := 0xC1286A0000000000#64, ncoRate := 0x412E848000000000#64, ncoChunk := 8#32 }

/-- V-NCO-2: the phase increment; V-NCO-9: NCO_VALID, and BAD_PARAM for fs = -1e6. -/
theorem test_nco_build :
    (runWord toneStaged 1).nco = ⟨true, F64.one, 0xC0141B2F769CF0E0#64, 0#64, 8#32, 0#32⟩ ∧
      statusWord (runWord toneStaged 1) = 0x0000000A#32 := by decide +kernel

theorem test_nco_build_rejects :
    statusWord (runWord { toneStaged with ncoRate := 0xC12E848000000000#64 } 1) = 0x00000302#32 ∧
      statusWord (runWord { toneStaged with ncoChunk := 8193#32 } 1) = 0x00000302#32 := by decide +kernel

/-- V-NCO-4, exact: A = 2.5, f = 0, N = 3. V-NCO-2: the accumulator after chunk 0. -/
theorem test_nco_produce :
    let t := runWord (runWord { toneStaged with ncoAmp := 0x4004000000000000#64, ncoFreq := 0#64, ncoChunk := 3#32 } 1) 2
    t.nco.phase = 0#64 ∧ t.nco.count = 1#32 ∧
      (drawSamples t.ram 0 0 3).1 = [(0x40200000#32, 0#32), (0x40200000#32, 0#32), (0x40200000#32, 0#32)] ∧
      (runWord (runWord toneStaged 1) 2).nco.phase = 0x400E28C731EB6950#64 := by decide +kernel

/-- V-NCO-9: NOT_BUILT, BAD_RANGE at d = 4 and at d = 65536 - 56, and no failure at d = 65536 - 64. -/
theorem test_nco_produce_rejects :
    statusWord (runWord State.reset 2) = 0x00000202#32 ∧
      (runWord { runWord toneStaged 1 with ncoDst := 4#32 } 2).err = .badRange ∧
      (runWord { runWord toneStaged 1 with ncoDst := 65480#32 } 2).err = .badRange ∧
      (runWord { runWord toneStaged 1 with ncoDst := 65472#32 } 2).err = .ok := by decide +kernel

/-- V-NCO-11. -/
theorem test_nco_release :
    (runWord (runWord toneStaged 1) 3).nco = Nco.none ∧ (runWord (runWord (runWord toneStaged 1) 3) 2).err = .notBuilt := by
  decide +kernel

/-- Some taps of V-RSSI-6: h_2 at 0, 1, 2, 3, 19, 20; and h_3(0). -/
theorem test_taps :
    (Taps.defaultCoef 2)[20]? = some 0x3FE0021E9B749668#64 ∧ (Taps.defaultCoef 2)[21]? = some 0x3FD444D186D50AD7#64 ∧
      (Taps.defaultCoef 2)[22]? = some 0#64 ∧ (Taps.defaultCoef 2)[17]? = some 0xBFB9D68FB900890A#64 ∧
      (Taps.defaultCoef 2)[39]? = some 0xBF513A2342ABBC76#64 ∧ (Taps.defaultCoef 2)[0]? = some 0#64 ∧
      (Taps.defaultCoef 3)[30]? = some 0x3FD558A4D34C91AF#64 := by decide +kernel

/-- One sample (5, 5), of power 50, so of 10·log10(1) + 30 = 30 dBm. -/
def oneSample : State :=
  { State.reset with
    ram := Ram.writeWords [] 0 [0x40A00000#32, 0x40A00000#32]
    rssiLen := 1#32, rssiDst := 8#32, rssiDecim := 1#32 }

/-- By hand: M = 1 gives 30.0; M = 2 gives h_2(0) × 30 = 15.00776.. (42_rssi.md R187: the other taps fall outside). -/
theorem test_rssi_run :
    (drawWord (runWord oneSample 0x10).ram 0 8).1 = 0x41F00000#32 ∧ (runWord oneSample 0x10).rssiOutlen = 1#32 ∧
      (drawWord (runWord { oneSample with rssiDecim := 2#32 } 0x10).ram 0 8).1 = 0x41701FCB#32 := by decide +kernel

/-- V-RSSI-11: M = 17, dst = 2, an overlapping output, and L = 0 with src = 4. -/
theorem test_rssi_run_rejects :
    (runWord { oneSample with rssiDecim := 17#32 } 0x10).err = .badParam ∧
      (runWord { oneSample with rssiDst := 2#32 } 0x10).err = .badRange ∧
      (runWord { oneSample with rssiDst := 4#32 } 0x10).err = .overlap ∧
      (runWord { oneSample with rssiLen := 0#32, rssiSrc := 4#32 } 0x10).err = .badParam := by decide +kernel

/-- V-NOISE-1, seed 0x0123456789ABCDEF. -/
theorem test_prng :
    [1, 2, 3, 4].map (fun n => prngMix (prngAdvance n 0x0123456789ABCDEF#64)) =
      [0x157A3807A48FAA9D#64, 0xD573529B34A1D093#64, 0x2F90B72E996DCCBE#64, 0xA2D419334C4667EC#64] ∧
      prngAdvance 4 0x0123456789ABCDEF#64 = 0x7A012C4D86D5BE43#64 := by decide +kernel

/-- V-NOISE-2. -/
theorem test_noise_seed :
    (runWord { State.reset with noiseSeed := 0x0123456789ABCDEF#64 } 0x20).prng = 0x0123456789ABCDEF#64 ∧
      statusWord (runWord { State.reset with noiseSeed := 0x0123456789ABCDEF#64 } 0x20) = 0x00000002#32 := by decide

/-- One zero sample at offset 0, in place, snr_dB = 0. -/
def zeroSample : State := { State.reset with ram := Ram.writeWords [] 0 [0#32, 0#32], noiseLen := 1#32 }

/-- V-NOISE-5's rule by hand on one sample: E = 0, var = +0, and two draws are used although σ = 0. -/
theorem test_noise_apply :
    let t := runWord zeroSample 0x21
    t.err = .ok ∧ t.noiseVar = 0#64 ∧ t.prng = 0x3C6EF372FE94F82A#64 := by decide +kernel

/-- 43_noise.md R227 by hand: 1 + 0j made 1.5 + 0j has noise power 1/4 and SNR 4. -/
theorem test_measured_snr :
    measuredSnr [(0x3F800000#32, 0#32)] [(0x3FC00000#32, 0#32)] = 4 ∧
      noisySamples Config.num 0#64 7#64 [] = [] := by decide +kernel

/-- V-NOISE-10: R = 1.5, src = 4, an overlap, and a NaN sample. -/
theorem test_noise_apply_rejects :
    (runWord { zeroSample with noiseRate := 0x3FF8000000000000#64 } 0x21).err = .badParam ∧
      (runWord { zeroSample with noiseSrc := 4#32 } 0x21).err = .badRange ∧
      (runWord { zeroSample with noiseLen := 4#32, noiseDst := 8#32 } 0x21).err = .overlap ∧
      (runWord { zeroSample with ram := Ram.writeWords [] 0 [0x7FC00000#32, 0#32] } 0x21).err = .badParam := by
  decide +kernel

/-! ### The host script (95_test_vectors.md P1) -/

theorem test_script_expansion :
    Stmt.expand (.wrf .ncoFreq true 800000 1) = [.write 32 0x028 0#32, .write 32 0x02C 0xC1286A00#32] ∧
      Stmt.expand (.run .ncoProduce 1) = [.write 32 0x010 2#32, .read 32 0x00C, .read 32 0x00C] ∧
      Stmt.expand (.wr (.reg .ncoDst) 64#32) = [.write 32 0x03C 0x40#32] := by decide +kernel

/-! ### Witnesses: for each statement with hypotheses, values that meet them all, one for each clause

The name after `witness_` is the statement's. -/

/-- Whether an outcome is a next state. -/
def answersNext : Host.Outcome State Fault Refusal → Bool
  | .next _ => true
  | .fault _ => false
  | .refused _ => false

theorem next_stateOr {o : Host.Outcome State Fault Refusal} (d : State) (h : answersNext o = true) :
    o = .next (stateOr d o) := by
  cases o <;> first | rfl | cases h

theorem witness_IllegalWordsOnlyReportIllegalCmd :
    (0x00000101#32).extractLsb' 8 24 ≠ 0#24 ∧
      (0x00000004#32).extractLsb' 0 8 ∉ [0x00#8, 0x01#8, 0x02#8, 0x03#8, 0x10#8, 0x20#8, 0x21#8] ∧
      State.reset.pending = none ∧ ∀ i : Instr, 0x00000004#32 ≠ encode i :=
  ⟨by decide, by decide, rfl, fun i => by cases i <;> decide⟩

theorem witness_StepRunsTheDecodedCommand :
    (accept State.reset 3#32).pending = some 3#32 ∧ decode 3#32 = .ok .ncoRelease ∧
      released (accept State.reset 3#32) = none ∧ (accept State.reset 3#32).schedule = [] ∧
      released { accept State.reset 3#32 with schedule := [.engine] } = none := by decide

/-- A command pending and two sample-RAM accesses waiting. -/
def crowded : State :=
  { accept State.reset 2#32 with held := [⟨1, .write 32 0x10000 5#32⟩, ⟨2, .write 32 0x10004 7#32⟩] }

/-- An endless run from `crowded` whose order of events is the engine's turn alone, so a fair one: the command, then the two
accesses that hold, then nothing more. -/
def crowdedRun : Nat → State
  | 0 => crowded
  | 1 => stateOr crowded (step crowded)
  | 2 => stateOr crowded (step (stateOr crowded (step crowded)))
  | _ + 3 => stateOr crowded (step (stateOr crowded (step (stateOr crowded (step crowded)))))

/-- How many events the run has taken: the two accesses that hold take none. -/
def crowdedTaken : Nat → Nat
  | 0 => 0
  | 1 => 1
  | 2 => 1
  | n + 3 => n + 1

theorem crowdedRun_step : ∀ n, answersNext (stepOn Config.params { crowdedRun n with schedule := [.engine] }) = true ∧
    crowdedRun (n + 1) =
      { stateOr State.reset (stepOn Config.params { crowdedRun n with schedule := [.engine] }) with schedule := [] }
  | 0 => by decide
  | 1 => by decide
  | 2 => by decide
  | n + 3 => by
    show answersNext (stepOn Config.params { crowdedRun 3 with schedule := [.engine] }) = true ∧
      crowdedRun 3 =
        { stateOr State.reset (stepOn Config.params { crowdedRun 3 with schedule := [.engine] }) with schedule := [] }
    decide

theorem crowdedRun_taken : ∀ n, (released (crowdedRun n) = none → crowdedTaken (n + 1) = crowdedTaken n + 1) ∧
    (released (crowdedRun n) ≠ none → crowdedTaken (n + 1) = crowdedTaken n)
  | 0 => by decide
  | 1 => by decide
  | 2 => by decide
  | n + 3 => ⟨fun _ => rfl, fun h => absurd (show released (crowdedRun 3) = none by decide) h⟩

theorem witness_PendingWorkDrains :
    crowded.rstN = true ∧ crowded.schedule = [] ∧ (crowdedRun 0).pending = some 2#32 ∧
      ⟨2, .write 32 0x10004 7#32⟩ ∈ (crowdedRun 0).held ∧ (∀ n, (crowdedRun n).rstN = true) ∧
      Fair (fun _ => .engine) ∧ OpenRun Config.params (fun _ => .engine) crowdedRun crowdedTaken :=
  ⟨by decide, by decide, by decide, by decide,
    fun n =>
      match n with
      | 0 => by decide
      | 1 => by decide
      | 2 => by decide
      | n + 3 => show (crowdedRun 3).rstN = true by decide,
    fun n => ⟨n, Nat.le_refl n, rfl⟩,
    ⟨fun n => ⟨_, next_stateOr State.reset (crowdedRun_step n).1, (crowdedRun_step n).2⟩,
      fun n => (crowdedRun_taken n).1, fun n => (crowdedRun_taken n).2⟩⟩

theorem witness_FailedCommandCommitsNothing :
    ∃ t, exec .ncoProduce State.reset = .next t ∧ t.err ≠ .ok :=
  ⟨_, next_stateOr State.reset (by decide), by decide⟩

theorem witness_CommandsWriteExactlyTheirOutput :
    ∃ t, exec .rssiRun oneSample = .next t ∧ t.err = .ok ∧ inRegion (destRegion oneSample (encode .rssiRun)) 11 :=
  ⟨_, next_stateOr State.reset (by decide +kernel), by decide +kernel, by constructor <;> decide⟩

theorem witness_NcoBuildInstallsStagedOscillator :
    F64.isFinite toneStaged.ncoAmp = true ∧ F64.isFinite toneStaged.ncoFreq = true ∧
      F64.isFinite toneStaged.ncoRate = true ∧ F64.lt 0#64 toneStaged.ncoRate = true ∧
      F64.isFinite (F64.div (F64.mul 0x401921FB54442D18#64 toneStaged.ncoFreq) toneStaged.ncoRate) = true ∧
      (1 ≤ (1#32).toNat ∧ (1#32).toNat ≤ 8192) ∧ (1 ≤ (8192#32).toNat ∧ (8192#32).toNat ≤ 8192) := by decide +kernel

theorem witness_NcoBuildRejectsBadParameters :
    F64.isFinite F64.posInf = false ∧ F64.isFinite 0x7FF8000000000000#64 = false ∧
      ¬ (F64.isFinite 0#64 = true ∧ F64.lt 0#64 0#64 = true) ∧
      ¬ (1 ≤ (0#32).toNat ∧ (0#32).toNat ≤ 8192) ∧ ¬ (1 ≤ (8193#32).toNat ∧ (8193#32).toNat ≤ 8192) ∧
      F64.isFinite (F64.div (F64.mul 0x401921FB54442D18#64 0x7FE1CCF385EBC8A0#64) 0x000730D67819E8D2#64) = false := by
  decide +kernel

/-- The oscillator of V-NCO-2, with the last buffer of 64 bytes as its destination. -/
def built : State :=
  { toneStaged with nco := ⟨true, F64.one, 0xC0141B2F769CF0E0#64, 0#64, 8#32, 0#32⟩, ncoDst := 65472#32 }

theorem witness_NcoProduceWritesOneChunk :
    built.nco.valid = true ∧ built.ncoDst.toNat % 8 = 0 ∧ built.ncoDst.toNat + 8 * built.nco.chunk.toNat ≤ 65536 ∧
      ∀ k, k ≤ 8 → F64.isFinite (phaseAt built.nco k) = true := by decide +kernel

theorem witness_NcoProduceReportsFirstFailure :
    State.reset.nco.valid = false ∧ built.nco.valid = true ∧ (4#32).toNat % 8 ≠ 0 ∧
      65536 < (65480#32).toNat + 8 * built.nco.chunk.toNat ∧
      ∃ k, k ≤ 8 ∧ F64.isFinite (F64.add 0#64 (F64.mul (F64.ofNat k) 0x7FE0000000000000#64)) = false :=
  ⟨by decide, by decide, by decide, by decide, 2, by decide, by decide +kernel⟩

/-- For Mod2PiStaysBelowTwoPi and Mod2PiIsTheExactRemainderRoundedOnce: the largest finite value, and -2^-60. -/
theorem witness_Mod2PiStaysBelowTwoPi :
    F64.isFinite 0x7FEFFFFFFFFFFFFF#64 = true ∧ F64.isFinite 0xBC30000000000000#64 = true := by decide +kernel

theorem built_oscillatorOk {p : Params} (h : p.sramBytes = 65536) : OscillatorOk p built.nco :=
  ⟨fun h => absurd h (by decide), by decide +kernel, by decide +kernel, fun _ => by decide, by rw [h]; decide,
    by decide +kernel⟩

theorem witness_NextChunkStartsAtReducedEndPhase : OscillatorOk Config.params built.nco := built_oscillatorOk rfl

theorem witness_OnlyNcoCommandsAndResetChangeOscillator :
    (∃ t, step (toneStaged.withFetchWord 32 1) = .next t ∧ t.nco ≠ (toneStaged.withFetchWord 32 1).nco) ∧
      ∃ t, step { built with schedule := [.resetLow] } = .next t ∧ t.nco ≠ built.nco :=
  ⟨⟨_, next_stateOr State.reset (by decide +kernel), by decide +kernel⟩,
    ⟨_, next_stateOr State.reset (by decide +kernel), by decide +kernel⟩⟩

/-- The last value that does not overflow, the first that does, and a tie: 2^53 + 1 lies between two neighbours. For the operators, a
value of each kind, and an exact zero sum and difference. -/
theorem witness_Rne64RoundsToNearestEven :
    (0 < 1 ∧ 2 ^ 1024 - 2 ^ 970 - 1 < 1 * (2 ^ 1024 - 2 ^ 970)) ∧ 1 * (2 ^ 1024 - 2 ^ 970) ≤ 2 ^ 1024 - 2 ^ 970 ∧
      (2 ^ 53 + 1 < 1 * (2 ^ 1024 - 2 ^ 970) ∧ F64.isFinite 0x4340000000000001#64 = true ∧
        F64.scaled (F64.ofRatio false (2 ^ 53 + 1) 1) ≠ F64.scaled 0x4340000000000001#64 ∧
        2 * (2 ^ 53 + 1) * 2 ^ 1074 =
          F64.scaled (F64.ofRatio false (2 ^ 53 + 1) 1) + F64.scaled 0x4340000000000001#64) ∧
      (F64.isNaN F64.nan = true ∧ F64.isInf F64.negInf = true ∧ F64.isNaN F64.negInf = false ∧
        F64.isZero 0x8000000000000000#64 = true ∧ F64.isInf 0x8000000000000000#64 = false ∧ F64.isZero F64.one = false) ∧
      F64.value F64.one + F64.value 0xBFF0000000000000#64 = 0 ∧ F64.value F64.one - F64.value F64.one = 0 ∧
      F64.isNaN (F64.mul F64.one F64.posInf) = false ∧ F64.isNaN (F64.div F64.one 0#64) = false := by decide +kernel

theorem witness_Rne64KeepsBinary64Values :
    F64.isFinite 0x8000000000000001#64 = true ∧ F64.isFinite 0xFFEFFFFFFFFFFFFF#64 = true := by decide +kernel

/-- A NaN, an infinity, the first magnitude that overflows binary32 and the one before it. -/
theorem witness_Rne32RoundsToNearestEven :
    F64.isNaN 0x7FF0000000000001#64 = true ∧ F64.isInf 0xFFF0000000000000#64 = true ∧
      F64.isFinite 0x47EFFFFFF0000000#64 = true ∧
      (2 ^ 128 - 2 ^ 103) * 2 ^ 1074 ≤ F64.scaledMag 0x47EFFFFFF0000000#64 ∧
      F64.scaledMag 0x47EFFFFFEFFFFFFF#64 < (2 ^ 128 - 2 ^ 103) * 2 ^ 1074 ∧
      F32.isNaN 0x7F7FFFFF#32 = false ∧ F32.isInf 0x7F7FFFFF#32 = false := by decide +kernel

theorem witness_WideningIsExact :
    F32.isNaN 0x7F800001#32 = true ∧ F32.isInf 0xFF800000#32 = true ∧
      (F32.isNaN 0x80000001#32 = false ∧ F32.isInf 0x80000001#32 = false) := by decide +kernel

theorem witness_SquareRootIsCorrectlyRounded :
    F64.isZero 0x8000000000000000#64 = true ∧ F64.isNaN 0xFFF0000000000001#64 = true ∧
      (F64.sign F64.negInf = true ∧ F64.isZero F64.negInf = false) ∧
      (F64.isFinite 0x0000000000000001#64 = true ∧ F64.sign 0x0000000000000001#64 = false ∧
        F64.isZero 0x0000000000000001#64 = false) ∧
      F64.scaled (F64.sqrt 0x4000000000000000#64) < F64.scaled 0x3FF6A09E667F3BCE#64 ∧
      F64.scaled 0x3FF6A09E667F3BCC#64 < F64.scaled (F64.sqrt 0x4000000000000000#64) := by decide +kernel

theorem witness_DefaultTapsHaveTheStatedShape : 2 ≤ 2 ∧ 1 ≤ 10 ∧ 10 ≤ 10 := by decide

theorem witness_DefaultTapsAreRoundedOnce :
    (2 ≤ 2 ∧ 2 ≤ 16) ∧ (2 ≤ 16 ∧ 16 ≤ 16) ∧ (-(10 * ((16 : Nat) : Int)) ≤ -160 ∧ (160 : Int) ≤ 10 * (16 : Nat)) ∧
      ∀ m, ∃ I0 w c, KaiserSinc m I0 w c :=
  ⟨by decide, by decide, by decide, fun m =>
    ⟨fun z => ∑' k : Nat, ((z / 2) ^ k / (k.factorial : ℝ)) ^ 2, _, _, fun _ => rfl, fun _ => rfl, fun _ => rfl⟩⟩

theorem witness_SampleDbmFollowsTheFormula :
    (0x4049000000000000#64 : F64) =
      F64.add (F64.mul (F32.widen 0x40A00000#32) (F32.widen 0x40A00000#32))
        (F64.mul (F32.widen 0x40A00000#32) (F32.widen 0x40A00000#32)) := by decide +kernel

theorem holdsWord_of_bytes {m : Ram} {a : Nat} {w : Word} (b0 b1 b2 b3 : Byte) (h0 : Ram.read m a = some b0)
    (h1 : Ram.read m (a + 1) = some b1) (h2 : Ram.read m (a + 2) = some b2) (h3 : Ram.read m (a + 3) = some b3)
    (hw : b3 ++ b2 ++ b1 ++ b0 = w) : holdsWord m a w := fun d => by simp [drawWord, drawByte, h0, h1, h2, h3, hw]

/-- Input at the start with the output right after it, and input at the end with the output right before it, M = 16. -/
theorem witness_RssiRunWritesDecimatedTrace :
    (1 ≤ oneSample.rssiLen.toNat ∧ 1 ≤ oneSample.rssiDecim.toNat ∧ oneSample.rssiDecim.toNat ≤ 16 ∧
        F64.isFinite oneSample.rssiGain = true ∧ F64.isFinite oneSample.rssiMerr = true ∧
        oneSample.rssiSrc.toNat % 8 = 0 ∧ oneSample.rssiSrc.toNat + 8 * 1 ≤ 65536 ∧
        oneSample.rssiDst.toNat % 4 = 0 ∧ oneSample.rssiDst.toNat + 4 * ((1 + 1 - 1) / 1) ≤ 65536 ∧
        oneSample.rssiSrc.toNat + 8 * 1 ≤ oneSample.rssiDst.toNat) ∧
      (16 ≤ 16 ∧ (65528#32).toNat % 8 = 0 ∧ (65528#32).toNat + 8 * 1 ≤ 65536 ∧ (65524#32).toNat % 4 = 0 ∧
        (65524#32).toNat + 4 * ((1 + 16 - 1) / 16) ≤ (65528#32).toNat) ∧
      (0 < oneSample.rssiLen.toNat ∧ holdsWord oneSample.ram (oneSample.rssiSrc.toNat + 8 * 0) 0x40A00000#32 ∧
        holdsWord oneSample.ram (oneSample.rssiSrc.toNat + 8 * 0 + 4) 0x40A00000#32) :=
  ⟨by decide +kernel, by decide +kernel, by decide,
    holdsWord_of_bytes 0#8 0#8 0xA0#8 0x40#8 (by decide) (by decide) (by decide) (by decide) (by decide),
    holdsWord_of_bytes 0#8 0#8 0xA0#8 0x40#8 (by decide) (by decide) (by decide) (by decide) (by decide)⟩

/-- One state for each check of 42_rssi.md R181, at the boundary of the check. -/
theorem witness_RssiRunReportsFirstFailure :
    (0#32).toNat = 0 ∧ ((0#32).toNat = 0 ∨ 16 < (17#32).toNat) ∧ F64.isFinite F64.nan = false ∧
      F64.isFinite F64.negInf = false ∧ (4#32).toNat % 8 ≠ 0 ∧ 65536 < (65536#32).toNat + 8 * 1 ∧
      (2#32).toNat % 4 ≠ 0 ∧ 65536 < (65528#32).toNat + 4 * ((5 + 2 - 1) / 2) ∧
      ((60#32).toNat < (0#32).toNat + 8 * 8 ∧ (0#32).toNat < (60#32).toNat + 4 * ((8 + 1 - 1) / 1)) := by decide +kernel

theorem witness_GeneratorOutputIsOneToOne :
    prngMix 7#64 = prngMix 7#64 ∧
      (0#64 ^^^ (0#64 >>> 30)) * 0xBF58476D1CE4E5B9#64 = 0#64 ∧ (0#64 ^^^ (0#64 >>> 27)) * 0x94D049BB133111EB#64 = 0#64 := by
  decide

/-- In place, and apart at the end of the RAM. -/
theorem witness_NoiseApplyWritesNoisySignal :
    1 ≤ zeroSample.noiseLen.toNat ∧ F64.isFinite zeroSample.noiseSnr = true ∧
      F64.lt 0#64 zeroSample.noiseRate = true ∧ F64.le zeroSample.noiseRate 0x3FF0000000000000#64 = true ∧
      zeroSample.noiseSrc.toNat % 8 = 0 ∧ zeroSample.noiseSrc.toNat + 8 * 1 ≤ 65536 ∧
      zeroSample.noiseDst = zeroSample.noiseSrc ∧
      F64.isFinite (noiseVariance Config.num zeroSample.noiseSnr zeroSample.noiseRate
        (drawSamples zeroSample.ram zeroSample.draws zeroSample.noiseSrc.toNat 1).1) = true ∧
      ((65520#32).toNat % 8 = 0 ∧ (65520#32).toNat + 8 * 1 ≤ (65528#32).toNat ∧ (65528#32).toNat + 8 * 1 ≤ 65536) ∧
      0 < zeroSample.noiseLen.toNat ∧ holdsWord zeroSample.ram (zeroSample.noiseSrc.toNat + 8 * 0) 0#32 ∧
      holdsWord zeroSample.ram (zeroSample.noiseSrc.toNat + 8 * 0 + 4) 0#32 :=
  ⟨by decide, by decide +kernel, by decide +kernel, by decide +kernel, by decide, by decide, rfl, by decide +kernel, by decide,
    by decide, holdsWord_of_bytes 0#8 0#8 0#8 0#8 (by decide) (by decide) (by decide) (by decide) (by decide),
    holdsWord_of_bytes 0#8 0#8 0#8 0#8 (by decide) (by decide) (by decide) (by decide) (by decide)⟩

/-- One value for each check of 43_noise.md R221, at the boundary of the check; for check 7 a NaN sample. -/
theorem witness_NoiseApplyReportsFirstFailure :
    (0#32).toNat = 0 ∧ F64.isFinite F64.posInf = false ∧ F64.lt 0#64 0#64 = false ∧
      F64.le 0x3FF0000000000001#64 0x3FF0000000000000#64 = false ∧ (4#32).toNat % 8 ≠ 0 ∧
      65536 < (65528#32).toNat + 8 * 2 ∧
      (8#32 ≠ 0#32 ∧ (8#32).toNat < (0#32).toNat + 8 * 2 ∧ (0#32).toNat < (8#32).toNat + 8 * 2) ∧
      F64.isFinite (F64.div (averageEnergy [(0x7FC00000#32, 0#32)])
        (F64.mul (F64.mul 0x4000000000000000#64 zeroSample.noiseRate)
          (Config.num.exp10_64 (F64.div zeroSample.noiseSnr 0x4024000000000000#64)))) = false := by decide +kernel

/-- The signal of V-NOISE-4: four samples 1 + 0j, snr_dB = 20, R = 1, so E = 1, lin = 100 and var = 0.005; and σ = 1 on one sample
with one draw. -/
theorem measuredSnr_command :
    let xs := List.replicate 4 (0x3F800000#32, 0#32)
    let v := noiseVariance Config.num 0x4034000000000000#64 F64.one xs
    F64.lt 0#64 F64.one = true ∧ F64.le F64.one 0x3FF0000000000000#64 = true ∧
      F64.value (averageEnergy xs) = 1 ∧ F64.value (linearSnr Config.num 0x4034000000000000#64) = 100 ∧
      F64.isFinite (linearSnr Config.num 0x4034000000000000#64) = true ∧ v = 0x3F747AE147AE147B#64 ∧ F64.isFinite v = true ∧
      1 / 2 ^ 1022 ≤ F64.value v ∧
      (F64.isFinite F64.one = true ∧ F32.isFinite 0x3F800000#32 = true ∧ F32.isFinite 0#32 = true ∧ F64.isFinite 0#64 = true ∧
        |F32.value 0x3F800000#32| + |F64.value F64.one * F64.value F64.one| < 2 ^ 127 ∧
        |F32.value 0#32| + |F64.value F64.one * F64.value F64.one| < 2 ^ 127) := by
  decide +kernel

/-- Independent standard Gaussian draws exist. -/
theorem gaussianDraws_exist :
    GaussianDraws (MeasureTheory.Measure.infinitePi fun _ : Nat => ProbabilityTheory.gaussianReal 0 1) fun k ω => ω k where
  measurable := fun k => measurable_pi_apply k
  standard := fun k => by
    simpa using MeasureTheory.Measure.infinitePi_map_eval (fun _ : Nat => ProbabilityTheory.gaussianReal 0 1) k
  independent := ProbabilityTheory.iIndepFun_infinitePi (fun _ => measurable_id)

/-- `measuredSnr_command` in the numbers of the statement, and the draws. -/
theorem witness_MeasuredSnrConvergesToTheTarget :
    (F64.isFinite (linearSnr Config.num 0x4034000000000000#64) = true ∧
        F64.isFinite (noiseVariance Config.num 0x4034000000000000#64 F64.one (List.replicate 4 (0x3F800000#32, 0#32))) = true) ∧
      (2 : ℝ) ^ (-1022 : ℤ) ≤ 2 * 1 * 100 ∧ (List.replicate 4 (0x3F800000#32, 0#32) : List (F32 × F32)) ≠ [] ∧
      MeasureTheory.IsProbabilityMeasure
        (MeasureTheory.Measure.infinitePi fun _ : Nat => ProbabilityTheory.gaussianReal 0 1) ∧
      GaussianDraws (MeasureTheory.Measure.infinitePi fun _ : Nat => ProbabilityTheory.gaussianReal 0 1) fun k ω => ω k :=
  ⟨⟨measuredSnr_command.2.2.2.2.1, measuredSnr_command.2.2.2.2.2.2.1⟩,
    (zpow_le_one_of_nonpos₀ (by norm_num) (by norm_num)).trans (by norm_num), by simp, inferInstance, gaussianDraws_exist⟩

theorem witness_NoiseIsReproducible :
    SameNoiseOperands zeroSample { zeroSample with draws := 5, irqEn := true } ∧
      (∀ x, inRegion (0, 8) x → ∃ b, Ram.read zeroSample.ram x = some b) ∧
      (∃ t, exec .noiseApply zeroSample = .next t ∧ t.err = .ok) ∧
      ∃ t, exec .noiseApply { zeroSample with draws := 5, irqEn := true } = .next t ∧ t.err = .ok := by
  refine ⟨⟨rfl, rfl, rfl, rfl, rfl, rfl⟩, fun x hx => ?_, ⟨_, next_stateOr State.reset (by decide +kernel), by decide +kernel⟩,
    ⟨_, next_stateOr State.reset (by decide +kernel), by decide +kernel⟩⟩
  have h : x < 8 := by simpa [inRegion] using hx.2
  have key : ∀ y, y < 8 → (Ram.read zeroSample.ram y).isSome = true := by decide
  exact Option.isSome_iff_exists.1 (key x h)

theorem witness_OnlyNoiseCommandsAndResetChangeGenerator :
    (∃ t, step (State.withFetchWord { State.reset with noiseSeed := 9#64 } 32 0x20) = .next t ∧ t.prng ≠ 0#64) ∧
      (∃ t, step (zeroSample.withFetchWord 32 0x21) = .next t ∧ t.prng ≠ zeroSample.prng) ∧
      ∃ t, step { State.reset with prng := 9#64, schedule := [.powerCycle] } = .next t ∧ t.prng ≠ 9#64 :=
  ⟨⟨_, next_stateOr State.reset (by decide), by decide⟩,
    ⟨_, next_stateOr State.reset (by decide +kernel), by decide +kernel⟩,
    ⟨_, next_stateOr State.reset (by decide), by decide⟩⟩

theorem witness_CommandWriteIsAccepted : State.reset.pending = none := rfl

theorem witness_BusyWritesAreDropped :
    (accept State.reset 0#32).pending.isSome = true ∧
      (0xFFC % 4 = 0 ∧ 0xFFC < 0x1000 ∧ 0xFFC ≠ 0x008 ∧ 0xFFC ≠ 0x00C) ∧ (0x000 ≠ 0x008 ∧ 0x000 ≠ 0x00C) ∧
      (0x00C % 4 = 0 ∧ 0x00C < 0x1000) ∧ (0x008 % 4 = 0 ∧ 0x008 < 0x1000) ∧ (1#32).getLsbD 1 = false ∧
      (2#32).getLsbD 1 = true := by decide

theorem witness_OperandRegistersKeepWhatIsWritten :
    State.reset.pending = none ∧ 0x0E4 % 4 = 0 ∧ 0x0E4 < 0x1000 ∧ 0x0F4 % 4 = 0 ∧ regAt 0xFFC = none ∧ 0xFFC % 4 = 0 ∧
      0xFFC < 0x1000 := by decide

/-- Each way an access can be wrong, and the first and last good offsets. -/
theorem witness_BadAccessesAnswerError :
    (16 ≠ 32 ∧ 0x002 % 4 ≠ 0 ∧ (0x1000 ≤ 0x1000 ∧ 0x1000 < 0x10000) ∧ (0x1000 ≤ 0xFFFC ∧ 0xFFFC < 0x10000) ∧
        0x10000 + 65536 ≤ 0x20000) ∧
      ∀ off ∈ [0x000, 0xFFC, 0x10000, 0x1FFFC],
        ¬ (32 ≠ 32 ∨ off % 4 ≠ 0 ∨ 0x1000 ≤ off ∧ off < 0x10000 ∨ 0x10000 + 65536 ≤ off) := by decide

/-- For RamWordsAreLittleEndian and UnwrittenRamReadsAreFreeDraws: the first and the last word of the RAM. -/
theorem witness_RamWordsAreLittleEndian :
    (0 % 4 = 0 ∧ 0 + 4 ≤ 65536) ∧ (65532 % 4 = 0 ∧ 65532 + 4 ≤ 65536) ∧
      ∀ x, inRegion (65532, 4) x → Ram.read State.reset.ram x = none :=
  ⟨by decide, by decide, fun _ _ => rfl⟩

/-- Busy with accesses that hold: a RAM read and a STATUS read of a third host, and a released one of it; and an idle block. -/
theorem witness_RamAccessHoldsWhileBusy :
    let s := { State.reset with schedule := [.bus ⟨0, .read 32 0x1FFFC⟩] }
    let u := { crowded with queued := [⟨1, .read 32 0x000⟩, ⟨3, .read 32 0x00C⟩] }
    (s.rstN = true ∧ released s = none ∧ s.pending = none ∧ s.held = [] ∧ s.queued = []) ∧
      (crowded.pending.isSome = true ∧ reachesRam Config.params (.read 32 0x1FFFC) = true ∧
        reachesRam Config.params (.read 32 0x00C) = false ∧ (∀ j ∈ crowded.held, j.host ≠ 3) ∧ crowded.queued = []) ∧
      (⟨1, .write 32 0x10000 5#32⟩ ∈ crowded.held ∧ ⟨1, .read 32 0x000⟩ ∈ u.queued) ∧ u.pending.isSome = true ∧
      (∃ t, step u = .next t ∧ t.held = u.held ∧ t.replies ≠ u.replies) ∧
      released u = some (⟨3, .read 32 0x00C⟩, { u with queued := [⟨1, .read 32 0x000⟩] }) :=
  ⟨by decide, by decide, by decide, rfl, ⟨_, next_stateOr State.reset (by decide), by decide, by decide⟩, by decide⟩

/-- Accesses that hold behind a command; the same when it is over, so that the oldest is released; and a queued transaction that is
released past one whose host holds. -/
theorem witness_HeldAccessActsAfterCompletion :
    let s := { crowded with schedule := [.engine] }
    let v := { crowded with pending := none, queued := [⟨3, .read 32 0x00C⟩] }
    let u := { crowded with queued := [⟨1, .read 32 0x000⟩, ⟨3, .read 32 0x00C⟩] }
    (released v = some (⟨1, .write 32 0x10000 5#32⟩, { v with held := [⟨2, .write 32 0x10004 7#32⟩] })) ∧
      (released u = some (⟨3, .read 32 0x00C⟩, { u with queued := [⟨1, .read 32 0x000⟩] })) ∧
      (v.pending = none ∧ reachesRam Config.params (.read 32 0x00C) = false) ∧
      (u.pending.isSome = true ∧ reachesRam Config.params (.write 32 0x10000 5#32) = true) ∧
    s.rstN = true ∧ s.pending = some 2#32 ∧ s.held.length = 2 ∧ released s = none ∧
      (∀ i ∈ s.held, reachesRam Config.params i.txn = true) ∧ ∃ t, execWord 2#32 { s with schedule := [] } = .next t :=
  ⟨by decide, by decide, by decide, by decide, rfl, rfl, rfl, rfl, by decide, _, next_stateOr State.reset (by decide)⟩

theorem witness_OperandsAreFixedWhileBusy :
    let s := { accept toneStaged 1#32 with schedule := [.bus ⟨0, .write 32 0x038 5#32⟩] }
    let s' := { accept toneStaged 1#32 with schedule := [.bus ⟨0, .write 32 0x008 2#32⟩] }
    s.pending.isSome = true ∧ (∃ t, step s = .next t ∧ t.busyViol = true) ∧ s'.pending.isSome = true ∧
      ∃ t, step s' = .next t ∧ t.ncoChunk = 0#32 :=
  ⟨rfl, ⟨_, next_stateOr State.reset (by decide), by decide⟩, rfl, ⟨_, next_stateOr State.reset (by decide), by decide⟩⟩

theorem witness_InterruptFollowsCompletion :
    (accept State.reset 0#32).rstN = true ∧ (∃ t, execWord 0#32 (accept State.reset 0#32) = .next t) ∧
      (2#32).getLsbD 1 = true :=
  ⟨rfl, ⟨_, next_stateOr State.reset (by decide)⟩, by decide⟩

/-- A pending NCO_PRODUCE whose destination runs past the end of the RAM, with an access waiting. -/
theorem witness_SoftResetAbortsAndResets :
    let s := { built with pending := some 2#32, ncoDst := 65528#32, held := [⟨1, .read 32 0x10000⟩] }
    (2#32).getLsbD 1 = true ∧ s.pending = some 2#32 ∧ inRegion (destRegion s 2#32) 65535 ∧
      (inRegion (destRegion s 2#32) 65536 ∧ ¬ 65536 < 65536) ∧ s.rstN = true ∧ s.held = [⟨1, .read 32 0x10000⟩] ∧
      reachesRam Config.params (.read 32 0x10000) = true ∧ State.reset.pending = none ∧ 1 ≤ oneSample.rssiDecim.toNat ∧
      State.reset.rssiDecim.toNat = 0 ∧
      (4#32 ≠ encode .ncoProduce ∧ 4#32 ≠ encode .rssiRun ∧ 4#32 ≠ encode .noiseApply) :=
  ⟨by decide, rfl, by constructor <;> decide, ⟨by constructor <;> decide, by decide⟩, rfl, rfl, by decide, rfl, by decide, rfl,
    by decide⟩

theorem witness_HardwareResetResets :
    released { built with pending := some 2#32, schedule := [.resetLow] } = none ∧
      (∀ i, released { State.reset with rstN := false, schedule := [.bus i] } = none) ∧
      released { State.reset with rstN := false, schedule := [.resetHigh] } = none ∧
      released { built with pending := some 2#32, ram := [(0, 1#8)], schedule := [.powerCycle] } = none :=
  ⟨by decide, fun _ => rfl, rfl, by decide⟩

/-- The default parameters but for the largest factor, which is 1, so that no tap table is asked for. -/
def plainParams : Params := { Config.params with rssiMaxDecim := 1 }

/-- A block that has produced into its RAM and runs NCO_PRODUCE again. -/
def producing : State := { built with pending := some 2#32, cmd := 2#32, ram := [(0, 1#8), (65535, 2#8)] }

theorem producing_invariant {p : Params} (h : p.sramBytes = 65536) : BlockInvariant p producing where
  ram_wf := by decide
  ram_below := by rw [h]; decide
  nco := built_oscillatorOk h
  var_finite := by decide +kernel
  cmd_pending := fun w h => by cases h; rfl
  not_busy_done := fun _ => rfl
  idle_in_reset := fun h => absurd h (by decide)
  held_ram := fun _ h => absurd h (List.not_mem_nil)
  held_hosts := List.nodup_nil

theorem witness_EveryStepKeepsTheInvariant :
    plainParams.wellFormed = true ∧ BlockInvariant plainParams producing ∧
      (∃ t, stepOn plainParams producing = .next t ∧ t.err = .ok) ∧
      BlockInvariant Config.params producing ∧ ∃ t, step producing = .next t ∧ t.err = .ok :=
  ⟨by decide +kernel, producing_invariant rfl, ⟨_, next_stateOr State.reset (by decide +kernel), by decide +kernel⟩,
    producing_invariant rfl, _, next_stateOr State.reset (by decide +kernel), by decide +kernel⟩

end Sys2Proof.Tests
end

section
/-! PROOF. Rounding to a format (00_scope.md R11): patterns as whole numbers, the pattern nearest to a rational, and roundMagnitude,
which computes it. -/

namespace Sys2Proof.Rounding

/-! ### Patterns and the whole numbers they stand for -/

/-- The value of the pattern b, sign bit clear, of a format with `frac` stored significand bits, in units of the least positive value
of the format. Patterns from +Inf's on are read as if the exponent range had no upper end. -/
def units (frac b : Nat) : Nat :=
  if b / 2 ^ frac = 0 then b % 2 ^ frac else (2 ^ frac + b % 2 ^ frac) * 2 ^ (b / 2 ^ frac - 1)

theorem scaledMag64_eq_units (x : F64) : F64.scaledMag x = units 52 (F64.magBits x) := rfl

theorem scaledMag32_eq_units (x : F32) : F32.scaledMag x = units 23 (F32.magBits x) := rfl

/-- The significand q at exponent step k is the pattern `k * 2^frac + q`, also where q is rounded up to the next power of two. -/
theorem units_eq {frac k q : Nat} (hlow : 2 ^ frac ≤ q ∨ k = 0) (hhigh : q ≤ 2 ^ (frac + 1)) :
    units frac (k * 2 ^ frac + q) = q * 2 ^ k := by
  have hp : 0 < 2 ^ frac := by positivity
  rw [pow_succ] at hhigh
  have hdivmod : (k * 2 ^ frac + q) / 2 ^ frac = k + q / 2 ^ frac ∧ (k * 2 ^ frac + q) % 2 ^ frac = q % 2 ^ frac :=
    ⟨by rw [add_comm, Nat.add_mul_div_right _ _ hp, add_comm], by rw [add_comm, Nat.add_mul_mod_self_right]⟩
  rw [units, hdivmod.1, hdivmod.2]
  rcases lt_or_ge q (2 ^ frac) with hq | hq
  · obtain rfl : k = 0 := hlow.resolve_left (by omega)
    simp [Nat.div_eq_of_lt hq, Nat.mod_eq_of_lt hq]
  rcases hhigh.lt_or_eq with hq2 | rfl
  · have hdiv : q / 2 ^ frac = 1 := Nat.div_eq_of_lt_le (by omega) (by omega)
    have hmod : 2 ^ frac + q % 2 ^ frac = q := by have := Nat.div_add_mod q (2 ^ frac); rw [hdiv] at this; omega
    rw [hdiv, hmod]
    simp
  · have hdiv : 2 ^ frac * 2 / 2 ^ frac = 2 := Nat.mul_div_cancel_left _ hp
    simp [hdiv, pow_succ]
    ring

/-- Every pattern is an exponent step and a significand, which only the subnormal patterns leave below 2^frac. -/
theorem exists_step_significand (frac b : Nat) :
    ∃ k q, b = k * 2 ^ frac + q ∧ (2 ^ frac ≤ q ∨ k = 0) ∧ q < 2 ^ (frac + 1) := by
  have hmod := Nat.mod_lt b (show 0 < 2 ^ frac by positivity)
  have hsplit := Nat.div_add_mod' b (2 ^ frac)
  rw [pow_succ]
  cases hk : b / 2 ^ frac with
  | zero => exact ⟨0, b % 2 ^ frac, by rw [hk] at hsplit; omega, .inr rfl, by omega⟩
  | succ k => exact ⟨k, 2 ^ frac + b % 2 ^ frac, by rw [hk, Nat.succ_mul] at hsplit; omega, .inl (by omega), by omega⟩

theorem units_strictMono (frac : Nat) : StrictMono (units frac) := by
  refine strictMono_nat_of_lt_succ fun b => ?_
  obtain ⟨k, q, rfl, hlow, hhigh⟩ := exists_step_significand frac b
  rw [add_assoc, units_eq hlow hhigh.le, units_eq (hlow.imp_left Nat.le_succ_of_le) hhigh]
  exact Nat.mul_lt_mul_of_pos_right q.lt_succ_self (by positivity)

@[simp] theorem units_zero (frac : Nat) : units frac 0 = 0 := by simp [units]

/-- Whatever has a significand of at most frac + 1 bits is the value of a pattern. -/
theorem exists_units_eq (frac k : Nat) {q : Nat} (hq : q < 2 ^ (frac + 1)) : ∃ b, units frac b = q * 2 ^ k := by
  induction k generalizing q with
  | zero => exact ⟨0 * 2 ^ frac + q, units_eq (.inr rfl) hq.le⟩
  | succ k ih =>
    rcases le_or_gt (2 ^ frac) q with h | h
    · exact ⟨(k + 1) * 2 ^ frac + q, units_eq (.inl h) hq.le⟩
    · obtain ⟨b, hb⟩ := ih (q := 2 * q) (by rw [pow_succ]; omega)
      exact ⟨b, by rw [hb, pow_succ]; ring⟩

/-- From the pattern of exponent step k on, values are whole multiples of 2^k. -/
theorem two_pow_dvd_units {frac k b : Nat} (h : (k + 1) * 2 ^ frac ≤ b) : 2 ^ k ∣ units frac b := by
  have hdiv : k + 1 ≤ b / 2 ^ frac := (Nat.le_div_iff_mul_le (by positivity)).2 h
  rw [units, if_neg (by omega)]
  exact (pow_dvd_pow 2 (by omega)).mul_left _

/-! ### The pattern nearest to a rational -/

/-- b is the pattern nearest to v units, the even one of two that are equally near: v is on b's side of the middle between b and the
next pattern above, and between b and the next one below. -/
structure Nearest (frac : Nat) (v : ℚ) (b : Nat) : Prop where
  above : 2 * v ≤ units frac b + units frac (b + 1)
  even_of_above : 2 * v = units frac b + units frac (b + 1) → b % 2 = 0
  below : ∀ c, c + 1 = b → (units frac c + units frac b : ℚ) ≤ 2 * v
  even_of_below : ∀ c, c + 1 = b → (units frac c + units frac b : ℚ) = 2 * v → b % 2 = 0

section
variable {frac b c : Nat} {v : ℚ}

theorem units_le_cast (h : b ≤ c) : (units frac b : ℚ) ≤ units frac c := by
  exact_mod_cast (units_strictMono frac).monotone h

theorem units_lt_cast (h : b < c) : (units frac b : ℚ) < units frac c := by
  exact_mod_cast units_strictMono frac h

/-- The middle between b and any greater pattern is not below v. -/
theorem Nearest.above_of_lt (h : Nearest frac v b) (hc : b < c) : 2 * v ≤ units frac b + units frac c :=
  h.above.trans (add_le_add_right (units_le_cast hc) _)

/-- The middle between b and any smaller pattern is not above v. -/
theorem Nearest.below_of_lt (h : Nearest frac v b) (hc : c < b) : (units frac c + units frac b : ℚ) ≤ 2 * v := by
  obtain ⟨d, rfl⟩ := Nat.exists_eq_add_of_lt hc
  exact le_trans (add_le_add_left (units_le_cast (by omega)) _) (h.below (c + d) rfl)

/-- A pattern whose value v reaches is not above the nearest one. -/
theorem Nearest.le_of_units_le (h : Nearest frac v b) (hc : (units frac c : ℚ) ≤ v) : c ≤ b := by
  by_contra! hbc
  have := h.above_of_lt hbc
  have := units_lt_cast (frac := frac) hbc
  linarith

/-- A pattern whose value is not below v is not below the nearest one. -/
theorem Nearest.le_of_le_units (h : Nearest frac v b) (hc : v ≤ units frac c) : b ≤ c := by
  by_contra! hcb
  have := h.below_of_lt hcb
  have := units_lt_cast (frac := frac) hcb
  linarith

theorem Nearest.eq_of_eq_units (h : Nearest frac (units frac c) b) : b = c :=
  le_antisymm (h.le_of_le_units le_rfl) (h.le_of_units_le le_rfl)

theorem nearest_zero (frac : Nat) : Nearest frac 0 0 where
  above := by simp
  even_of_above _ := rfl
  below c h := absurd h c.succ_ne_zero
  even_of_below _ _ _ := rfl

/-- The patterns up to an odd one are nearest to exactly what is below the middle between it and the next. -/
theorem Nearest.le_odd_iff (h : Nearest frac v b) (hc : c % 2 = 1) :
    b ≤ c ↔ 2 * v < units frac c + units frac (c + 1) := by
  constructor
  · intro hle
    have hstep : (units frac b + units frac (b + 1) : ℚ) ≤ units frac c + units frac (c + 1) :=
      add_le_add (units_le_cast hle) (units_le_cast (by omega))
    rcases hle.lt_or_eq with hlt | rfl
    · have := units_lt_cast (frac := frac) hlt
      have := units_le_cast (frac := frac) (Nat.succ_le_succ hle)
      linarith [h.above]
    · exact lt_of_le_of_ne h.above fun heq => by have := h.even_of_above heq; omega
  · intro hlt
    by_contra! hcb
    have := h.below_of_lt hcb
    have := units_le_cast (frac := frac) (show c + 1 ≤ b from hcb)
    linarith

/-- A greater pattern is no nearer to v than b, and b is even where it is as near. -/
theorem Nearest.dist_le_of_lt (h : Nearest frac v b) (hc : b < c) :
    |(units frac b : ℚ) - v| ≤ |units frac c - v| ∧ (|(units frac b : ℚ) - v| = |units frac c - v| → b % 2 = 0) := by
  have hlt := units_lt_cast (frac := frac) hc
  have hmid := h.above_of_lt hc
  rw [abs_of_pos (by linarith : (0 : ℚ) < units frac c - v)]
  refine ⟨abs_le.2 ⟨by linarith, by linarith⟩, fun heq => h.even_of_above (h.above.antisymm ?_)⟩
  have hnext := units_le_cast (frac := frac) (show b + 1 ≤ c from hc)
  rcases eq_or_eq_neg_of_abs_eq heq <;> linarith

/-- A smaller pattern is no nearer to v than b, and b is even where it is as near. -/
theorem Nearest.dist_le_of_gt (h : Nearest frac v b) (hc : c < b) :
    |(units frac b : ℚ) - v| ≤ |units frac c - v| ∧ (|(units frac b : ℚ) - v| = |units frac c - v| → b % 2 = 0) := by
  have hlt := units_lt_cast (frac := frac) hc
  have hmid := h.below_of_lt hc
  rw [abs_of_neg (by linarith : (units frac c - v : ℚ) < 0)]
  obtain ⟨d, rfl⟩ := Nat.exists_eq_add_of_lt hc
  refine ⟨abs_le.2 ⟨by linarith, by linarith⟩, fun heq => h.even_of_below (c + d) rfl ((h.below _ rfl).antisymm ?_)⟩
  have hprev := units_le_cast (frac := frac) (show c ≤ c + d by omega)
  rcases eq_or_eq_neg_of_abs_eq heq <;> linarith

/-- No pattern is nearer to v than b, and where another is as near, b is even. -/
theorem Nearest.dist_le (h : Nearest frac v b) (c : Nat) :
    |(units frac b : ℚ) - v| ≤ |units frac c - v| ∧
      (|(units frac b : ℚ) - v| = |units frac c - v| → b ≠ c → b % 2 = 0) := by
  rcases lt_trichotomy b c with hc | rfl | hc
  · exact ⟨(h.dist_le_of_lt hc).1, fun heq _ => (h.dist_le_of_lt hc).2 heq⟩
  · exact ⟨le_rfl, fun _ hne => absurd rfl hne⟩
  · exact ⟨(h.dist_le_of_gt hc).1, fun heq _ => (h.dist_le_of_gt hc).2 heq⟩

/-- No whole number that is ± the value of a pattern is nearer to v, and where another is as near, b is even. -/
theorem Nearest.dist_le_int (h : Nearest frac v b) (hv : 0 ≤ v) {w : ℤ} (hw : w.natAbs = units frac c) :
    |(units frac b : ℚ) - v| ≤ |w - v| ∧
      (|(units frac b : ℚ) - v| = |w - v| → (units frac b : ℤ) ≠ w → b % 2 = 0) := by
  rcases Int.natAbs_eq w with hpos | hneg
  · rw [hw] at hpos
    subst hpos
    exact ⟨(h.dist_le c).1, fun heq hne => (h.dist_le c).2 heq fun hbc => hne (by rw [hbc])⟩
  · have hzero := h.dist_le 0
    have hcast : (w : ℚ) = -units frac c := by rw [hneg, hw]; simp
    have hc : (0 : ℚ) ≤ units frac c := Nat.cast_nonneg _
    have habs : |(w : ℚ) - v| = units frac c + v := by
      rw [hcast, abs_of_nonpos (by linarith)]
      ring
    rw [units_zero, Nat.cast_zero, zero_sub, abs_neg, abs_of_nonneg hv] at hzero
    rw [habs]
    refine ⟨by linarith [hzero.1], fun heq hne => hzero.2 (by linarith [hzero.1]) fun hb => hne ?_⟩
    have hw0 : (w : ℚ) = 0 := by linarith [hzero.1]
    rw [hb, units_zero, Int.cast_eq_zero.1 hw0, Nat.cast_zero]
end

/-! ### roundHalfEven -/

/-- roundHalfEven rounds the whole quotient down or up, by the remainder, and at half a unit to the even one. -/
theorem roundHalfEven_cases (num den : Nat) :
    (roundHalfEven num den = num / den ∧ 2 * (num % den) ≤ den ∧ (2 * (num % den) = den → num / den % 2 = 0)) ∨
      (roundHalfEven num den = num / den + 1 ∧ den ≤ 2 * (num % den) ∧
        (2 * (num % den) = den → (num / den + 1) % 2 = 0)) := by
  unfold roundHalfEven
  dsimp only
  split
  · exact .inl ⟨rfl, by omega, by omega⟩
  split
  · exact .inr ⟨rfl, by omega, by omega⟩
  rcases Nat.mod_two_eq_zero_or_one (num / den) with h | h
  · exact .inl ⟨by omega, by omega, fun _ => h⟩
  · exact .inr ⟨by omega, by omega, by omega⟩

/-- roundHalfEven is at most half a unit from num/den = v, and even where it is exactly half a unit away. -/
theorem roundHalfEven_spec {num den : Nat} (hd : 0 < den) {v : ℚ} (hv : v = num / den) :
    (2 * v ≤ 2 * roundHalfEven num den + 1 ∧ 2 * (roundHalfEven num den : ℚ) ≤ 2 * v + 1) ∧
      (2 * v = 2 * roundHalfEven num den + 1 ∨ 2 * (roundHalfEven num den : ℚ) = 2 * v + 1 →
        roundHalfEven num den % 2 = 0) := by
  have hd' : (0 : ℚ) < den := by exact_mod_cast hd
  obtain ⟨t, ht⟩ : ∃ t : ℚ, t = (num % den : Nat) / den := ⟨_, rfl⟩
  have ht0 : 0 ≤ t := ht ▸ by positivity
  have hsum : v = (num / den : Nat) + t := by
    rw [hv, ht, eq_comm, ← mul_left_inj' hd'.ne', add_mul, div_mul_cancel₀ _ hd'.ne', div_mul_cancel₀ _ hd'.ne']
    exact_mod_cast Nat.div_add_mod' num den
  have htr : 2 * t = ((2 * (num % den) : Nat) : ℚ) / den := by rw [ht]; push_cast; ring
  have htie : 2 * t = 1 → 2 * (num % den) = den := fun h => by
    rw [htr, div_eq_one_iff_eq hd'.ne'] at h
    exact_mod_cast h
  rcases roundHalfEven_cases num den with ⟨hq, hhalf, heven⟩ | ⟨hq, hhalf, heven⟩
  · have hle : 2 * t ≤ 1 := by
      rw [htr, div_le_one hd']
      exact_mod_cast hhalf
    rw [hq]
    exact ⟨⟨by linarith, by linarith⟩, fun h => heven (htie (by rcases h with h | h <;> linarith))⟩
  · have hle : 1 ≤ 2 * t := by
      rw [htr, one_le_div hd']
      exact_mod_cast hhalf
    have hlt : t < 1 := by
      rw [ht, div_lt_one hd']
      exact_mod_cast Nat.mod_lt num hd
    rw [hq]
    push_cast
    exact ⟨⟨by linarith, by linarith⟩, fun h => heven (htie (by rcases h with h | h <;> linarith))⟩

theorem le_roundHalfEven {num den a : Nat} (hd : 0 < den) {v : ℚ} (hv : v = num / den) (h : a ≤ v) :
    a ≤ roundHalfEven num den := by
  obtain ⟨⟨habove, -⟩, -⟩ := roundHalfEven_spec hd hv
  have : ((2 * a : Nat) : ℚ) ≤ (2 * roundHalfEven num den + 1 : Nat) := by push_cast; linarith
  have := Nat.cast_le.1 this
  omega

theorem roundHalfEven_le {num den a : Nat} (hd : 0 < den) {v : ℚ} (hv : v = num / den) (h : v ≤ a) :
    roundHalfEven num den ≤ a := by
  obtain ⟨⟨-, hbelow⟩, -⟩ := roundHalfEven_spec hd hv
  have : ((2 * roundHalfEven num den : Nat) : ℚ) ≤ (2 * a + 1 : Nat) := by push_cast; linarith
  have := Nat.cast_le.1 this
  omega

/-! ### Scaling by a power of two -/

theorem scaleDown_spec (num : Nat) {den : Nat} (hd : 0 < den) (e : Int) :
    0 < (scaleDown num den e).2 ∧ ((scaleDown num den e).1 : ℚ) / (scaleDown num den e).2 = num / den * 2 ^ (-e) := by
  unfold scaleDown
  split
  · refine ⟨by positivity, ?_⟩
    lift e to ℕ using ‹0 ≤ e›
    simp [div_eq_mul_inv, mul_comm, mul_assoc]
  · obtain ⟨n, rfl⟩ : ∃ n : ℕ, e = -n := ⟨(-e).toNat, by omega⟩
    refine ⟨hd, ?_⟩
    simp
    ring

/-- floorLog2 is the exponent of num/den. -/
theorem floorLog2_spec {num den : Nat} (hn : 0 < num) (hd : 0 < den) :
    (2 : ℚ) ^ floorLog2 num den ≤ num / den ∧ (num / den : ℚ) < 2 ^ (floorLog2 num den + 1) := by
  obtain ⟨e, he⟩ : ∃ e : Int, e = (Nat.log2 num : Int) - (Nat.log2 den : Int) := ⟨_, rfl⟩
  have hd' : (0 : ℚ) < den := by exact_mod_cast hd
  have hnlow : (2 : ℚ) ^ (Nat.log2 num : Int) ≤ num := by exact_mod_cast Nat.log2_self_le hn.ne'
  have hnhigh : (num : ℚ) < 2 ^ ((Nat.log2 num : Int) + 1) := by exact_mod_cast Nat.lt_log2_self
  have hdlow : (2 : ℚ) ^ (Nat.log2 den : Int) ≤ den := by exact_mod_cast Nat.log2_self_le hd.ne'
  have hdhigh : (den : ℚ) < 2 ^ ((Nat.log2 den : Int) + 1) := by exact_mod_cast Nat.lt_log2_self
  have hupper : (num / den : ℚ) < 2 ^ (e + 1) := by
    rw [div_lt_iff₀ hd']
    calc (num : ℚ) < 2 ^ ((Nat.log2 num : Int) + 1) := hnhigh
      _ = 2 ^ (e + 1) * 2 ^ (Nat.log2 den : Int) := by rw [← zpow_add₀ two_ne_zero, he]; congr 1; ring
      _ ≤ 2 ^ (e + 1) * den := by gcongr
  have hlower : (2 : ℚ) ^ (e - 1) ≤ num / den := by
    rw [le_div_iff₀ hd']
    calc (2 : ℚ) ^ (e - 1) * den ≤ 2 ^ (e - 1) * 2 ^ ((Nat.log2 den : Int) + 1) := by gcongr
      _ = 2 ^ (Nat.log2 num : Int) := by rw [← zpow_add₀ two_ne_zero, he]; congr 1; ring
      _ ≤ num := hnlow
  obtain ⟨hpos, hscale⟩ := scaleDown_spec num hd e
  have hcompare : (scaleDown num den e).2 ≤ (scaleDown num den e).1 ↔ (2 : ℚ) ^ e ≤ num / den := by
    have hpos' : (0 : ℚ) < (scaleDown num den e).2 := by exact_mod_cast hpos
    rw [← Nat.cast_le (α := ℚ), ← one_le_div hpos', hscale, zpow_neg, ← div_eq_mul_inv, one_le_div (by positivity)]
  have hdef : floorLog2 num den = if (scaleDown num den e).2 ≤ (scaleDown num den e).1 then e else e - 1 := by
    rw [he]
    rfl
  rw [hdef]
  split
  · exact ⟨hcompare.1 ‹_›, hupper⟩
  · exact ⟨hlower, by rw [sub_add_cancel]; exact not_le.1 (mt hcompare.2 ‹_›)⟩

/-! ### roundMagnitude -/

/-- Rounding the significand w at exponent step k to a whole number gives the pattern nearest to w·2^k. -/
theorem nearest_of_significand {frac k n d : Nat} (hf : 0 < frac) (hd : 0 < d) {w : ℚ} (hw : w = n / d)
    (hlow : 2 ^ frac ≤ w ∨ k = 0) (hhigh : w ≤ 2 ^ (frac + 1)) :
    Nearest frac (w * 2 ^ k) (k * 2 ^ frac + roundHalfEven n d) := by
  obtain ⟨⟨habove, hbelow⟩, htie⟩ := roundHalfEven_spec hd hw
  have hlowq : 2 ^ frac ≤ roundHalfEven n d ∨ k = 0 :=
    hlow.imp_left fun h => le_roundHalfEven hd hw (by exact_mod_cast h)
  have hhighq : roundHalfEven n d ≤ 2 ^ (frac + 1) := roundHalfEven_le hd hw (by exact_mod_cast hhigh)
  generalize roundHalfEven n d = q at *
  have hpow : (0 : ℚ) < 2 ^ k := by positivity
  have hb : (units frac (k * 2 ^ frac + q) : ℚ) = q * 2 ^ k := by rw [units_eq hlowq hhighq]; push_cast; rfl
  have hparity : (k * 2 ^ frac + q) % 2 = q % 2 := by
    obtain ⟨m, rfl⟩ := Nat.exists_eq_add_of_lt hf
    rw [pow_succ, ← mul_assoc]
    omega
  have hnext : (q : ℚ) < w → (units frac (k * 2 ^ frac + q + 1) : ℚ) = (q + 1) * 2 ^ k := fun hqw => by
    have : q + 1 ≤ 2 ^ (frac + 1) := by exact_mod_cast hqw.trans_le hhigh
    rw [add_assoc, units_eq (hlowq.imp_left Nat.le_succ_of_le) this]
    push_cast
    rfl
  have hprev : ∀ c, c + 1 = k * 2 ^ frac + q → w < q → (units frac c : ℚ) = (q - 1) * 2 ^ k := fun c hc hwq => by
    have hlowc : 2 ^ frac < q ∨ k = 0 := hlow.imp_left fun h => by exact_mod_cast h.trans_lt hwq
    obtain ⟨p, rfl⟩ : ∃ p, q = p + 1 := Nat.exists_eq_succ_of_ne_zero fun hq0 => by
      rcases hlowc with h | rfl
      · omega
      · simp [hq0] at hc
    obtain rfl : c = k * 2 ^ frac + p := by omega
    rw [units_eq (hlowc.imp_left Nat.le_of_lt_succ) (by omega)]
    push_cast
    ring
  have hcancel : ∀ x y : ℚ, x * 2 ^ k = y * 2 ^ k → x = y := fun x y => mul_right_cancel₀ hpow.ne'
  have hscale : ∀ {x y : ℚ}, x ≤ y → x * 2 ^ k ≤ y * 2 ^ k := fun h => mul_le_mul_of_nonneg_right h hpow.le
  have hgap : ∀ c, c + 1 = k * 2 ^ frac + q → (units frac c : ℚ) < q * 2 ^ k := fun c hc => by
    rw [← hb, ← hc]
    exact units_lt_cast c.lt_succ_self
  have hgap' := hb ▸ units_lt_cast (frac := frac) (k * 2 ^ frac + q).lt_succ_self
  refine ⟨?_, fun h => ?_, fun c hc => ?_, fun c hc h => ?_⟩
  · rw [hb]
    rcases le_or_gt w q with hwq | hqw
    · linarith [hscale hwq]
    · linarith [hscale habove, hnext hqw]
  · rw [hb] at h
    rw [hparity]
    rcases le_or_gt w q with hwq | hqw
    · linarith [hscale hwq]
    · exact htie (.inl (hcancel _ _ (by linarith [hnext hqw])))
  · rw [hb]
    rcases le_or_gt (q : ℚ) w with hqw | hwq
    · linarith [hscale hqw, hgap c hc]
    · linarith [hscale hbelow, hprev c hc hwq]
  · rw [hb] at h
    rw [hparity]
    rcases le_or_gt (q : ℚ) w with hqw | hwq
    · linarith [hscale hqw, hgap c hc]
    · exact htie (.inr (hcancel _ _ (by linarith [hprev c hc hwq])))

theorem roundMagnitude_le_infBits (f : Format) (num den : Nat) : roundMagnitude f num den ≤ f.infBits := by
  unfold roundMagnitude
  split
  · exact Nat.zero_le _
  · exact min_le_right _ _

/-- Below the clamp at +Inf's pattern, roundMagnitude gives the pattern nearest to num/den. -/
theorem roundMagnitude_eq_min_nearest {f : Format} (hf : 0 < f.frac) (num : Nat) {den : Nat} (hd : 0 < den) :
    ∃ b, Nearest f.frac (num / den * 2 ^ ((f.frac : Int) - f.emin)) b ∧ roundMagnitude f num den = min b f.infBits := by
  rcases Nat.eq_zero_or_pos num with rfl | hn
  · exact ⟨0, by simpa using nearest_zero f.frac, by simp [roundMagnitude]⟩
  obtain ⟨e, he⟩ : ∃ e, e = max (floorLog2 num den) f.emin := ⟨_, rfl⟩
  obtain ⟨k, hk⟩ : ∃ k : Nat, e = f.emin + k := ⟨(e - f.emin).toNat, by omega⟩
  obtain ⟨hloglow, hloghigh⟩ := floorLog2_spec hn hd
  obtain ⟨hpos, hscale⟩ := scaleDown_spec num hd (e - f.frac)
  have hround : roundMagnitude f num den = min (k * 2 ^ f.frac + roundHalfEven (scaleDown num den (e - f.frac)).1
      (scaleDown num den (e - f.frac)).2) f.infBits := by
    rw [roundMagnitude, if_neg hn.ne', ← he, show k = (e - f.emin).toNat by omega]
  have hlow : (2 : ℚ) ^ f.frac ≤ num / den * 2 ^ (-(e - f.frac)) ∨ k = 0 := by
    rcases le_total f.emin (floorLog2 num den) with h | h
    · refine .inl ?_
      rw [max_eq_left h] at he
      calc (2 : ℚ) ^ f.frac = 2 ^ e * 2 ^ (-(e - f.frac)) := by
            rw [← zpow_add₀ two_ne_zero, ← zpow_natCast]; congr 1; ring
        _ ≤ _ := by gcongr; exact he ▸ hloglow
    · exact .inr (by omega)
  have hhigh : num / den * 2 ^ (-(e - f.frac)) ≤ (2 : ℚ) ^ (f.frac + 1) := by
    calc (num / den * 2 ^ (-(e - f.frac)) : ℚ) ≤ 2 ^ (e + 1) * 2 ^ (-(e - f.frac)) := by
          gcongr
          exact hloghigh.le.trans (zpow_le_zpow_right₀ one_le_two (by omega))
      _ = 2 ^ (f.frac + 1) := by rw [← zpow_add₀ two_ne_zero, ← zpow_natCast]; congr 1; push_cast; ring
  refine ⟨_, ?_, hround⟩
  have hnearest := nearest_of_significand hf hpos hscale.symm hlow hhigh
  rwa [mul_assoc, ← zpow_natCast, ← zpow_add₀ two_ne_zero, show -(e - f.frac) + k = f.frac - f.emin by omega] at hnearest

end Sys2Proof.Rounding
end

section
/-! PROOF. Binary64 patterns (00_scope.md R10, R11): sign and magnitude, the classes, the exact value, and RNE64, `F64.ofRatio`. -/

namespace Sys2Proof

open Rounding Safety

namespace F64

/-! ### Sign and magnitude of a pattern -/

theorem ext_sign_magBits {x y : F64} (hs : sign x = sign y) (hm : magBits x = magBits y) : x = y := by
  rw [sign, sign, BitVec.msb_eq_decide, BitVec.msb_eq_decide, decide_eq_decide] at hs
  unfold magBits at hm
  refine BitVec.eq_of_toNat_eq ?_
  have := x.isLt
  have := y.isLt
  omega

theorem magBits_lt (x : F64) : magBits x < 2 ^ 63 := Nat.mod_lt _ (by decide)

theorem toNat_withSign (neg : Bool) {mag : Nat} (h : mag < 2 ^ 63) :
    (withSign neg mag).toNat = (if neg then 2 ^ 63 else 0) + mag := by
  rw [withSign, BitVec.toNat_ofNat, Nat.mod_eq_of_lt]
  split <;> omega

@[simp] theorem sign_withSign (neg : Bool) {mag : Nat} (h : mag < 2 ^ 63) : sign (withSign neg mag) = neg := by
  rw [sign, BitVec.msb_eq_decide, toNat_withSign neg h]
  cases neg <;> simp
  omega

@[simp] theorem magBits_withSign (neg : Bool) {mag : Nat} (h : mag < 2 ^ 63) : magBits (withSign neg mag) = mag := by
  rw [magBits, toNat_withSign neg h]
  cases neg <;> simp <;> omega

theorem withSign_sign_magBits (x : F64) : withSign (sign x) (magBits x) = x :=
  ext_sign_magBits (sign_withSign _ (magBits_lt x)) (magBits_withSign _ (magBits_lt x))

theorem withSign_infBits (neg : Bool) : withSign neg (magBits posInf) = if neg then negInf else posInf := by
  cases neg <;> decide

theorem withSign_zero (neg : Bool) : withSign neg 0 = if neg then 0x8000000000000000#64 else 0#64 := by
  cases neg <;> decide

/-! ### The classes of patterns -/

theorem isFinite_iff {x : F64} : isFinite x = true ↔ magBits x < 0x7FF0000000000000 := decide_eq_true_iff

theorem isInf_iff {x : F64} : isInf x = true ↔ magBits x = 0x7FF0000000000000 := decide_eq_true_iff

theorem isZero_iff {x : F64} : isZero x = true ↔ magBits x = 0 := decide_eq_true_iff

theorem isNaN_iff {x : F64} : isNaN x = true ↔ 0x7FF0000000000000 < magBits x := decide_eq_true_iff

theorem isNaN_eq_false_iff {x : F64} : isNaN x = false ↔ magBits x ≤ 0x7FF0000000000000 := by
  rw [isNaN, decide_eq_false_iff_not, not_lt]

section
variable {x : F64}

theorem isNaN_of_isFinite (h : isFinite x = true) : isNaN x = false := isNaN_eq_false_iff.2 (isFinite_iff.1 h).le

theorem isInf_of_isFinite (h : isFinite x = true) : isInf x = false := decide_eq_false (isFinite_iff.1 h).ne

theorem isNaN_of_isInf (h : isInf x = true) : isNaN x = false := isNaN_eq_false_iff.2 (isInf_iff.1 h).le

theorem isZero_of_isInf (h : isInf x = true) : isZero x = false := decide_eq_false (by rw [isInf_iff.1 h]; decide)

theorem isInf_of_isZero (h : isZero x = true) : isInf x = false := decide_eq_false (by rw [isZero_iff.1 h]; decide)

theorem isNaN_of_isZero (h : isZero x = true) : isNaN x = false :=
  isNaN_eq_false_iff.2 (by rw [isZero_iff.1 h]; decide)

theorem isFinite_of_isNaN (h : isNaN x = true) : isFinite x = false := decide_eq_false (by have := isNaN_iff.1 h; omega)

theorem isFinite_of_isInf (h : isInf x = true) : isFinite x = false := decide_eq_false (by have := isInf_iff.1 h; omega)

theorem isFinite_of_not_isNaN_not_isInf (hn : isNaN x = false) (hi : isInf x = false) : isFinite x = true :=
  isFinite_iff.2 (lt_of_le_of_ne (isNaN_eq_false_iff.1 hn) (of_decide_eq_false hi))

theorem eq_inf_of_isInf (h : isInf x = true) : x = if sign x then negInf else posInf := by
  rw [← withSign_infBits, show magBits posInf = magBits x from (isInf_iff.1 h).symm, withSign_sign_magBits]

end

@[simp] theorem isNaN_nan : isNaN nan = true := by decide

/-! ### The value of a finite pattern -/

theorem natAbs_scaled (x : F64) : (scaled x).natAbs = scaledMag x := by
  unfold scaled
  split <;> simp

/-- The factor a sign bit stands for. -/
def signFactor (neg : Bool) : Int := if neg then -1 else 1

theorem signFactor_mul_self (neg : Bool) : signFactor neg * signFactor neg = 1 := by cases neg <;> rfl

theorem signFactor_bne (a b : Bool) : signFactor (a != b) = signFactor a * signFactor b := by
  cases a <;> cases b <;> rfl

theorem abs_signFactor (neg : Bool) : |signFactor neg| = 1 := by cases neg <;> rfl

theorem scaled_eq (x : F64) : scaled x = signFactor (sign x) * scaledMag x := by
  unfold scaled signFactor
  split <;> simp

theorem scaledMag_eq_zero_iff (x : F64) : scaledMag x = 0 ↔ isZero x = true := by
  rw [isZero_iff, scaledMag64_eq_units, ← (units_strictMono 52).injective.eq_iff (a := magBits x) (b := 0),
    units_zero]

theorem scaled_eq_zero_iff (x : F64) : scaled x = 0 ↔ isZero x = true := by
  rw [← Int.natAbs_eq_zero, natAbs_scaled, scaledMag_eq_zero_iff]

theorem value_eq (x : F64) : value x = signFactor (sign x) * scaledMag x / 2 ^ 1074 := by
  rw [value, scaled_eq]
  push_cast
  rfl

theorem value_eq_zero_iff (x : F64) : value x = 0 ↔ isZero x = true := by
  rw [value, div_eq_zero_iff, or_iff_left (by positivity), Int.cast_eq_zero, scaled_eq_zero_iff]

/-! ### Changing the sign -/

theorem sign_neg {x : F64} (h : isNaN x = false) : sign (neg x) = !sign x := by
  rw [neg, h, sign, if_neg Bool.false_ne_true, BitVec.msb_xor, show (0x8000000000000000#64).msb = true by decide,
    Bool.xor_true]
  rfl

theorem magBits_neg {x : F64} (h : isNaN x = false) : magBits (neg x) = magBits x := by
  rw [neg, h, magBits, if_neg Bool.false_ne_true, BitVec.toNat_xor, Nat.xor_mod_two_pow,
    show (0x8000000000000000#64).toNat % 2 ^ 63 = 0 by decide, Nat.xor_zero]
  rfl

theorem scaledMag_neg {x : F64} (h : isNaN x = false) : scaledMag (neg x) = scaledMag x := by
  rw [scaledMag64_eq_units, magBits_neg h, scaledMag64_eq_units]

theorem scaled_neg {x : F64} (h : isNaN x = false) : scaled (neg x) = -scaled x := by
  rw [scaled_eq, scaled_eq, scaledMag_neg h, sign_neg h]
  cases sign x <;> simp [signFactor]

theorem value_neg {x : F64} (h : isNaN x = false) : value (neg x) = -value x := by
  rw [value, scaled_neg h, value, Int.cast_neg, neg_div]

theorem isNaN_neg {x : F64} (h : isNaN x = false) : isNaN (neg x) = false := by
  rw [isNaN_eq_false_iff, magBits_neg h]
  exact isNaN_eq_false_iff.1 h

theorem isFinite_neg {x : F64} (h : isFinite x = true) : isFinite (neg x) = true := by
  rw [isFinite_iff, magBits_neg (isNaN_of_isFinite h)]
  exact isFinite_iff.1 h

theorem isInf_neg {x : F64} (h : isNaN x = false) : isInf (neg x) = isInf x := by
  rw [isInf, magBits_neg h, isInf]

theorem neg_of_isNaN {x : F64} (h : isNaN x = true) : neg x = nan := by simp [neg, h]

/-! ### RNE64 -/

theorem unitsPerOne_pos : 0 < unitsPerOne := pow_pos two_pos 1074

theorem unitsPerOne_cast {R : Type} [Semiring R] : (unitsPerOne : R) = 2 ^ 1074 := by
  rw [unitsPerOne, Nat.cast_pow, Nat.cast_two]

/-- num/den in units of 2^-1074. -/
def ratioUnits (num den : Nat) : ℚ := num * unitsPerOne / den

theorem ratioUnits_nonneg (num den : Nat) : 0 ≤ ratioUnits num den := by unfold ratioUnits; positivity

/-- RNE64 overflows from here on (00_scope.md R11). -/
def overflowBound : Nat := 2 ^ 1024 - 2 ^ 970

theorem overflowBound_cast : (overflowBound : ℝ) = 2 ^ 1024 - 2 ^ 970 := by
  have general : ∀ a b : Nat, b ≤ a → ((2 ^ a - 2 ^ b : Nat) : ℝ) = 2 ^ a - 2 ^ b := fun a b h => by
    rw [Nat.cast_sub (Nat.pow_le_pow_right two_pos h)]
    push_cast
    rfl
  exact general 1024 970 (by decide)

/-- The bound is the middle between the greatest finite value and the next one with an unbounded exponent. -/
theorem overflowBound_middle : units 52 0x7FEFFFFFFFFFFFFF + units 52 (0x7FEFFFFFFFFFFFFF + 1) =
    2 * (overflowBound * unitsPerOne) := by decide +kernel

theorem roundMagnitude_lt (num den : Nat) : roundMagnitude .binary64 num den < 2 ^ 63 :=
  (roundMagnitude_le_infBits _ _ _).trans_lt (by decide)

@[simp] theorem sign_ofRatio (neg : Bool) (num den : Nat) : sign (ofRatio neg num den) = neg :=
  sign_withSign neg (roundMagnitude_lt num den)

theorem magBits_ofRatio (neg : Bool) (num den : Nat) :
    magBits (ofRatio neg num den) = roundMagnitude .binary64 num den :=
  magBits_withSign neg (roundMagnitude_lt num den)

section
variable {num den : Nat}

/-- The magnitude of RNE64 of num/den is the nearest pattern, cut at +Inf's. -/
theorem exists_nearest_ofRatio (neg : Bool) (num : Nat) (hd : 0 < den) :
    ∃ b, Nearest 52 (ratioUnits num den) b ∧ magBits (ofRatio neg num den) = min b 0x7FF0000000000000 := by
  obtain ⟨b, hb, hmin⟩ := roundMagnitude_eq_min_nearest (f := .binary64) (by decide) num hd
  have hexp : ((Format.binary64.frac : Int) - Format.binary64.emin) = (1074 : ℕ) := by decide
  rw [hexp, zpow_natCast, ← unitsPerOne_cast] at hb
  exact ⟨b, by rwa [ratioUnits, mul_div_right_comm], by rw [magBits_ofRatio, hmin]; rfl⟩

/-- The nearest pattern is one of a finite value exactly below the bound. -/
theorem nearest_finite_iff {b : Nat} (hd : 0 < den) (h : Nearest 52 (ratioUnits num den) b) :
    b < 0x7FF0000000000000 ↔ num < den * overflowBound := by
  have hmiddle : (units 52 0x7FEFFFFFFFFFFFFF + units 52 (0x7FEFFFFFFFFFFFFF + 1) : ℚ) =
      2 * (overflowBound * unitsPerOne) := by exact_mod_cast overflowBound_middle
  rw [show b < 0x7FF0000000000000 ↔ b ≤ 0x7FEFFFFFFFFFFFFF by omega, h.le_odd_iff (by decide), hmiddle,
    mul_lt_mul_iff_right₀ two_pos, ratioUnits, mul_div_right_comm, mul_lt_mul_iff_left₀ (by exact_mod_cast unitsPerOne_pos),
    div_lt_iff₀ (by exact_mod_cast hd), mul_comm _ (den : ℚ)]
  exact_mod_cast Iff.rfl

theorem isInf_ofRatio_iff (neg : Bool) (hd : 0 < den) :
    isInf (ofRatio neg num den) = true ↔ den * overflowBound ≤ num := by
  obtain ⟨b, hb, hmag⟩ := exists_nearest_ofRatio neg num hd
  rw [isInf_iff, hmag, ← not_lt, ← nearest_finite_iff hd hb]
  omega

theorem isFinite_ofRatio (neg : Bool) (hd : 0 < den) (h : num < den * overflowBound) :
    isFinite (ofRatio neg num den) = true := by
  obtain ⟨b, hb, hmag⟩ := exists_nearest_ofRatio neg num hd
  rw [isFinite_iff, hmag]
  exact (min_le_left _ _).trans_lt ((nearest_finite_iff hd hb).2 h)

/-- Below the bound RNE64 of num/den is the nearest pattern. -/
theorem nearest_ofRatio (neg : Bool) (hd : 0 < den) (h : num < den * overflowBound) :
    Nearest 52 (ratioUnits num den) (magBits (ofRatio neg num den)) := by
  obtain ⟨b, hb, hmag⟩ := exists_nearest_ofRatio neg num hd
  rwa [hmag, min_eq_left ((nearest_finite_iff hd hb).2 h).le]

/-- Where a finite value is num/den exactly, RNE64 gives it back. -/
theorem ofRatio_eq_of_units (neg : Bool) (hd : 0 < den) {b : Nat} (hb : b < 0x7FF0000000000000)
    (h : ratioUnits num den = units 52 b) : ofRatio neg num den = withSign neg b := by
  obtain ⟨c, hc, hmag⟩ := exists_nearest_ofRatio neg num hd
  rw [h] at hc
  obtain rfl := hc.eq_of_eq_units
  rw [← withSign_sign_magBits (ofRatio neg num den), sign_ofRatio, hmag, min_eq_left hb.le]

/-- Distances to ±num/den are den times those to the nearest pattern's rational. -/
theorem abs_sub_ratio (neg : Bool) (hd : 0 < den) (w : Int) :
    ((|w * den - signFactor neg * num * unitsPerOne| : Int) : ℚ) =
      den * |(signFactor neg * w : Int) - ratioUnits num den| := by
  have hd' : (0 : ℚ) < den := by exact_mod_cast hd
  have hunits : (den : ℚ) * ratioUnits num den = num * unitsPerOne := mul_div_cancel₀ _ hd'.ne'
  have habs : (den : ℚ) * |(signFactor neg * w : Int) - ratioUnits num den| =
      |den * (signFactor neg * w : Int) - (num * unitsPerOne : ℚ)| := by
    rw [← hunits, ← mul_sub, abs_mul, abs_of_pos hd']
  rw [habs, Int.cast_abs]
  generalize unitsPerOne = u
  cases neg
  · simp [signFactor, mul_comm]
  · rw [← abs_neg]
    simp [signFactor, mul_comm, sub_eq_add_neg, add_comm]

/-- 00_scope.md R11: below the bound no finite value is nearer to ±num/den than RNE64 of it, and where another is as near, the result
is even. -/
theorem dist_ofRatio (neg : Bool) (hd : 0 < den) (h : num < den * overflowBound) {x : F64} (hx : x = ofRatio neg num den)
    {r : Int} (hr : r = signFactor neg * num * unitsPerOne) (y : F64) :
    |scaled x * den - r| ≤ |scaled y * den - r| ∧
      (|scaled x * den - r| = |scaled y * den - r| → scaled x ≠ scaled y → magBits x % 2 = 0) := by
  have hd' : (0 : ℚ) < den := by exact_mod_cast hd
  have hx' : signFactor neg * scaled x = units 52 (magBits x) := by
    rw [scaled_eq, hx, sign_ofRatio, ← mul_assoc, signFactor_mul_self, one_mul, scaledMag64_eq_units]
  have hy : (signFactor neg * scaled y).natAbs = units 52 (magBits y) := by
    rw [Int.natAbs_mul, natAbs_scaled, scaledMag64_eq_units]
    cases neg <;> exact one_mul _
  obtain ⟨hle, heven⟩ := (hx ▸ nearest_ofRatio neg hd h).dist_le_int (ratioUnits_nonneg num den) hy
  rw [← Int.cast_le (R := ℚ), ← Int.cast_inj (α := ℚ), hr, abs_sub_ratio neg hd, abs_sub_ratio neg hd, hx', Int.cast_natCast,
    mul_le_mul_iff_right₀ hd', mul_right_inj' hd'.ne']
  exact ⟨hle, fun heq hne => heven heq fun hc => hne (by
    rw [← hx'] at hc
    exact mul_left_cancel₀ (by cases neg <;> decide) hc)⟩

end

/-! ### RNE64 as a rounding of real numbers -/

section
variable {num den : Nat}

theorem value_cast (x : F64) : (value x : ℝ) = scaled x / unitsPerOne := by
  rw [value, ← unitsPerOne_cast]
  push_cast
  rfl

theorem isRounded_zero {x : F64} (h : isZero x = true) : IsRounded 0 x := by
  have hx : value x = 0 := (value_eq_zero_iff x).2 h
  have hlt : |(0 : ℝ)| < overflowBound := by rw [abs_zero]; exact_mod_cast (by decide +kernel : 0 < overflowBound)
  rw [overflowBound_cast] at hlt
  refine ⟨fun h0 => absurd hlt h0.not_gt, fun _ => ?_, fun _ y _ => ?_, fun _ y _ heq hne => ?_⟩
  · exact isFinite_iff.2 (by rw [isZero_iff.1 h]; decide)
  · simp [hx]
  · rw [hx] at heq hne
    simp only [Rat.cast_zero, sub_zero, abs_zero] at heq
    exact absurd (Rat.cast_eq_zero.1 (abs_eq_zero.1 heq.symm)).symm hne

/-- RNE64 of ±num/den rounds that real number. -/
theorem isRounded_ofRatio (neg : Bool) (num : Nat) (hd : 0 < den) {r : ℝ} (hr : r = signFactor neg * num / den) :
    IsRounded r (ofRatio neg num den) := by
  have hd' : (0 : ℝ) < den := by exact_mod_cast hd
  have hu : (0 : ℝ) < unitsPerOne := by exact_mod_cast unitsPerOne_pos
  have hdu : (0 : ℝ) < den * unitsPerOne := mul_pos hd' hu
  have habs : |r| = num / den := by
    rw [hr, abs_div, abs_mul, ← Int.cast_abs, abs_signFactor, Nat.abs_cast, Nat.abs_cast, Int.cast_one, one_mul]
  have hbound : |r| < 2 ^ 1024 - 2 ^ 970 ↔ num < den * overflowBound := by
    rw [habs, ← overflowBound_cast, div_lt_iff₀ hd', mul_comm]
    exact_mod_cast Iff.rfl
  have hdist : ∀ y : F64, |(value y : ℝ) - r| =
      ((|scaled y * den - signFactor neg * num * unitsPerOne| : Int) : ℝ) / (den * unitsPerOne) := fun y => by
    rw [value_cast, hr, eq_div_iff hdu.ne', ← abs_eq_self.2 hdu.le, ← abs_mul, Int.cast_abs]
    push_cast
    generalize unitsPerOne = u at hu
    congr 1
    field_simp
  refine ⟨fun h => ?_, fun h => ?_, fun h y _ => ?_, fun h y _ heq hne => ?_⟩
  · have hle : den * overflowBound ≤ num := not_lt.1 (mt hbound.2 h.not_gt)
    have hnum : 0 < num := lt_of_lt_of_le (Nat.mul_pos hd (by decide +kernel)) hle
    have hnum' : (0 : ℝ) < num / den := div_pos (by exact_mod_cast hnum) hd'
    rw [eq_inf_of_isInf ((isInf_ofRatio_iff neg hd).2 hle), sign_ofRatio, hr, mul_div_assoc]
    cases neg
    · simp [signFactor, hnum']
    · simp [signFactor, hnum'.le]
  · exact isFinite_ofRatio neg hd (hbound.1 h)
  · rw [hdist, hdist, div_le_div_iff_of_pos_right hdu, Int.cast_le]
    exact (dist_ofRatio neg hd (hbound.1 h) rfl rfl y).1
  · rw [hdist, hdist, div_left_inj' hdu.ne', Int.cast_inj] at heq
    exact (dist_ofRatio neg hd (hbound.1 h) rfl rfl y).2 heq fun hs => hne (by rw [value, value, hs])

end
end F64
end Sys2Proof
end

section
/-! PROOF. RNE64 of binary64 values, widening, and RNE32 (00_scope.md R10, R11). -/

namespace Sys2Proof

open Rounding Safety

namespace F64

/-- Rounding the exact value of a finite pattern gives that pattern back, with its sign (00_scope.md R11). -/
theorem ofRatio_scaledMag {x : F64} (h : isFinite x = true) : ofRatio (sign x) (scaledMag x) unitsPerOne = x := by
  have hexact : ratioUnits (scaledMag x) unitsPerOne = units 52 (magBits x) :=
    mul_div_cancel_right₀ _ (by exact_mod_cast unitsPerOne_pos.ne')
  rw [ofRatio_eq_of_units _ unitsPerOne_pos (isFinite_iff.1 h) hexact, withSign_sign_magBits]

end F64

namespace F32

/-! ### Binary32 patterns -/

/-- The least positive binary32 value, 2^-149, in units of 2^-1074. -/
def unit64 : Nat := 2 ^ 925

theorem unit64_pos : 0 < unit64 := pow_pos two_pos 925

theorem unitsPerOne_eq : F64.unitsPerOne = unit64 * 2 ^ 149 := by decide +kernel

theorem isNaN_eq_false_iff {y : F32} : isNaN y = false ↔ magBits y ≤ 0x7F800000 := by
  rw [isNaN, decide_eq_false_iff_not, not_lt]

theorem isInf_iff {y : F32} : isInf y = true ↔ magBits y = 0x7F800000 := decide_eq_true_iff

theorem magBits_lt_of_finite {y : F32} (hn : isNaN y = false) (hi : isInf y = false) : magBits y < 0x7F800000 :=
  lt_of_le_of_ne (isNaN_eq_false_iff.1 hn) (of_decide_eq_false hi)

/-- The pattern with the sign bit `neg` and magnitude `mag`, as `toF32` writes it. -/
theorem msb_magBits_ofNat (neg : Bool) {mag : Nat} (h : mag < 2 ^ 31) :
    (BitVec.ofNat 32 ((if neg then 2 ^ 31 else 0) + mag)).msb = neg ∧
      magBits (BitVec.ofNat 32 ((if neg then 2 ^ 31 else 0) + mag)) = mag := by
  have htoNat : (BitVec.ofNat 32 ((if neg then 2 ^ 31 else 0) + mag)).toNat = (if neg then 2 ^ 31 else 0) + mag := by
    rw [BitVec.toNat_ofNat, Nat.mod_eq_of_lt]
    split <;> omega
  rw [magBits, BitVec.msb_eq_decide, htoNat]
  cases neg <;> simp <;> omega

/-! ### Widening -/

/-- A finite binary32 value has at most 24 significant bits. -/
theorem exists_significand (y : F32) : ∃ k q, q < 2 ^ 24 ∧ scaledMag y = q * 2 ^ k := by
  obtain ⟨k, q, hb, hlow, hhigh⟩ := exists_step_significand 23 (magBits y)
  exact ⟨k, q, hhigh, by rw [scaledMag32_eq_units, hb, units_eq hlow hhigh.le]⟩

theorem scaledMag_lt {y : F32} (h : magBits y < 0x7F800000) : scaledMag y < units 23 0x7F800000 := by
  rw [scaledMag32_eq_units]
  exact units_strictMono 23 h

/-- Every finite binary32 value is the value of a finite binary64 pattern. -/
theorem exists_binary64_pattern {y : F32} (h : magBits y < 0x7F800000) :
    ∃ b, b < 0x7FF0000000000000 ∧ units 52 b = scaledMag y * unit64 := by
  obtain ⟨k, q, hq, hy⟩ := exists_significand y
  obtain ⟨b, hb⟩ := exists_units_eq 52 (k + 925) (hq.trans (by decide : 2 ^ 24 < 2 ^ (52 + 1)))
  have hval : units 52 b = scaledMag y * unit64 := by rw [hb, hy, unit64, pow_add, mul_assoc]
  refine ⟨b, (units_strictMono 52).lt_iff_lt.1 ?_, hval⟩
  calc units 52 b = scaledMag y * unit64 := hval
    _ < units 23 0x7F800000 * unit64 := Nat.mul_lt_mul_of_pos_right (scaledMag_lt h) unit64_pos
    _ ≤ units 52 0x7FF0000000000000 := by decide +kernel

/-- A finite binary32 value is widened to the binary64 pattern of the same sign and value (00_scope.md R10). -/
theorem widen_finite {y : F32} (hn : isNaN y = false) (hi : isInf y = false) :
    ∃ b, b < 0x7FF0000000000000 ∧ units 52 b = scaledMag y * unit64 ∧ widen y = F64.withSign y.msb b := by
  obtain ⟨b, hb, hval⟩ := exists_binary64_pattern (magBits_lt_of_finite hn hi)
  have hexact : F64.ratioUnits (scaledMag y) (2 ^ 149) = units 52 b := by
    rw [F64.ratioUnits, hval, unitsPerOne_eq, Nat.cast_mul, Nat.cast_mul, ← mul_assoc,
      mul_div_cancel_right₀ _ (Nat.cast_ne_zero.2 (pow_ne_zero _ two_ne_zero))]
  exact ⟨b, hb, hval, by
    rw [widen, hn, hi]
    exact F64.ofRatio_eq_of_units _ (pow_pos two_pos _) hb hexact⟩

/-- Settles O24: a finite value is widened to a pattern that holds it exactly. -/
theorem wideningIsExact : Obligations.WideningIsExact := by
  unfold Obligations.WideningIsExact
  refine fun y => ⟨fun h => ?_, fun h => ?_, fun hn hi => ?_⟩
  · rw [widen, if_pos h]
    exact F64.isNaN_nan
  · have hn : isNaN y = false := isNaN_eq_false_iff.2 (isInf_iff.1 h).le
    rw [widen, hn, h]
    exact ⟨F64.isInf_iff.2 (F64.magBits_withSign _ (by decide)), F64.sign_withSign _ (by decide)⟩
  · obtain ⟨b, hb, hval, hw⟩ := widen_finite hn hi
    have hb' : b < 2 ^ 63 := by omega
    rw [hw, scaledMag64_eq_units, F64.isFinite_iff, F64.sign_withSign _ hb', F64.magBits_withSign _ hb']
    exact ⟨hb, rfl, hval⟩

end F32

namespace F64

/-! ### RNE32 -/

/-- RNE32 overflows from here on, in units of 2^-1074 (00_scope.md R11). -/
def overflowBound32 : Nat := (2 ^ 128 - 2 ^ 103) * 2 ^ 1074

theorem overflowBound32_middle :
    (units 23 0x7F7FFFFF + units 23 (0x7F7FFFFF + 1)) * F32.unit64 = 2 * overflowBound32 := by decide +kernel

/-- RNE32 of a finite value keeps the sign, and its magnitude is the nearest binary32 pattern, cut at +Inf's. -/
theorem exists_nearest_toF32 {x : F64} (h : isFinite x = true) :
    ∃ b, Nearest 23 (scaledMag x / F32.unit64) b ∧ F32.magBits (toF32 x) = min b 0x7F800000 ∧
      (toF32 x).msb = sign x := by
  obtain ⟨b, hb, hmin⟩ := roundMagnitude_eq_min_nearest (f := .binary32) (by decide) (scaledMag x) unitsPerOne_pos
  have hexp : ((Format.binary32.frac : Int) - Format.binary32.emin) = (149 : ℕ) := by decide
  have hunit : (scaledMag x / unitsPerOne * 2 ^ 149 : ℚ) = scaledMag x / F32.unit64 := by
    rw [F32.unitsPerOne_eq, Nat.cast_mul, Nat.cast_pow, Nat.cast_two, div_mul_eq_mul_div,
      mul_div_mul_right _ _ (pow_ne_zero _ two_ne_zero)]
  rw [hexp, zpow_natCast, hunit] at hb
  have hinf : Format.binary32.infBits = 0x7F800000 := rfl
  have htoF32 : toF32 x = BitVec.ofNat 32 ((if sign x then 2 ^ 31 else 0) + min b 0x7F800000) := by
    rw [toF32, isNaN_of_isFinite h, isInf_of_isFinite h, hmin, hinf]
    rfl
  obtain ⟨hmsb, hmag⟩ := F32.msb_magBits_ofNat (sign x) (show min b 0x7F800000 < 2 ^ 31 by omega)
  exact ⟨b, hb, by rw [htoF32, hmag], by rw [htoF32, hmsb]⟩

/-- The nearest binary32 pattern is one of a finite value exactly below the bound. -/
theorem nearest32_finite_iff {m b : Nat} (h : Nearest 23 (m / F32.unit64) b) : b < 0x7F800000 ↔ m < overflowBound32 := by
  have hu : (0 : ℚ) < F32.unit64 := by exact_mod_cast F32.unit64_pos
  have hmiddle : (units 23 0x7F7FFFFF + units 23 (0x7F7FFFFF + 1) : ℚ) * F32.unit64 = 2 * overflowBound32 := by
    exact_mod_cast overflowBound32_middle
  rw [show b < 0x7F800000 ↔ b ≤ 0x7F7FFFFF by omega, h.le_odd_iff (by decide), ← mul_div_assoc, div_lt_iff₀ hu, hmiddle,
    mul_lt_mul_iff_right₀ two_pos]
  exact Nat.cast_lt

/-- Distances in units of 2^-1074 are those in binary32's units times 2^925. -/
theorem abs_sub_scaledMag32 (a m : Nat) :
    ((|(a : Int) * F32.unit64 - m| : Int) : ℚ) = F32.unit64 * |(a : ℚ) - m / F32.unit64| := by
  have hu : (0 : ℚ) < F32.unit64 := by exact_mod_cast F32.unit64_pos
  rw [← abs_of_pos hu, ← abs_mul, abs_of_pos hu, mul_sub, mul_div_cancel₀ _ hu.ne', Int.cast_abs]
  push_cast
  rw [mul_comm]

theorem isInf_toF32_iff {x : F64} (h : isFinite x = true) :
    F32.isInf (toF32 x) = true ↔ overflowBound32 ≤ scaledMag x := by
  obtain ⟨b, hb, hmag, -⟩ := exists_nearest_toF32 h
  rw [F32.isInf_iff, hmag, ← not_lt, ← nearest32_finite_iff hb]
  omega

/-- 00_scope.md R11: below the bound RNE32 is no NaN, no binary32 value is nearer, and where another is as near, the result is even. -/
theorem dist_toF32 {x : F64} (h : isFinite x = true) (hlt : scaledMag x < overflowBound32) (y : F32) :
    F32.isNaN (toF32 x) = false ∧
      |(F32.scaledMag (toF32 x) : Int) * F32.unit64 - scaledMag x| ≤ |(F32.scaledMag y : Int) * F32.unit64 - scaledMag x| ∧
        (|(F32.scaledMag (toF32 x) : Int) * F32.unit64 - scaledMag x| =
            |(F32.scaledMag y : Int) * F32.unit64 - scaledMag x| →
          F32.scaledMag (toF32 x) ≠ F32.scaledMag y → F32.magBits (toF32 x) % 2 = 0) := by
  obtain ⟨b, hb, hmag, -⟩ := exists_nearest_toF32 h
  have hu : (0 : ℚ) < F32.unit64 := by exact_mod_cast F32.unit64_pos
  have hfin := (nearest32_finite_iff hb).2 hlt
  rw [min_eq_left hfin.le] at hmag
  obtain ⟨hle, heven⟩ := hb.dist_le (F32.magBits y)
  rw [← Int.cast_le (R := ℚ), ← Int.cast_inj (α := ℚ), abs_sub_scaledMag32, abs_sub_scaledMag32,
    mul_le_mul_iff_right₀ hu, mul_right_inj' hu.ne', scaledMag32_eq_units, scaledMag32_eq_units, hmag]
  exact ⟨F32.isNaN_eq_false_iff.2 (hmag ▸ hfin.le), hle, fun heq hne => heven heq fun hc => hne (hc ▸ rfl)⟩

/-- Settles O22: the value of a pattern is nearest to that pattern, so rounding gives it back. -/
theorem rne64KeepsBinary64Values : Obligations.Rne64KeepsBinary64Values := fun _ => ofRatio_scaledMag

/-- Settles O23: below the bound RNE32 is the nearest binary32 pattern, and from there on it is cut at +Inf's. -/
theorem rne32RoundsToNearestEven : Obligations.Rne32RoundsToNearestEven := by
  unfold Obligations.Rne32RoundsToNearestEven
  refine fun x => ⟨fun h => ?_, fun h => ?_, fun h => ⟨?_, isInf_toF32_iff h, fun hlt => ⟨?_, fun y _ _ => ?_⟩⟩⟩
  · rw [toF32, if_pos h]
    rfl
  · rw [toF32, isNaN_of_isInf h, h, if_neg Bool.false_ne_true]
    change BitVec.ofNat 32 ((if sign x then 2 ^ 31 else 0) + Format.binary32.infBits) = _
    cases sign x <;> decide
  · obtain ⟨-, -, -, hsign⟩ := exists_nearest_toF32 h
    exact hsign
  · exact (dist_toF32 h hlt 0#32).1
  · have hdist := (dist_toF32 h hlt y).2
    rwa [F32.unit64, Nat.cast_pow] at hdist

end F64
end Sys2Proof
end

section
/-! PROOF. The binary64 operators (00_scope.md R11): each is RNE64 of the exact result, with the IEEE 754 rules for what has none. -/

namespace Sys2Proof

open Rounding Safety

namespace F64

/-! ### The operators on finite values: RNE64 of the exact result -/

section
variable {x y : F64}

theorem add_of_isFinite (hx : isFinite x = true) (hy : isFinite y = true) :
    add x y = if scaled x + scaled y = 0 then withSign (sign x && sign y) 0 else ofScaled (scaled x + scaled y) := by
  simp [add, isNaN_of_isFinite, isInf_of_isFinite, hx, hy]

theorem mul_of_isFinite (hx : isFinite x = true) (hy : isFinite y = true) :
    mul x y = ofRatio (sign x != sign y) (scaledMag x * scaledMag y) (unitsPerOne * unitsPerOne) := by
  simp [mul, isNaN_of_isFinite, isInf_of_isFinite, hx, hy]

theorem div_of_isFinite (hx : isFinite x = true) (hy : isFinite y = true) (h0 : isZero y = false) :
    div x y = ofRatio (sign x != sign y) (scaledMag x) (scaledMag y) := by
  simp [div, isNaN_of_isFinite, isInf_of_isFinite, hx, hy, h0]

theorem le_of_isFinite (hx : isFinite x = true) (hy : isFinite y = true) : le x y = decide (scaled x ≤ scaled y) := by
  simp [le, isNaN_of_isFinite, isInf_of_isFinite, hx, hy]

theorem isRounded_ofScaled (n : Int) : IsRounded ((n : ℝ) / unitsPerOne) (ofScaled n) := by
  refine isRounded_ofRatio _ _ unitsPerOne_pos ?_
  have hn : signFactor (decide (n < 0)) * (n.natAbs : Int) = n := by
    rcases lt_or_ge n 0 with h | h
    · simp [signFactor, h, abs_of_neg]
    · simp [signFactor, h.not_gt, abs_of_nonneg h]
  rw [← Int.cast_natCast n.natAbs, ← Int.cast_mul, hn]

theorem value_cast_eq (x : F64) : (value x : ℝ) = signFactor (sign x) * scaledMag x / unitsPerOne := by
  rw [value_cast, scaled_eq]
  push_cast
  rfl

theorem value_add_value (x y : F64) : value x + value y = ((scaled x + scaled y : Int) : ℚ) / 2 ^ 1074 := by
  rw [value, value, ← add_div, Int.cast_add]

theorem value_add_value_eq_zero_iff (x y : F64) : value x + value y = 0 ↔ scaled x + scaled y = 0 := by
  rw [value_add_value, div_eq_zero_iff, or_iff_left (pow_ne_zero _ two_ne_zero), Int.cast_eq_zero]

theorem add_of_value_eq_zero (hx : isFinite x = true) (hy : isFinite y = true) (h : value x + value y = 0) :
    add x y = if sign x ∧ sign y then 0x8000000000000000#64 else 0#64 := by
  rw [add_of_isFinite hx hy, if_pos ((value_add_value_eq_zero_iff x y).1 h), withSign_zero]
  simp

theorem isRounded_add (hx : isFinite x = true) (hy : isFinite y = true) :
    IsRounded (value x + value y) (add x y) := by
  have hsum : (value x : ℝ) + value y = ((scaled x + scaled y : Int) : ℝ) / unitsPerOne := by
    rw [value_cast, value_cast, ← add_div, Int.cast_add]
  rw [add_of_isFinite hx hy, hsum]
  split
  · rw [‹scaled x + scaled y = 0›, Int.cast_zero, zero_div]
    exact isRounded_zero (isZero_iff.2 (magBits_withSign _ (by decide)))
  · exact isRounded_ofScaled _

theorem isRounded_sub (hx : isFinite x = true) (hy : isFinite y = true) :
    IsRounded (value x - value y) (sub x y) := by
  have h := isRounded_add hx (isFinite_neg hy)
  rwa [value_neg (isNaN_of_isFinite hy), Rat.cast_neg, ← sub_eq_add_neg] at h

theorem sub_of_value_eq_zero (hx : isFinite x = true) (hy : isFinite y = true) (h : value x - value y = 0) :
    sub x y = if sign x ∧ ¬ sign y then 0x8000000000000000#64 else 0#64 := by
  have hn := isNaN_of_isFinite hy
  rw [sub_eq_add_neg, ← value_neg hn] at h
  rw [sub, add_of_value_eq_zero hx (isFinite_neg hy) h, sign_neg hn]
  simp

theorem isRounded_mul (hx : isFinite x = true) (hy : isFinite y = true) :
    IsRounded (value x * value y) (mul x y) := by
  rw [mul_of_isFinite hx hy]
  refine isRounded_ofRatio _ _ (Nat.mul_pos unitsPerOne_pos unitsPerOne_pos) ?_
  rw [value_cast_eq, value_cast_eq, signFactor_bne, div_mul_div_comm]
  push_cast
  ring

theorem isRounded_div (hx : isFinite x = true) (hy : isFinite y = true) (h0 : isZero y = false) :
    IsRounded (value x / value y) (div x y) := by
  have hpos : 0 < scaledMag y := Nat.pos_of_ne_zero fun h => by simp [(scaledMag_eq_zero_iff y).1 h] at h0
  have hu : (unitsPerOne : ℝ) ≠ 0 := by exact_mod_cast unitsPerOne_pos.ne'
  rw [div_of_isFinite hx hy h0]
  refine isRounded_ofRatio _ _ hpos ?_
  rw [value_cast_eq, value_cast_eq, signFactor_bne, div_div_div_cancel_right₀ hu]
  cases sign y <;> simp [signFactor, neg_div, div_neg]

theorem le_iff_value_le (hx : isFinite x = true) (hy : isFinite y = true) : le x y = true ↔ value x ≤ value y := by
  rw [le_of_isFinite hx hy, decide_eq_true_iff, value, value, div_le_div_iff_of_pos_right (pow_pos two_pos _), Int.cast_le]

theorem lt_iff_value_lt (hx : isFinite x = true) (hy : isFinite y = true) : lt x y = true ↔ value x < value y := by
  rw [lt, Bool.and_eq_true, Bool.not_eq_true', ← Bool.not_eq_true, le_iff_value_le hx hy, le_iff_value_le hy hx,
    lt_iff_le_not_ge]

/-! ### NaN operands -/

theorem add_of_isNaN (h : isNaN x = true ∨ isNaN y = true) : add x y = nan := by
  rw [add, if_pos (by simpa using h)]

theorem sub_of_isNaN (h : isNaN x = true ∨ isNaN y = true) : sub x y = nan :=
  add_of_isNaN (h.imp_right fun hy => by rw [neg_of_isNaN hy]; exact isNaN_nan)

theorem mul_of_isNaN (h : isNaN x = true ∨ isNaN y = true) : mul x y = nan := by
  rw [mul]
  exact if_pos (by simpa using h)

theorem div_of_isNaN (h : isNaN x = true ∨ isNaN y = true) : div x y = nan := by
  rw [div]
  exact if_pos (by simpa using h)

theorem le_of_isNaN (h : isNaN x = true ∨ isNaN y = true) : le x y = false := by
  rw [le, if_pos (by simpa using h)]

theorem lt_of_isNaN (h : isNaN x = true ∨ isNaN y = true) : lt x y = false := by
  rw [lt, le_of_isNaN h, Bool.false_and]

/-! ### Infinite operands, a zero divisor, and signs -/

theorem withSign_bne_infBits (a b : Bool) : withSign (a != b) (magBits posInf) = if a = b then posInf else negInf := by
  cases a <;> cases b <;> decide

theorem withSign_bne_zero (a b : Bool) : withSign (a != b) 0 = if a = b then 0#64 else 0x8000000000000000#64 := by
  cases a <;> cases b <;> decide

theorem add_of_isInf_left (hx : isInf x = true) (hn : isNaN y = false) (hy : isInf y = false) : add x y = x := by
  simp [add, isNaN_of_isInf hx, hx, hn, hy]

theorem add_of_isInf_right (hn : isNaN x = false) (hx : isInf x = false) (hy : isInf y = true) : add x y = y := by
  simp [add, isNaN_of_isInf hy, hx, hn, hy]

theorem add_of_isInf_both (hx : isInf x = true) (hy : isInf y = true) :
    add x y = if sign x = sign y then x else nan := by
  simp only [add, isNaN_of_isInf hx, isNaN_of_isInf hy, hx, hy]
  cases sign x <;> cases sign y <;> rfl

theorem sub_of_isInf_left (hx : isInf x = true) (hn : isNaN y = false) (hy : isInf y = false) : sub x y = x :=
  add_of_isInf_left hx (isNaN_neg hn) ((isInf_neg hn).trans hy)

theorem neg_of_isInf (h : isInf x = true) : neg x = if sign x then posInf else negInf := by
  have hn := isNaN_of_isInf h
  rw [eq_inf_of_isInf ((isInf_neg hn).trans h), sign_neg hn]
  cases sign x <;> rfl

theorem sub_of_isInf_right (hn : isNaN x = false) (hx : isInf x = false) (hy : isInf y = true) :
    sub x y = if sign y then posInf else negInf := by
  rw [sub, add_of_isInf_right hn hx ((isInf_neg (isNaN_of_isInf hy)).trans hy), neg_of_isInf hy]

theorem sub_of_isInf_both (hx : isInf x = true) (hy : isInf y = true) :
    sub x y = if sign x = sign y then nan else x := by
  have hn := isNaN_of_isInf hy
  rw [sub, add_of_isInf_both hx ((isInf_neg hn).trans hy), sign_neg hn]
  cases sign x <;> cases sign y <;> rfl

theorem mul_of_isInf (hnx : isNaN x = false) (hny : isNaN y = false) (h : isInf x = true ∨ isInf y = true) :
    mul x y = if isZero x ∨ isZero y then nan else if sign x = sign y then posInf else negInf := by
  rw [← withSign_bne_infBits]
  simp [mul, hnx, hny, h]

theorem div_of_isZero (hnx : isNaN x = false) (hx : isInf x = false) (hy : isZero y = true) :
    div x y = if isZero x then nan else if sign x = sign y then posInf else negInf := by
  rw [← withSign_bne_infBits]
  simp [div, hnx, hx, isNaN_of_isZero hy, isInf_of_isZero hy, hy]

theorem div_of_isInf_left (hny : isNaN y = false) (hx : isInf x = true) :
    div x y = if isInf y then nan else if sign x = sign y then posInf else negInf := by
  rw [← withSign_bne_infBits]
  simp [div, hny, isNaN_of_isInf hx, hx]

theorem div_of_isInf_right (hnx : isNaN x = false) (hx : isInf x = false) (hy : isInf y = true) :
    div x y = if sign x = sign y then 0#64 else 0x8000000000000000#64 := by
  rw [← withSign_bne_zero]
  simp [div, hnx, hx, isNaN_of_isInf hy, hy]

theorem sign_mul (h : isNaN (mul x y) = false) : sign (mul x y) = (sign x != sign y) := by
  revert h
  unfold mul
  dsimp only
  split
  · intro h; exact absurd h (by decide)
  split
  · split
    · intro h; exact absurd h (by decide)
    · exact fun _ => sign_withSign _ (by decide)
  · exact fun _ => sign_ofRatio _ _ _

theorem sign_div (h : isNaN (div x y) = false) : sign (div x y) = (sign x != sign y) := by
  revert h
  unfold div
  dsimp only
  split
  · intro h; exact absurd h (by decide)
  split
  · split
    · intro h; exact absurd h (by decide)
    · exact fun _ => sign_withSign _ (by decide)
  split
  · exact fun _ => sign_withSign _ (by decide)
  split
  · split
    · intro h; exact absurd h (by decide)
    · exact fun _ => sign_withSign _ (by decide)
  · exact fun _ => sign_ofRatio _ _ _

end

/-- RNE64 of ±num/den as the obligation writes it (00_scope.md R11). -/
theorem ofRatio_roundsToNearestEven (neg : Bool) (num den : Nat) (hd : 0 < den) (x : F64) (r : Int)
    (hx : x = ofRatio neg num den) (hr : r = (if neg then -(num : Int) else num) * 2 ^ 1074) :
    sign x = neg ∧ (isInf x = true ↔ den * overflowBound ≤ num) ∧
      (num < den * overflowBound → isFinite x = true ∧ ∀ y : F64, isFinite y = true →
        |scaled x * den - r| ≤ |scaled y * den - r| ∧
          (|scaled x * den - r| = |scaled y * den - r| → scaled x ≠ scaled y → magBits x % 2 = 0)) := by
  have hr' : r = signFactor neg * num * unitsPerOne := by
    have hs : (if neg then -(num : Int) else num) = signFactor neg * num := by cases neg <;> simp [signFactor]
    rw [hr, hs, unitsPerOne_cast]
  exact ⟨hx ▸ sign_ofRatio neg num den, hx ▸ isInf_ofRatio_iff neg hd, fun h =>
    ⟨hx ▸ isFinite_ofRatio neg hd h, fun y _ => dist_ofRatio neg hd h hx hr' y⟩⟩

/-- Settles O21: RNE64 is the nearest binary64 pattern, and each operator is RNE64 of a ratio of whole numbers. -/
theorem rne64RoundsToNearestEven : Obligations.Rne64RoundsToNearestEven := by
  unfold Obligations.Rne64RoundsToNearestEven
  refine ⟨ofRatio_roundsToNearestEven, fun x y => ⟨fun h => ?_, fun hx hy => ?_, fun hx hy => ?_⟩⟩
  · rw [add_of_isNaN h, sub_of_isNaN h, mul_of_isNaN h, div_of_isNaN h]
    exact ⟨isNaN_nan, isNaN_nan, isNaN_nan, isNaN_nan, lt_of_isNaN h, le_of_isNaN h⟩
  · exact ⟨isRounded_add hx hy, add_of_value_eq_zero hx hy, isRounded_sub hx hy, sub_of_value_eq_zero hx hy,
      isRounded_mul hx hy, isRounded_div hx hy, lt_iff_value_lt hx hy, le_iff_value_le hx hy⟩
  · refine ⟨fun ix iy => ⟨add_of_isInf_left ix hy iy, sub_of_isInf_left ix hy iy⟩,
      fun ix iy => ⟨add_of_isInf_right hx ix iy, sub_of_isInf_right hx ix iy⟩,
      fun ix iy => ?_, fun h => ?_, fun zy ix => ?_, fun ix => ?_, div_of_isInf_right hx, sign_mul, sign_div⟩
    · rw [add_of_isInf_both ix iy, sub_of_isInf_both ix iy]
      split <;> simp
    · rw [mul_of_isInf hx hy h]
      split <;> simp
    · rw [div_of_isZero hx ix zy]
      split <;> simp
    · rw [div_of_isInf_left hy ix]
      split <;> simp

end F64
end Sys2Proof
end

section
/-! PROOF. The binary64 square root (00_scope.md R11): the whole root found bit by bit decides every middle between two values. -/

namespace Sys2Proof

open Rounding Safety

namespace F64

/-! ### The whole square root -/

/-- One bit at a time from a root that is not too great and less than 2^bits away, sqrtBits finds the whole root. -/
theorem sqrtBits_spec (n bits root : Nat) (hlow : root * root ≤ n) (hhigh : n < (root + 2 ^ bits) * (root + 2 ^ bits)) :
    sqrtBits n bits root * sqrtBits n bits root ≤ n ∧ n < (sqrtBits n bits root + 1) * (sqrtBits n bits root + 1) := by
  induction bits generalizing root with
  | zero => exact ⟨hlow, hhigh⟩
  | succ b ih =>
    rw [sqrtBits]
    split
    · exact ih _ ‹_› (by rwa [add_assoc, ← mul_two, ← pow_succ])
    · exact ih _ hlow (not_le.1 ‹_›)

/-- The square root of x, cut to a multiple of 2^-597: the whole root that `sqrt` takes. -/
def sqrtRoot (x : F64) : Nat := sqrtBits (scaledMag x * 2 ^ 120) 1110 0

theorem scaledMag_lt {x : F64} (h : isFinite x = true) : scaledMag x < 2 ^ 2098 := by
  have hinf : units 52 0x7FF0000000000000 = 2 ^ 2098 := by decide +kernel
  rw [scaledMag64_eq_units, ← hinf]
  exact units_strictMono 52 (isFinite_iff.1 h)

theorem sqrtRoot_spec {x : F64} (h : isFinite x = true) :
    sqrtRoot x * sqrtRoot x ≤ scaledMag x * 2 ^ 120 ∧
      scaledMag x * 2 ^ 120 < (sqrtRoot x + 1) * (sqrtRoot x + 1) := by
  refine sqrtBits_spec _ _ _ (Nat.zero_le _) ?_
  calc scaledMag x * 2 ^ 120 < 2 ^ 2098 * 2 ^ 120 := Nat.mul_lt_mul_of_pos_right (scaledMag_lt h) (pow_pos two_pos _)
    _ ≤ (0 + 2 ^ 1110) * (0 + 2 ^ 1110) := by decide +kernel

theorem sqrtRoot_lt {x : F64} (h : isFinite x = true) : sqrtRoot x < 2 ^ 1109 := by
  refine lt_of_mul_self_lt_mul_self₀ (Nat.zero_le _) ((sqrtRoot_spec h).1.trans_lt ?_)
  calc scaledMag x * 2 ^ 120 < 2 ^ 2098 * 2 ^ 120 := Nat.mul_lt_mul_of_pos_right (scaledMag_lt h) (pow_pos two_pos _)
    _ = 2 ^ 1109 * 2 ^ 1109 := by decide +kernel

theorem le_sqrtRoot {x : F64} (h : isFinite x = true) (h0 : isZero x = false) : 2 ^ 60 ≤ sqrtRoot x := by
  have hpos : 0 < scaledMag x := Nat.pos_of_ne_zero fun hx => by simp [(scaledMag_eq_zero_iff x).1 hx] at h0
  refine Nat.le_of_lt_succ (lt_of_mul_self_lt_mul_self₀ (Nat.zero_le _) (lt_of_le_of_lt ?_ (sqrtRoot_spec h).2))
  omega

/-- Twice the root, and one more where the root is inexact: what `sqrt` rounds, in units of 2^-598. -/
def sqrtNumerator (x : F64) : Nat :=
  if sqrtRoot x * sqrtRoot x = scaledMag x * 2 ^ 120 then 2 * sqrtRoot x else 2 * sqrtRoot x + 1

theorem le_mul_self_of_sqrtNumerator_le {x : F64} (h : isFinite x = true) {t : Nat} (ht : sqrtNumerator x ≤ 2 * t) :
    scaledMag x * 2 ^ 120 ≤ t * t := by
  unfold sqrtNumerator at ht
  by_cases hexact : sqrtRoot x * sqrtRoot x = scaledMag x * 2 ^ 120
  · rw [if_pos hexact] at ht
    rw [← hexact]
    exact Nat.mul_self_le_mul_self (by omega)
  · rw [if_neg hexact] at ht
    exact (sqrtRoot_spec h).2.le.trans (Nat.mul_self_le_mul_self (by omega))

theorem mul_self_le_of_le_sqrtNumerator {x : F64} (h : isFinite x = true) {t : Nat} (ht : 2 * t ≤ sqrtNumerator x) :
    t * t ≤ scaledMag x * 2 ^ 120 := by
  refine le_trans (Nat.mul_self_le_mul_self ?_) (sqrtRoot_spec h).1
  unfold sqrtNumerator at ht
  split at ht <;> omega

/-! ### What sqrt rounds -/

/-- 2^-597 in units of 2^-1074: the grid on which the root lies. -/
def sqrtGrid : Nat := 2 ^ 477

theorem sqrtGrid_pos : 0 < sqrtGrid := pow_pos two_pos 477

theorem ratioUnits_eq {num den k : Nat} (hd : 0 < den) (h : 2 * unitsPerOne = den * k) :
    ratioUnits num den = (num * k : Nat) / 2 := by
  have hd' : (den : ℚ) ≠ 0 := by exact_mod_cast hd.ne'
  have h' : (2 : ℚ) * unitsPerOne = den * k := by exact_mod_cast h
  rw [ratioUnits, div_eq_div_iff hd' two_ne_zero, mul_assoc, mul_comm _ (2 : ℚ), h']
  push_cast
  ring

/-- sqrt of a positive finite value is RNE64 of a value that lies on the same side of every point of the grid as the real root. -/
theorem exists_sqrt_eq_ofRatio {x : F64} (h : isFinite x = true) (h0 : isZero x = false) (hs : sign x = false) :
    ∃ num den, sqrt x = ofRatio false num den ∧ 0 < den ∧ num < den * overflowBound ∧
      ratioUnits num den = (sqrtNumerator x * sqrtGrid : Nat) / 2 := by
  have hbound := sqrtRoot_lt h
  by_cases hexact : sqrtRoot x * sqrtRoot x = scaledMag x * 2 ^ 120
  · have hsqrt : sqrt x = ofRatio false (sqrtRoot x) (2 ^ 597) := by
      unfold sqrtRoot at hexact ⊢
      simp only [sqrt, isNaN_of_isFinite h, h0, hs, isInf_of_isFinite h, hexact, Bool.false_eq_true, if_false, if_true]
    refine ⟨_, _, hsqrt, pow_pos two_pos _, hbound.trans_le (by decide +kernel), ?_⟩
    rw [sqrtNumerator, if_pos hexact, ratioUnits_eq (k := 2 * sqrtGrid) (pow_pos two_pos _) (by decide +kernel),
      mul_left_comm, mul_assoc]
  · have hsqrt : sqrt x = ofRatio false (2 * sqrtRoot x + 1) (2 ^ 598) := by
      unfold sqrtRoot at hexact ⊢
      simp only [sqrt, isNaN_of_isFinite h, h0, hs, isInf_of_isFinite h, hexact, Bool.false_eq_true, if_false]
    refine ⟨_, _, hsqrt, pow_pos two_pos _, lt_of_lt_of_le (b := 2 * 2 ^ 1109) (by omega) (by decide +kernel), ?_⟩
    rw [sqrtNumerator, if_neg hexact, ratioUnits_eq (k := sqrtGrid) (pow_pos two_pos _) (by decide +kernel)]

section
variable {x : F64}

/-- The square root of a positive finite value is finite, not negative, and the pattern nearest to what `sqrt` rounds. -/
theorem nearest_sqrt (h : isFinite x = true) (h0 : isZero x = false) (hs : sign x = false) :
    isFinite (sqrt x) = true ∧ sign (sqrt x) = false ∧
      Nearest 52 ((sqrtNumerator x * sqrtGrid : Nat) / 2) (magBits (sqrt x)) := by
  obtain ⟨num, den, heq, hd, hlt, hunits⟩ := exists_sqrt_eq_ofRatio h h0 hs
  rw [heq, ← hunits]
  exact ⟨isFinite_ofRatio _ hd hlt, sign_ofRatio _ _ _, nearest_ofRatio _ hd hlt⟩

/-- The root is at least 2^-537, so its neighbours and the middles between them lie on the grid. -/
theorem le_magBits_sqrt (h : isFinite x = true) (h0 : isZero x = false) (hs : sign x = false) :
    486 * 2 ^ 52 ≤ magBits (sqrt x) := by
  obtain ⟨-, -, hnear⟩ := nearest_sqrt h h0 hs
  refine hnear.le_of_units_le ((le_div_iff₀ two_pos).2 ?_)
  have hroot : 2 ^ 61 ≤ sqrtNumerator x := by
    have := le_sqrtRoot h h0
    unfold sqrtNumerator
    split <;> omega
  have hunits : units 52 (486 * 2 ^ 52) * 2 = 2 ^ 61 * sqrtGrid := by decide +kernel
  have hle := Nat.mul_le_mul_right sqrtGrid hroot
  rw [← hunits] at hle
  exact_mod_cast hle

/-- Where the sum of two pattern values is a multiple of 2^478, it is twice a point of the grid. -/
theorem exists_grid_point {b c : Nat} (hb : (478 + 1) * 2 ^ 52 ≤ b) (hc : (478 + 1) * 2 ^ 52 ≤ c) :
    ∃ t, units 52 b + units 52 c = 2 * t * sqrtGrid := by
  obtain ⟨t, ht⟩ := dvd_add (two_pow_dvd_units hb) (two_pow_dvd_units hc)
  exact ⟨t, by rw [ht, show 2 ^ 478 = 2 * sqrtGrid by decide +kernel]; ring⟩

/-- With a grid point t, (2t)² against 4x is t² against the root's square. -/
theorem four_mul_unitsPerOne (m : Nat) : 4 * m * unitsPerOne = 4 * (m * 2 ^ 120) * (sqrtGrid * sqrtGrid) := by
  rw [show unitsPerOne = 2 ^ 120 * (sqrtGrid * sqrtGrid) by decide +kernel]
  ring

theorem sqrt_le_middle_above (h : isFinite x = true) (h0 : isZero x = false) (hs : sign x = false) {c : Nat}
    (hc : magBits (sqrt x) < c) :
    4 * scaledMag x * unitsPerOne ≤ (scaledMag (sqrt x) + units 52 c) ^ 2 := by
  obtain ⟨-, -, hnear⟩ := nearest_sqrt h h0 hs
  have hgrid := le_magBits_sqrt h h0 hs
  rw [scaledMag64_eq_units (sqrt x)]
  generalize magBits (sqrt x) = b at *
  obtain ⟨t, ht⟩ := exists_grid_point (b := b) (c := b + 1) (by omega) (by omega)
  have hle : sqrtNumerator x * sqrtGrid ≤ 2 * t * sqrtGrid := by
    have := hnear.above
    rw [mul_div_cancel₀ _ two_ne_zero] at this
    rw [← ht]
    exact_mod_cast this
  have hsq := le_mul_self_of_sqrtNumerator_le h (Nat.le_of_mul_le_mul_right hle sqrtGrid_pos)
  calc 4 * scaledMag x * unitsPerOne = 4 * (scaledMag x * 2 ^ 120) * (sqrtGrid * sqrtGrid) := four_mul_unitsPerOne _
    _ ≤ 4 * (t * t) * (sqrtGrid * sqrtGrid) := by gcongr
    _ = (units 52 b + units 52 (b + 1)) ^ 2 := by rw [ht]; ring
    _ ≤ (units 52 b + units 52 c) ^ 2 := by gcongr; exact (units_strictMono 52).monotone hc

theorem middle_below_le_sqrt (h : isFinite x = true) (h0 : isZero x = false) (hs : sign x = false) {c : Nat}
    (hc : c < magBits (sqrt x)) :
    (scaledMag (sqrt x) + units 52 c) ^ 2 ≤ 4 * scaledMag x * unitsPerOne := by
  obtain ⟨-, -, hnear⟩ := nearest_sqrt h h0 hs
  have hgrid := le_magBits_sqrt h h0 hs
  rw [scaledMag64_eq_units (sqrt x)]
  generalize magBits (sqrt x) = b at *
  obtain ⟨d, rfl⟩ : ∃ d, b = d + 1 := ⟨b - 1, by omega⟩
  obtain ⟨t, ht⟩ := exists_grid_point (b := d) (c := d + 1) (by omega) (by omega)
  have hle : 2 * t * sqrtGrid ≤ sqrtNumerator x * sqrtGrid := by
    have := hnear.below d rfl
    rw [mul_div_cancel₀ _ two_ne_zero] at this
    rw [← ht]
    exact_mod_cast this
  have hsq := mul_self_le_of_le_sqrtNumerator h (Nat.le_of_mul_le_mul_right hle sqrtGrid_pos)
  calc (units 52 (d + 1) + units 52 c) ^ 2 ≤ (units 52 (d + 1) + units 52 d) ^ 2 := by
        gcongr
        exact (units_strictMono 52).monotone (by omega)
    _ = 4 * (t * t) * (sqrtGrid * sqrtGrid) := by rw [add_comm, ht]; ring
    _ ≤ 4 * (scaledMag x * 2 ^ 120) * (sqrtGrid * sqrtGrid) := by gcongr
    _ = 4 * scaledMag x * unitsPerOne := (four_mul_unitsPerOne _).symm

theorem scaled_of_sign_false (hs : sign x = false) : scaled x = scaledMag x := by
  rw [scaled_eq, hs]
  exact one_mul _

end

/-- Settles O25: the middles between the root and its neighbours lie on the grid of the whole root. -/
theorem squareRootIsCorrectlyRounded : Obligations.SquareRootIsCorrectlyRounded := by
  unfold Obligations.SquareRootIsCorrectlyRounded
  refine ⟨fun x h => ?_, fun x h => ?_, fun x hs h0 => ?_, by decide, fun x h hs h0 => ?_⟩
  · simp [sqrt, isNaN_of_isZero h, h]
  · rw [sqrt, if_pos h]
    exact isNaN_nan
  · rw [sqrt, h0, hs]
    cases isNaN x <;> exact isNaN_nan
  · obtain ⟨hfin, hsign, -⟩ := nearest_sqrt h h0 hs
    refine ⟨hfin, hsign, fun z hz hsz => ?_⟩
    rw [scaled_of_sign_false hsign, scaled_of_sign_false hs, scaled_of_sign_false hsz, ← unitsPerOne_cast, Int.ofNat_lt,
      Int.ofNat_lt, scaledMag64_eq_units z, scaledMag64_eq_units (sqrt x), (units_strictMono 52).lt_iff_lt,
      (units_strictMono 52).lt_iff_lt, ← scaledMag64_eq_units (sqrt x)]
    exact ⟨fun hlt => by exact_mod_cast sqrt_le_middle_above h h0 hs hlt,
      fun hlt => by exact_mod_cast middle_below_le_sqrt h h0 hs hlt⟩

end F64
end Sys2Proof
end

section
/-! PROOF. NUM and the default parameters (00_scope.md R5, R13; 42_rssi.md R186). -/

namespace Sys2Proof

namespace Numerics

/-! ### What the cuts of NUM give at the arguments of 00_scope.md R13 -/

theorem isNaN_asNaN (v : F64) : F64.isNaN (F64.asNaN v) = true := by
  unfold F64.asNaN
  split
  · assumption
  · exact F64.isNaN_nan

section
variable {x : F64} (raw : F64 → F64)

theorem boundedTrig_of_not_isFinite (h : F64.isFinite x = false) : F64.isNaN (boundedTrig raw x) = true := by
  rw [boundedTrig, h]
  exact isNaN_asNaN _

theorem boundedTrig_inUnitInterval (h : F64.isFinite x = true) : F64.inUnitInterval (boundedTrig raw x) = true := by
  rw [boundedTrig, if_pos h]
  split
  · assumption
  · decide

theorem boundedLog_of_isNaN (h : F64.isNaN x = true) : F64.isNaN (boundedLog raw x) = true := by
  rw [boundedLog, if_pos h]
  exact isNaN_asNaN _

theorem boundedLog_of_isZero (h : F64.isZero x = true) : boundedLog raw x = F64.negInf := by
  rw [boundedLog, F64.isNaN_of_isZero h, h]
  rfl

theorem boundedLog_of_sign (hs : F64.sign x = true) (h0 : F64.isZero x = false) : F64.isNaN (boundedLog raw x) = true := by
  rw [boundedLog, h0, hs]
  cases F64.isNaN x <;> exact isNaN_asNaN _

theorem boundedExp_of_isNaN (h : F64.isNaN x = true) : F64.isNaN (boundedExp raw x) = true := by
  rw [boundedExp, if_pos h]
  exact isNaN_asNaN _

theorem pinned_of_lookup {table : List (F64 × F64)} {y : F64} (h : table.lookup x = some y) : pinned table raw x = y := by
  rw [pinned, h]

end

/-! ### The exact values -/

section
variable {x y : F64} {table : List (F64 × F64)} (raw : F64 → F64)

theorem boundedTrig_pinned (h : table.lookup x = some y) (hx : F64.isFinite x = true) (hy : F64.inUnitInterval y = true) :
    boundedTrig (pinned table raw) x = y := by
  rw [boundedTrig, if_pos hx, pinned_of_lookup raw h, if_pos hy]

theorem boundedLog_pinned (h : table.lookup x = some y) (hf : F64.isFinite x = true) (h0 : F64.isZero x = false)
    (hs : F64.sign x = false) : boundedLog (pinned table raw) x = y := by
  rw [boundedLog, F64.isNaN_of_isFinite hf, h0, hs, F64.isInf_of_isFinite hf]
  exact pinned_of_lookup raw h

theorem boundedExp_pinned (h : table.lookup x = some y) (hf : F64.isFinite x = true) :
    boundedExp (pinned table raw) x = y := by
  rw [boundedExp, F64.isNaN_of_isFinite hf, F64.isInf_of_isFinite hf]
  exact pinned_of_lookup raw h

end

/-- A value below zero has its sign bit set and is no zero. -/
theorem sign_of_lt_zero {x : F64} (h : F64.lt x F64.posZero = true) : F64.sign x = true ∧ F64.isZero x = false := by
  have hn : F64.isNaN x = false := by
    by_contra hx
    rw [F64.lt_of_isNaN (.inl (by simpa using hx))] at h
    exact absurd h (by decide)
  cases hi : F64.isInf x with
  | true =>
    refine ⟨?_, F64.isZero_of_isInf hi⟩
    by_contra hs
    rw [F64.eq_inf_of_isInf hi, if_neg hs] at h
    exact absurd h (by decide)
  | false =>
    have hf := F64.isFinite_of_not_isNaN_not_isInf hn hi
    have hlt := (F64.lt_iff_value_lt hf (by decide)).1 h
    rw [(F64.value_eq_zero_iff F64.posZero).2 (by decide)] at hlt
    constructor
    · by_contra hs
      rw [F64.value_eq, Bool.eq_false_iff.2 hs] at hlt
      exact absurd hlt (not_lt.2 (div_nonneg (by simp [F64.signFactor]) (pow_nonneg zero_le_two _)))
    · by_contra hz
      rw [(F64.value_eq_zero_iff x).2 (by simpa using hz)] at hlt
      exact lt_irrefl _ hlt

/-- `powersOfTen` pairs k and 10^k, and no two of its rows share a k or a 10^k. -/
theorem powersOfTen_lookup {k : Nat} (hk : k ≤ 22) :
    powersOfTen.lookup (F64.ofNat k) = some (F64.ofNat (10 ^ k)) ∧
      (powersOfTen.map Prod.swap).lookup (F64.ofNat (10 ^ k)) = some (F64.ofNat k) := by
  revert k
  decide +kernel

theorem isFinite_ofNat {n : Nat} (h : n < F64.overflowBound) : F64.isFinite (F64.ofNat n) = true :=
  F64.isFinite_ofRatio false one_pos (by rwa [one_mul])

theorem isZero_ofNat {n : Nat} (h0 : 0 < n) (h : n < F64.overflowBound) : F64.isZero (F64.ofNat n) = false := by
  have hunits : (Rounding.units 52 1 : ℚ) ≤ F64.ratioUnits n 1 := by
    rw [F64.ratioUnits, Nat.cast_one, div_one, show Rounding.units 52 1 = 1 by decide]
    exact_mod_cast Nat.mul_pos h0 F64.unitsPerOne_pos
  have hmag := (F64.nearest_ofRatio false one_pos (by rwa [one_mul])).le_of_units_le hunits
  exact decide_eq_false (Nat.one_le_iff_ne_zero.1 hmag)

end Numerics

/-! ### NUM -/

theorem num_cos64 : Config.num.cos64 =
    Numerics.boundedTrig (Numerics.pinned [(F64.posZero, F64.one)] Config.rawCos64) := rfl

theorem num_sin64 : Config.num.sin64 =
    Numerics.boundedTrig (Numerics.pinned [(F64.posZero, F64.posZero)] Config.rawSin64) := rfl

theorem num_ln64 : Config.num.ln64 =
    Numerics.boundedLog (Numerics.pinned [(F64.one, F64.posZero)] Config.rawLn) := rfl

theorem num_admissible : Config.num.Admissible where
  cos_nan _ h := Numerics.boundedTrig_of_not_isFinite _ (F64.isFinite_of_isNaN h)
  sin_nan _ h := Numerics.boundedTrig_of_not_isFinite _ (F64.isFinite_of_isNaN h)
  log10_nan _ h := Numerics.boundedLog_of_isNaN _ h
  ln_nan _ h := Numerics.boundedLog_of_isNaN _ h
  exp10_nan _ h := Numerics.boundedExp_of_isNaN _ h
  cos_inf _ h := Numerics.boundedTrig_of_not_isFinite _ (F64.isFinite_of_isInf h)
  sin_inf _ h := Numerics.boundedTrig_of_not_isFinite _ (F64.isFinite_of_isInf h)
  cos_bound _ h := Numerics.boundedTrig_inUnitInterval _ h
  sin_bound _ h := Numerics.boundedTrig_inUnitInterval _ h
  log10_zero _ h := Numerics.boundedLog_of_isZero _ h
  ln_zero _ h := Numerics.boundedLog_of_isZero _ h
  log10_neg _ h := Numerics.boundedLog_of_sign _ (Numerics.sign_of_lt_zero h).1 (Numerics.sign_of_lt_zero h).2
  ln_neg _ h := Numerics.boundedLog_of_sign _ (Numerics.sign_of_lt_zero h).1 (Numerics.sign_of_lt_zero h).2
  log10_inf := rfl
  ln_inf := rfl
  exp10_posInf := rfl
  exp10_negInf := rfl

theorem num_exact : Config.num.Exact where
  exp10_pow k hk :=
    have hbound : k < F64.overflowBound := hk.trans_lt (by decide +kernel)
    Numerics.boundedExp_pinned _ (Numerics.powersOfTen_lookup hk).1 (Numerics.isFinite_ofNat hbound)
  log10_pow k hk :=
    have hbound : 10 ^ k < F64.overflowBound := (Nat.pow_le_pow_right (by decide) hk).trans_lt (by decide +kernel)
    Numerics.boundedLog_pinned _ (Numerics.powersOfTen_lookup hk).2 (Numerics.isFinite_ofNat hbound)
      (Numerics.isZero_ofNat (Nat.pow_pos (by decide)) hbound) (F64.sign_ofRatio _ _ _)
  cos_zero := by
    rw [num_cos64]
    refine Numerics.boundedTrig_pinned _ ?_ ?_ ?_ <;> decide
  sin_zero := by
    rw [num_sin64]
    refine Numerics.boundedTrig_pinned _ ?_ ?_ ?_ <;> decide
  ln_one := by
    rw [num_ln64]
    refine Numerics.boundedLog_pinned _ ?_ ?_ ?_ ?_ <;> decide

/-- Settles O26, whatever the open functions under NUM's cuts are. -/
theorem numMeetsItsStatedProperties : Obligations.NumMeetsItsStatedProperties := ⟨num_admissible, num_exact⟩

namespace Taps

/-! ### The shape of the default taps -/

theorem mirror_reverse (l : List F64) : (mirror l).reverse = mirror l := by
  cases l with
  | nil => rfl
  | cons h0 rest => simp [mirror]

theorem mirror_length {l : List F64} (h : l ≠ []) : (mirror l).length = 2 * l.length - 1 := by
  cases l with
  | nil => exact absurd rfl h
  | cons h0 rest =>
    simp only [mirror, List.length_append, List.length_reverse, List.length_cons]
    omega

/-- 42_rssi.md R186: the default table has 20M+1 taps. -/
theorem defaultCoef_length (m : Nat) : (defaultCoef m).length = 20 * m + 1 := by
  have hlen : ((halfShape m).map (tap (total (halfShape m)))).length = 10 * m + 1 := by simp [halfShape]
  rw [defaultCoef, mirror_length (List.ne_nil_of_length_pos (by rw [hlen]; omega)), hlen]
  omega

/-- 42_rssi.md R186: the default table is symmetric. -/
theorem defaultCoef_reverse (m : Nat) : (defaultCoef m).reverse = defaultCoef m := mirror_reverse _

end Taps

theorem params_coefLegal (m : Nat) : Config.params.coefLegal m = true := by
  rw [Params.coefLegal, Bool.and_eq_true, decide_eq_true_iff, decide_eq_true_iff]
  exact ⟨Taps.defaultCoef_length m, Taps.defaultCoef_reverse m⟩

theorem params_wellFormed : Config.params.wellFormed = true := by
  rw [Params.wellFormed, Bool.and_eq_true, Bool.and_eq_true, Bool.and_eq_true]
  exact ⟨⟨⟨by decide, by decide⟩, by decide⟩, List.all_eq_true.2 fun i _ => params_coefLegal (i + 2)⟩

/-- Settles O27: the tap table of every factor is mirrored from its middle, so it has the legal length and symmetry. -/
theorem defaultParametersAreLegal : Obligations.DefaultParametersAreLegal :=
  ⟨params_wellFormed, Machine.exec_eq_execOn, Machine.step_eq_stepOn⟩

end Sys2Proof
end

section
/-! PROOF. MOD2PI stays in [+0.0, TWO_PI) (10_state.md R44, 41_nco.md R164). -/

namespace Sys2Proof

open Rounding

namespace F64

theorem toNat_of_sign_false {x : F64} (h : sign x = false) : x.toNat = magBits x := by
  rw [sign, BitVec.msb_eq_decide, decide_eq_false_iff_not, not_le] at h
  exact (Nat.mod_eq_of_lt h).symm

/-- RNE64 is monotone at a finite pattern: it carries what lies in [0, value of the pattern c] to a pattern up to c. -/
theorem magBits_ofScaled_le {n : Int} {c : Nat} (h0 : 0 ≤ n) (hn : n ≤ units 52 c) : magBits (ofScaled n) ≤ c := by
  obtain ⟨b, hb, hmag⟩ := exists_nearest_ofRatio (decide (n < 0)) n.natAbs unitsPerOne_pos
  have hunits : ratioUnits n.natAbs unitsPerOne = n.natAbs :=
    mul_div_cancel_right₀ _ (by exact_mod_cast unitsPerOne_pos.ne')
  have hle : (n.natAbs : ℚ) ≤ units 52 c := by exact_mod_cast (by omega : n.natAbs ≤ units 52 c)
  exact hmag ▸ (min_le_left _ _).trans (hb.le_of_le_units (hunits ▸ hle))

theorem sign_ofScaled {n : Int} (h : 0 ≤ n) : sign (ofScaled n) = false := by
  rw [ofScaled, sign_ofRatio, decide_eq_false_iff_not, not_lt]
  exact h

/-- The exact remainder of 41_nco.md R164, in units of 2^-1074. -/
def remainder (u : F64) : Int := scaled u % (scaledMag twoPi : Int)

theorem mod2Pi_eq (u : F64) : mod2Pi u = if ofScaled (remainder u) = twoPi then posZero else ofScaled (remainder u) := rfl

theorem scaledMag_twoPi_pos : 0 < scaledMag twoPi := by decide +kernel

theorem remainder_nonneg (u : F64) : 0 ≤ remainder u :=
  Int.emod_nonneg _ (by exact_mod_cast scaledMag_twoPi_pos.ne')

theorem remainder_lt (u : F64) : remainder u < scaledMag twoPi :=
  Int.emod_lt_of_pos _ (by exact_mod_cast scaledMag_twoPi_pos)

theorem sign_mod2Pi (u : F64) : sign (mod2Pi u) = false := by
  rw [mod2Pi_eq]
  split
  · decide
  · exact sign_ofScaled (remainder_nonneg u)

/-- The rounded remainder can reach TWO_PI but not pass it, and MOD2PI replaces TWO_PI. -/
theorem magBits_mod2Pi_lt (u : F64) : magBits (mod2Pi u) < magBits twoPi := by
  rw [mod2Pi_eq]
  split
  · decide
  · rename_i hne
    have hle : magBits (ofScaled (remainder u)) ≤ magBits twoPi :=
      magBits_ofScaled_le (remainder_nonneg u) (scaledMag64_eq_units twoPi ▸ (remainder_lt u).le)
    exact lt_of_le_of_ne hle fun heq => hne (ext_sign_magBits (sign_ofScaled (remainder_nonneg u)) heq)

/-- Among patterns with sign bit 0 the order of the numbers is the order of the patterns. -/
theorem scaled_lt_scaled {x y : F64} (hx : sign x = false) (hy : sign y = false) (h : magBits x < magBits y) :
    scaled x < scaled y := by
  rw [scaled_of_sign_false hx, scaled_of_sign_false hy, scaledMag64_eq_units, scaledMag64_eq_units]
  exact_mod_cast units_strictMono 52 h

end F64

/-- Settles O17: the rounded remainder is never above TWO_PI, so all that has to be excluded is TWO_PI itself. -/
theorem mod2PiStaysBelowTwoPi : Obligations.Mod2PiStaysBelowTwoPi := by
  intro u _
  have hsign := F64.sign_mod2Pi u
  have hmag := F64.magBits_mod2Pi_lt u
  refine ⟨hsign, ?_, F64.scaled_lt_scaled hsign (by decide) hmag, ?_⟩
  · exact F64.isFinite_iff.2 (hmag.trans (by decide))
  · rw [F64.toNat_of_sign_false hsign]
    exact hmag

end Sys2Proof
end

section
/-! PROOF. Only commands and resets change the live oscillator and the PRNG state (10_state.md R60, R61; 41_nco.md R171). -/

namespace Sys2Proof.Machine

open Safety

/-! ### What a decoded word and a command's end can be -/

/-- A table answers a key with one of its rows. -/
theorem mem_of_lookup {α β : Type} [BEq α] [LawfulBEq α] {table : List (α × β)} {k : α} {b : β}
    (h : table.lookup k = some b) : (k, b) ∈ table := by
  obtain ⟨before, after, rfl, -⟩ := List.lookup_eq_some_iff.1 h
  simp

theorem eq_encode_of_decode {w : Word} {i : Instr} (h : decode w = .ok i) : w = encode i := by
  unfold decode at h
  split at h
  · rename_i hrow
    cases h
    have hmap : ∀ e ∈ opcodeMap, e.1 = encode e.2 := by decide
    exact hmap _ (mem_of_lookup hrow)
  · split at h <;> cases h

/-- What a command of `execOn p` stages, before `conclude` commits it or nothing (00_scope.md R9). -/
def attempt (p : Params) (i : Instr) (s : State) : Attempt :=
  match i with
  | .nop => .commit s
  | .ncoBuild => ncoBuild p s
  | .ncoProduce => ncoProduce p s
  | .ncoRelease => .commit { s with nco := Nco.none }
  | .rssiRun => rssiRun p s
  | .noiseSeed => .commit { s with prng := s.noiseSeed }
  | .noiseApply => noiseApply p s

theorem execOn_eq_conclude (p : Params) (i : Instr) (s : State) : execOn p i s = conclude s (attempt p i s) := by
  cases i <;> rfl

/-- The commands that stage a change of the live oscillator (41_nco.md R171). -/
def changesOscillator (i : Instr) : Prop := i = .ncoBuild ∨ i = .ncoProduce ∨ i = .ncoRelease

/-- The commands that stage a change of the PRNG state (10_state.md R61). -/
def changesGenerator (i : Instr) : Prop := i = .noiseSeed ∨ i = .noiseApply

theorem attempt_commit_nco {p : Params} {i : Instr} {s u : State} (h : attempt p i s = .commit u) :
    changesOscillator i ∨ u.nco = s.nco := by
  cases i with
  | nop => cases h; exact .inr rfl
  | ncoBuild => exact .inl (.inl rfl)
  | ncoProduce => exact .inl (.inr (.inl rfl))
  | ncoRelease => exact .inl (.inr (.inr rfl))
  | rssiRun =>
    obtain ⟨-, rfl⟩ := rssiRun_commit h
    exact .inr rfl
  | noiseSeed => cases h; exact .inr rfl
  | noiseApply =>
    obtain ⟨-, -, rfl⟩ := noiseApply_commit h
    exact .inr rfl

theorem attempt_commit_prng {p : Params} {i : Instr} {s u : State} (h : attempt p i s = .commit u) :
    changesGenerator i ∨ u.prng = s.prng := by
  cases i with
  | nop => cases h; exact .inr rfl
  | ncoBuild =>
    obtain ⟨-, rfl⟩ := ncoBuild_commit h
    exact .inr rfl
  | ncoProduce =>
    obtain ⟨-, -, -, rfl⟩ := ncoProduce_commit h
    exact .inr rfl
  | ncoRelease => cases h; exact .inr rfl
  | rssiRun =>
    obtain ⟨-, rfl⟩ := rssiRun_commit h
    exact .inr rfl
  | noiseSeed => exact .inl (.inl rfl)
  | noiseApply => exact .inl (.inr rfl)

/-! ### What the engine can do to them -/

/-- The oscillator and the PRNG state of t are those of s. -/
structure SameLive (s t : State) : Prop where
  nco : t.nco = s.nco
  prng : t.prng = s.prng

theorem SameLive.trans {s t u : State} (h : SameLive s t) (h' : SameLive t u) : SameLive s u :=
  ⟨h'.nco.trans h.nco, h'.prng.trans h.prng⟩

/-- What executing a command word can do: end it with the staged effects of its command, or leave both as they are. -/
theorem execWord_cases {w : Word} {s t : State} (h : execWord w s = .next t) :
    (∃ i u, w = encode i ∧ attempt Config.params i s = .commit u ∧ t = complete u .ok) ∨ SameLive s t := by
  unfold execWord execWordWith at h
  split at h
  · rename_i i hi
    rw [exec_eq_execOn, execOn_eq_conclude] at h
    rcases conclude_next h with ⟨u, hu, rfl⟩ | ⟨c, d, -, rfl⟩
    · exact .inl ⟨i, u, eq_encode_of_decode hi, hu, rfl⟩
    · exact .inr ⟨rfl, rfl⟩
  · cases h
    exact .inr ⟨rfl, rfl⟩

/-- What the engine's turn can do: end the pending command with its effects, or leave both as they are. -/
theorem engineStep_cases {s t : State} (h : engineStep s = .next t) :
    (∃ i u, s.pending = some (encode i) ∧ attempt Config.params i s = .commit u ∧ t = complete u .ok) ∨
      SameLive s t := by
  unfold engineStep engineStepWith fetch at h
  split at h
  · rename_i w hw
    rcases execWord_cases h with ⟨i, u, rfl, hu, ht⟩ | hsame
    · exact .inl ⟨i, u, hw, hu, ht⟩
    · exact .inr hsame
  · cases h
    exact .inr ⟨rfl, rfl⟩

/-! ### What a host and a reset can do to them -/

theorem registersAtReset_softReset (p : Params) (s : State) : registersAtReset (softReset p s) := rfl

theorem registersAtReset_answer {s : State} (h : registersAtReset s) (i : Issued) (a : Answer) :
    registersAtReset (answer s i a) := congrArg (answer · i a) h

/-- A register write changes neither, unless it is the soft reset. -/
theorem writeReg_sameLive_or_reset (p : Params) (s : State) (r : Reg) (v : Word) :
    SameLive s (writeReg p s r v) ∨ registersAtReset (writeReg p s r v) := by
  cases r with
  | ctrl =>
    show SameLive s (writeCtrl p s v) ∨ registersAtReset (writeCtrl p s v)
    unfold writeCtrl
    split
    · exact .inr (registersAtReset_softReset p s)
    · exact .inl ⟨rfl, rfl⟩
  | _ => exact .inl ⟨rfl, rfl⟩

theorem writeWindow_sameLive_or_reset (p : Params) (s : State) (off : Nat) (v : Word) :
    SameLive s (writeWindow p s off v) ∨ registersAtReset (writeWindow p s off v) := by
  unfold writeWindow
  split
  · split
    · exact .inl ⟨rfl, rfl⟩
    · exact writeReg_sameLive_or_reset p s _ v
  · split <;> exact .inl ⟨rfl, rfl⟩

/-- A transaction changes neither, unless it is the soft reset. -/
theorem perform_sameLive_or_reset (p : Params) (s : State) (i : Issued) :
    SameLive s (perform p s i) ∨ registersAtReset (perform p s i) := by
  obtain ⟨host, txn⟩ := i
  cases txn with
  | read width off =>
    obtain ⟨d, h⟩ := performRead_state p s width off
    rw [perform_read, h]
    exact .inl ⟨rfl, rfl⟩
  | write width off v =>
    rw [perform_write]
    rcases performWrite_state p s width off v with ⟨o, -, h⟩ | ⟨a, -, h⟩ | ⟨-, h⟩ <;> rw [h]
    · rcases writeWindow_sameLive_or_reset p s o v with ⟨hnco, hprng⟩ | hreset
      · exact .inl ⟨hnco, hprng⟩
      · exact .inr (registersAtReset_answer hreset _ _)
    · exact .inl ⟨rfl, rfl⟩
    · exact .inl ⟨rfl, rfl⟩

theorem receive_sameLive_or_reset (p : Params) (s : State) (i : Issued) :
    SameLive s (receive p s i) ∨ registersAtReset (receive p s i) := by
  rcases receive_cases p s i with ⟨-, -, h⟩ | ⟨-, h⟩ <;> rw [h]
  · exact .inl ⟨rfl, rfl⟩
  · exact perform_sameLive_or_reset p s i

theorem issue_sameLive_or_reset (p : Params) (s : State) (i : Issued) :
    SameLive s (issue p s i) ∨ registersAtReset (issue p s i) := by
  rcases issue_cases p s i with ⟨-, h⟩ | ⟨-, h⟩ <;> rw [h]
  · exact .inl ⟨rfl, rfl⟩
  · exact receive_sameLive_or_reset p s i

theorem released_sameLive {s u : State} {i : Issued} (h : released s = some (i, u)) : SameLive s u := by
  obtain ⟨-, ⟨-, rest, -, rfl⟩ | ⟨-, before, after, -, -, -, rfl⟩⟩ := released_some h <;> exact ⟨rfl, rfl⟩

/-! ### What a step can do to them -/

/-- 10_state.md R60, R61: a step ends the pending command with its effects, leaves the oscillator and the PRNG state as they are, or
resets every register. The engine's turn is on v, which is s with its schedule moved on. -/
theorem step_live_cases {s t : State} (h : step s = .next t) :
    (∃ i v u, s.pending = some (encode i) ∧ SameLive s v ∧ attempt Config.params i v = .commit u ∧
        t = complete u .ok) ∨
      SameLive s t ∨ registersAtReset t := by
  rcases step_cases s with ⟨i, u, hrel, hstep⟩ | ⟨-, -, hstep⟩ | ⟨e, es, -, -, hstep⟩ <;> rw [hstep] at h
  · cases h
    exact .inr ((receive_sameLive_or_reset _ u i).imp_left (released_sameLive hrel).trans)
  · rcases engineStep_cases h with ⟨i, u, hp, hu, ht⟩ | hsame
    · exact .inl ⟨i, s, u, hp, ⟨rfl, rfl⟩, hu, ht⟩
    · exact .inr (.inl hsame)
  · have hmoved : SameLive s { s with schedule := es } := ⟨rfl, rfl⟩
    cases e with
    | engine =>
      rcases engineStep_cases h with ⟨i, u, hp, hu, ht⟩ | hsame
      · exact .inl ⟨i, _, u, hp, hmoved, hu, ht⟩
      · exact .inr (.inl (hmoved.trans hsame))
    | bus i =>
      dsimp only [runEventWith] at h
      split at h
      · cases h
        exact .inr ((issue_sameLive_or_reset _ _ i).imp_left hmoved.trans)
      · cases h
    | resetLow => cases h; exact .inr (.inr rfl)
    | resetHigh => cases h; exact .inr (.inl ⟨rfl, rfl⟩)
    | powerCycle => cases h; exact .inr (.inr rfl)

end Sys2Proof.Machine

namespace Sys2Proof

open Machine Safety

/-- Settles O20: of the three things a step can do, only an NCO command that commits and a reset touch the oscillator. -/
theorem onlyNcoCommandsAndResetChangeOscillator : Obligations.OnlyNcoCommandsAndResetChangeOscillator := by
  intro s t h hne
  rcases step_live_cases h with ⟨i, v, u, hp, hv, hu, rfl⟩ | hsame | hreset
  · rcases attempt_commit_nco hu with hi | hkept
    · exact .inl ⟨by rcases hi with rfl | rfl | rfl <;> simp [hp], rfl, rfl⟩
    · exact absurd (hkept.trans hv.nco) hne
  · exact absurd hsame.nco hne
  · exact .inr hreset

/-- Settles O42: of the three things a step can do, only a noise command that commits and a reset touch the generator. -/
theorem onlyNoiseCommandsAndResetChangeGenerator : Obligations.OnlyNoiseCommandsAndResetChangeGenerator := by
  intro s t h hne
  rcases step_live_cases h with ⟨i, v, u, hp, hv, hu, rfl⟩ | hsame | hreset
  · rcases attempt_commit_prng hu with hi | hkept
    · exact .inl ⟨by rcases hi with rfl | rfl <;> simp [hp], rfl, rfl⟩
    · exact absurd (hkept.trans hv.prng) hne
  · exact absurd hsame.prng hne
  · exact .inr hreset

end Sys2Proof
end

section
/-! PROOF. What the register window reads (10_state.md R31 to R62): STATUS and CTRL bit by bit, and the halves of a 64-bit register. -/

namespace Sys2Proof.Machine

/-! ### STATUS and CTRL bit by bit -/

/-- 10_state.md R35: BUSY, DONE, BUSY_VIOL and NCO_VALID. -/
theorem statusWord_flags (s : State) :
    (statusWord s).getLsbD 0 = s.pending.isSome ∧ (statusWord s).getLsbD 1 = s.done ∧
      (statusWord s).getLsbD 2 = s.busyViol ∧ (statusWord s).getLsbD 3 = s.nco.valid := by
  simp only [statusWord, BitVec.getLsbD_append]
  simp [busy]

/-- 10_state.md R35: above the flags stand four reserved bits, then ERR, then reserved bits. -/
theorem statusWord_getLsbD_add_four (s : State) (i : Nat) :
    (statusWord s).getLsbD (i + 4) = if i < 4 then false else s.err.number.getLsbD (i - 4) := by
  simp only [statusWord, BitVec.getLsbD_append]
  rcases lt_or_ge i 4 with h | h
  · simp [h]
  · rcases lt_or_ge (i - 4) 4 with h' | h'
    · simp [h.not_gt, h']
    · simp [h.not_gt, h'.not_gt, BitVec.getLsbD_of_ge _ _ h']

theorem statusWord_err (s : State) : (statusWord s).extractLsb' 8 4 = s.err.number := by
  refine BitVec.eq_of_getLsbD_eq fun i hi => ?_
  rw [BitVec.getLsbD_extractLsb', show 8 + i = i + 4 + 4 by omega, statusWord_getLsbD_add_four]
  simp [hi]

theorem statusWord_reserved (s : State) {start len : Nat} (h : start + len ≤ 4 ∨ 8 ≤ start) :
    (statusWord s).extractLsb' (start + 4) len = 0#len := by
  refine BitVec.eq_of_getLsbD_eq fun i hi => ?_
  rw [BitVec.getLsbD_extractLsb', Nat.add_right_comm, statusWord_getLsbD_add_four]
  rcases h with h | h
  · simp [show start + i < 4 by omega]
  · simp [BitVec.getLsbD_of_ge s.err.number (start + i - 4) (by omega)]

/-- 10_state.md R34: IRQ_EN, and every other bit 0. -/
theorem ctrlWord_getLsbD (s : State) (i : Nat) : (ctrlWord s).getLsbD i = (decide (i = 0) && s.irqEn) := by
  simp only [ctrlWord, BitVec.getLsbD_append]
  cases i <;> simp

theorem ctrlWord_reserved (s : State) : (ctrlWord s).extractLsb' 1 31 = 0#31 := by
  refine BitVec.eq_of_getLsbD_eq fun i _ => ?_
  rw [BitVec.getLsbD_extractLsb', ctrlWord_getLsbD]
  simp

/-! ### The halves of a 64-bit register -/

theorem loHalf_setLo (x : BitVec 64) (w : Word) : loHalf (setLo x w) = w := BitVec.extractLsb'_append_eq_right

theorem hiHalf_setLo (x : BitVec 64) (w : Word) : hiHalf (setLo x w) = hiHalf x := BitVec.extractLsb'_append_eq_left

theorem hiHalf_setHi (x : BitVec 64) (w : Word) : hiHalf (setHi x w) = w := BitVec.extractLsb'_append_eq_left

theorem loHalf_setHi (x : BitVec 64) (w : Word) : loHalf (setHi x w) = loHalf x := BitVec.extractLsb'_append_eq_right

end Sys2Proof.Machine

namespace Sys2Proof
open Machine
/-- Settles O43: STATUS and CTRL bit by bit, the window offset by offset along the register map. -/
theorem statusAndControlReadTheirFields : Obligations.StatusAndControlReadTheirFields := by
  refine ⟨fun s => ?_, by decide, fun s => ?_⟩
  · obtain ⟨hbusy, hdone, hviol, hvalid⟩ := statusWord_flags s
    exact ⟨hbusy, hdone, hviol, hvalid, statusWord_reserved s (start := 0) (by decide), statusWord_err s,
      statusWord_reserved s (start := 8) (by decide), ctrlWord_getLsbD s 0, ctrlWord_reserved s⟩
  · exact ⟨⟨rfl, rfl, rfl, rfl, rfl⟩,
      ⟨rfl, rfl, rfl, rfl, rfl, rfl, rfl, rfl, rfl, rfl, rfl, rfl, rfl, rfl, rfl, rfl⟩,
      ⟨rfl, rfl, rfl, rfl, rfl, rfl, rfl, rfl, rfl⟩,
      ⟨rfl, rfl, rfl, rfl, rfl, rfl, rfl, rfl, rfl, rfl, rfl, rfl, rfl⟩⟩

end Sys2Proof
end

section
/-! PROOF. What an idle write to the register window keeps (10_state.md R31, 40_control.md R132). -/

namespace Sys2Proof.Machine

/-! ### The register map -/

theorem regOffset_of_regAt {off : Nat} {r : Reg} (h : regAt off = some r) : regOffset r = off := by
  have hmap : ∀ e ∈ regMap, regOffset e.2 = e.1 := by decide
  exact hmap _ (mem_of_lookup h)

theorem readWindow_of_regAt {off : Nat} {r : Reg} (s : State) (h : regAt off = some r) :
    readWindow s off = readReg s r := by
  simp [readWindow, h]

theorem readWindow_reserved {off : Nat} (s : State) (h : regAt off = none) : readWindow s off = 0#32 := by
  simp [readWindow, h]

section
variable {s : State} {off : Nat}

theorem performWrite_idle_of_regAt (p : Params) {r : Reg} (v : Word) (hidle : s.pending = none) (ha : off % 4 = 0)
    (hlt : off < 0x1000) (hr : regAt off = some r) : performWrite p s 32 off v = (writeReg p s r v, .ok) := by
  simp [performWrite, locate, ha, hlt, writeWindow, hr, busy, hidle]

theorem performWrite_idle_reserved (p : Params) (v : Word) (hidle : s.pending = none) (ha : off % 4 = 0)
    (hlt : off < 0x1000) (hr : regAt off = none) : performWrite p s 32 off v = (s, .ok) := by
  simp [performWrite, locate, ha, hlt, writeWindow, hr, busy, hidle]

end

/-! ### The operand registers: words, and halves of 64-bit registers -/

/-- The operand registers that are one word. -/
def wordRegs : List Reg :=
  [.ncoChunk, .ncoDst, .rssiSrc, .rssiLen, .rssiDst, .rssiDecim, .noiseSrc, .noiseLen, .noiseDst]

/-- The 64-bit operand registers. -/
def regPairs : List RegPair := [.ncoAmp, .ncoFreq, .ncoRate, .rssiGain, .rssiMerr, .noiseSnr, .noiseRate, .noiseSeed]

/-- Every operand register (30_encoding.md R112). -/
def operandRegs : List Reg := wordRegs ++ regPairs.flatMap fun x => [x.halves.1, x.halves.2]

/-- What a 64-bit operand register holds; `readReg_halves` and `writeReg_halves` tie it to the window. -/
def RegPair.get (s : State) : RegPair → BitVec 64
  | .ncoAmp => s.ncoAmp
  | .ncoFreq => s.ncoFreq
  | .ncoRate => s.ncoRate
  | .rssiGain => s.rssiGain
  | .rssiMerr => s.rssiMerr
  | .noiseSnr => s.noiseSnr
  | .noiseRate => s.noiseRate
  | .noiseSeed => s.noiseSeed

/-- The state in which a 64-bit operand register holds v. -/
def RegPair.set (s : State) (v : BitVec 64) : RegPair → State
  | .ncoAmp => { s with ncoAmp := v }
  | .ncoFreq => { s with ncoFreq := v }
  | .ncoRate => { s with ncoRate := v }
  | .rssiGain => { s with rssiGain := v }
  | .rssiMerr => { s with rssiMerr := v }
  | .noiseSnr => { s with noiseSnr := v }
  | .noiseRate => { s with noiseRate := v }
  | .noiseSeed => { s with noiseSeed := v }

namespace RegPair

theorem readReg_halves (s : State) (x : RegPair) :
    readReg s x.halves.1 = loHalf (x.get s) ∧ readReg s x.halves.2 = hiHalf (x.get s) := by
  cases x <;> exact ⟨rfl, rfl⟩

theorem writeReg_halves (p : Params) (s : State) (x : RegPair) (v : Word) :
    writeReg p s x.halves.1 v = x.set s (setLo (x.get s) v) ∧ writeReg p s x.halves.2 v = x.set s (setHi (x.get s) v) := by
  cases x <;> exact ⟨rfl, rfl⟩

theorem halves_ne (x : RegPair) : x.halves.1 ≠ x.halves.2 := by cases x <;> decide

/-- A 64-bit register is seen in its two halves only. -/
theorem readReg_set (s : State) (x : RegPair) (v : BitVec 64) (r : Reg) :
    readReg (x.set s v) r = if r = x.halves.1 then loHalf v else if r = x.halves.2 then hiHalf v else readReg s r := by
  cases x <;> cases r <;> rfl

theorem readReg_writeReg_lo (p : Params) (s : State) (x : RegPair) (v : Word) (r : Reg) :
    readReg (writeReg p s x.halves.1 v) r = if r = x.halves.1 then v else readReg s r := by
  rw [(writeReg_halves p s x v).1, readReg_set, loHalf_setLo, hiHalf_setLo, ← (readReg_halves s x).2]
  split
  · rfl
  · split
    · subst r
      rfl
    · rfl

theorem readReg_writeReg_hi (p : Params) (s : State) (x : RegPair) (v : Word) (r : Reg) :
    readReg (writeReg p s x.halves.2 v) r = if r = x.halves.2 then v else readReg s r := by
  rw [(writeReg_halves p s x v).2, readReg_set, loHalf_setHi, hiHalf_setHi, ← (readReg_halves s x).1]
  split
  · subst r
    rw [if_neg x.halves_ne]
  · rfl

end RegPair

theorem readReg_writeReg_word (p : Params) (s : State) {r : Reg} (v : Word) (h : r ∈ wordRegs) (r' : Reg) :
    readReg (writeReg p s r v) r' = if r' = r then v else readReg s r' := by
  fin_cases h <;> cases r' <;> rfl

theorem mem_operandRegs_cases {r : Reg} (h : r ∈ operandRegs) :
    r ∈ wordRegs ∨ ∃ x : RegPair, r = x.halves.1 ∨ r = x.halves.2 := by
  obtain hword | hhalf := List.mem_append.1 h
  · exact .inl hword
  · obtain ⟨x, -, hx⟩ := List.mem_flatMap.1 hhalf
    exact .inr ⟨x, by simpa using hx⟩

/-- 40_control.md R132: all 32 bits of an operand write are kept, and every other register reads as before. -/
theorem readReg_writeReg_operand (p : Params) (s : State) {r : Reg} (v : Word) (h : r ∈ operandRegs) (r' : Reg) :
    readReg (writeReg p s r v) r' = if r' = r then v else readReg s r' := by
  rcases mem_operandRegs_cases h with hword | ⟨x, rfl | rfl⟩
  · exact readReg_writeReg_word p s v hword r'
  · exact x.readReg_writeReg_lo p s v r'
  · exact x.readReg_writeReg_hi p s v r'

/-- An operand write leaves the RAM, the pending command and the free draws. -/
theorem writeReg_operand_frame (p : Params) (s : State) {r : Reg} (v : Word) (h : r ∈ operandRegs) :
    (writeReg p s r v).ram = s.ram ∧ (writeReg p s r v).pending = s.pending ∧ (writeReg p s r v).draws = s.draws := by
  rcases mem_operandRegs_cases h with hword | ⟨x, rfl | rfl⟩
  · fin_cases hword <;> exact ⟨rfl, rfl, rfl⟩
  · cases x <;> exact ⟨rfl, rfl, rfl⟩
  · cases x <;> exact ⟨rfl, rfl, rfl⟩

/-- The same, offset by offset: no two offsets name one register. -/
theorem readWindow_writeReg_operand (p : Params) (s : State) {off : Nat} {r : Reg} (v : Word) (h : r ∈ operandRegs)
    (hr : regAt off = some r) (other : Nat) :
    readWindow (writeReg p s r v) other = if other = off then v else readWindow s other := by
  cases hother : regAt other with
  | none =>
    have hne : other ≠ off := fun heq => by simp [heq, hr] at hother
    rw [if_neg hne, readWindow_reserved _ hother, readWindow_reserved _ hother]
  | some r' =>
    have hiff : r' = r ↔ other = off := by
      refine ⟨fun heq => ?_, fun heq => ?_⟩
      · rw [← regOffset_of_regAt hother, ← regOffset_of_regAt hr, heq]
      · rw [heq, hr] at hother
        exact (Option.some.inj hother).symm
    rw [readWindow_of_regAt _ hother, readWindow_of_regAt _ hother, readReg_writeReg_operand p s v h]
    simp only [hiff]

/-! ### The read-only registers -/

/-- The registers that a write does not change (10_state.md R31). -/
def readOnlyRegs : List Reg :=
  [.id, .version, .ncoLampLo, .ncoLampHi, .ncoIncLo, .ncoIncHi, .ncoPhaseLo, .ncoPhaseHi, .ncoLchunk, .ncoCount, .rssiOutlen,
    .noiseStateLo, .noiseStateHi, .noiseVarLo, .noiseVarHi]

theorem writeReg_readOnly (p : Params) (s : State) {r : Reg} (v : Word) (h : r ∈ readOnlyRegs) : writeReg p s r v = s := by
  fin_cases h <;> rfl

/-! ### The offsets of both kinds -/

/-- The offsets of the operand registers (10_state.md R31). -/
def operandOffsets : List Nat :=
  [0x020, 0x024, 0x028, 0x02C, 0x030, 0x034, 0x038, 0x03C, 0x080, 0x084, 0x088, 0x08C, 0x090, 0x094, 0x098, 0x09C, 0x0C0,
    0x0C4, 0x0C8, 0x0D0, 0x0D4, 0x0D8, 0x0DC, 0x0E0, 0x0E4]

/-- The offsets of the read-only registers (10_state.md R31). -/
def readOnlyOffsets : List Nat :=
  [0x000, 0x004, 0x040, 0x044, 0x048, 0x04C, 0x050, 0x054, 0x058, 0x05C, 0x0A0, 0x0E8, 0x0EC, 0x0F0, 0x0F4]

theorem exists_operand_regAt {off : Nat} (h : off ∈ operandOffsets) : ∃ r ∈ operandRegs, regAt off = some r := by
  have hall : ∀ o ∈ operandOffsets, ∃ r ∈ operandRegs, regAt o = some r := by decide
  exact hall off h

theorem exists_readOnly_regAt {off : Nat} (h : off ∈ readOnlyOffsets) : ∃ r ∈ readOnlyRegs, regAt off = some r := by
  have hall : ∀ o ∈ readOnlyOffsets, ∃ r ∈ readOnlyRegs, regAt o = some r := by decide
  exact hall off h

end Sys2Proof.Machine

namespace Sys2Proof

open Machine

/-- Settles O46: an operand register is a word of its own or half of a 64-bit register whose other half a write keeps, and no two
offsets name one register. -/
theorem operandRegistersKeepWhatIsWritten : Obligations.OperandRegistersKeepWhatIsWritten := by
  intro s off v hidle ha hlt
  refine ⟨fun hoff t a hwrite => ?_, fun hoff => ?_, readWindow_reserved s⟩
  · obtain ⟨r, hr, hreg⟩ := exists_operand_regAt hoff
    rw [performWrite_idle_of_regAt _ v hidle ha hlt hreg] at hwrite
    cases hwrite
    have hread := readWindow_writeReg_operand Config.params s v hr hreg
    obtain ⟨hram, hpending, hdraws⟩ := writeReg_operand_frame Config.params s v hr
    obtain ⟨⟨hrst, hheld, hqueued, hschedule⟩, hreplies⟩ := writeReg_bus Config.params s r v
    exact ⟨by rw [hread, if_pos rfl], fun other hne => by rw [hread, if_neg hne], rfl, hram, hpending.trans hidle, hrst,
      hheld, hqueued, hschedule, hreplies, hdraws⟩
  · rcases hoff with hoff | hreserved
    · obtain ⟨r, hr, hreg⟩ := exists_readOnly_regAt hoff
      rw [performWrite_idle_of_regAt _ v hidle ha hlt hreg, writeReg_readOnly _ s v hr]
    · exact performWrite_idle_reserved _ v hidle ha hlt hreserved

end Sys2Proof
end

section
/-! PROOF. What one step can do on any parameters (40_control.md R130, R138), and why none leaves the sample RAM (20_memory.md R81). -/

namespace Sys2Proof.Machine

/-! ### The engine's turn -/

/-- What a command can stage: the RAM, the oscillator, the result registers, the generator and the free draws; nothing else. -/
theorem attempt_commit_frame {p : Params} {i : Instr} {s u : State} (h : attempt p i s = .commit u) :
    ∃ m o n z v d,
      u = { s with ram := m, nco := o, rssiOutlen := n, prng := z, noiseVar := v, draws := d } := by
  cases i with
  | nop => cases h; exact ⟨_, _, _, _, _, _, rfl⟩
  | ncoBuild =>
    obtain ⟨-, rfl⟩ := ncoBuild_commit h
    exact ⟨_, _, _, _, _, _, rfl⟩
  | ncoProduce =>
    obtain ⟨-, -, -, rfl⟩ := ncoProduce_commit h
    exact ⟨_, _, _, _, _, _, rfl⟩
  | ncoRelease => cases h; exact ⟨_, _, _, _, _, _, rfl⟩
  | rssiRun =>
    obtain ⟨-, rfl⟩ := rssiRun_commit h
    exact ⟨_, _, _, _, _, _, rfl⟩
  | noiseSeed => cases h; exact ⟨_, _, _, _, _, _, rfl⟩
  | noiseApply =>
    obtain ⟨-, -, rfl⟩ := noiseApply_commit h
    exact ⟨_, _, _, _, _, _, rfl⟩

/-- What the execution of a command word can do: end it with the staged effects of its command, or with an error. -/
theorem execWordWith_next {p : Params} {w : Word} {s t : State} (h : execWordWith (execOn p) w s = .next t) :
    (∃ i u, attempt p i s = .commit u ∧ t = complete u .ok) ∨ ∃ c d, t = complete { s with draws := d } c := by
  unfold execWordWith at h
  split at h
  · rename_i i _
    rw [execOn_eq_conclude] at h
    rcases conclude_next h with ⟨u, hu, rfl⟩ | ⟨c, d, -, rfl⟩
    · exact .inl ⟨i, u, hu, rfl⟩
    · exact .inr ⟨c, d, rfl⟩
  · cases h
    exact .inr ⟨.illegalCmd, s.draws, rfl⟩

/-- What the execution of a command word leaves as it is: all but its staged results and STATUS. -/
theorem execWordWith_frame {p : Params} {w : Word} {s t : State} (h : execWordWith (execOn p) w s = .next t) :
    ∃ m o n z v d c,
      t = { s with ram := m, nco := o, rssiOutlen := n, prng := z, noiseVar := v, draws := d
                   err := c, done := true, pending := none } := by
  rcases execWordWith_next h with ⟨i, u, hu, rfl⟩ | ⟨c, d, rfl⟩
  · obtain ⟨m, o, n, z, v, d, rfl⟩ := attempt_commit_frame hu
    exact ⟨_, _, _, _, _, _, _, rfl⟩
  · exact ⟨_, _, _, _, _, _, _, rfl⟩

/-- The engine's turn executes the pending word, and does nothing where there is none. -/
theorem engineStepWith_next {run : Executor} {s t : State} (h : engineStepWith run s = .next t) :
    (s.pending = none ∧ t = s) ∨ ∃ w, s.pending = some w ∧ execWordWith run w s = .next t := by
  unfold engineStepWith fetch at h
  split at h
  · rename_i w hw
    exact .inr ⟨w, hw, h⟩
  · rename_i hw
    cases h
    exact .inl ⟨hw, rfl⟩

/-! ### The engine never leaves the RAM -/

theorem loadSamples_of_le {p : Params} (s : State) {a n : Nat} (h : a + 8 * n ≤ p.sramBytes) :
    loadSamples p s a n = .ok (drawSamples s.ram s.draws a n) := if_pos h

theorem storeWords_of_le {p : Params} (m : Ram) {a : Nat} {ws : List Word} (h : a + 4 * ws.length ≤ p.sramBytes) :
    storeWords p m a ws = .ok (Ram.writeWords m a ws) := if_pos h

theorem sampleWords_fit {p : Params} {a n : Nat} {xs : List (F32 × F32)} (hlen : xs.length = n)
    (h : bufferOk p 8 a (8 * n) = true) : a + 4 * (sampleWords xs).length ≤ p.sramBytes := by
  have hle := ((bufferOk_iff ..).1 h).2
  simp only [sampleWords_length]
  omega

theorem ncoProduce_ne_broken (p : Params) (s : State) (f : Fault) : ncoProduce p s ≠ .broken f := by
  unfold ncoProduce
  split
  · simp
  split
  · simp
  · rename_i hb
    rw [storeWords_of_le _ (sampleWords_fit (chunkSamples_length p.num s.nco) (by simpa using hb))]
    split <;> simp

theorem rssiRun_ne_broken (p : Params) (s : State) (f : Fault) : rssiRun p s ≠ .broken f := by
  unfold rssiRun
  split
  · simp
  · rename_i hc
    obtain ⟨-, -, -, -, -, hsrc, hdst, -⟩ := rssiChecks_none hc
    rw [loadSamples_of_le s ((bufferOk_iff ..).1 hsrc).2]
    dsimp only
    rw [storeWords_of_le _ (by simpa using ((bufferOk_iff ..).1 hdst).2)]
    simp

theorem noiseApply_ne_broken (p : Params) (s : State) (f : Fault) : noiseApply p s ≠ .broken f := by
  unfold noiseApply
  split
  · simp
  · rename_i hc
    obtain ⟨-, -, -, hsrc, hdst, -⟩ := noiseChecks_none hc
    rw [loadSamples_of_le s ((bufferOk_iff ..).1 hsrc).2]
    dsimp only
    rw [storeWords_of_le _ (sampleWords_fit (by simp) hdst)]
    split <;> simp

/-- 20_memory.md R81: the checks of every command come first, so its buffers lie inside the RAM. -/
theorem attempt_ne_broken (p : Params) (i : Instr) (s : State) (f : Fault) : attempt p i s ≠ .broken f := by
  cases i with
  | ncoBuild =>
    show ncoBuild p s ≠ .broken f
    unfold ncoBuild
    split <;> simp
  | ncoProduce => exact ncoProduce_ne_broken p s f
  | rssiRun => exact rssiRun_ne_broken p s f
  | noiseApply => exact noiseApply_ne_broken p s f
  | nop => exact Attempt.noConfusion
  | ncoRelease => exact Attempt.noConfusion
  | noiseSeed => exact Attempt.noConfusion

/-- The engine's turn always answers a next state. -/
theorem engineStepWith_total (p : Params) (s : State) : ∃ t, engineStepWith (execOn p) s = .next t := by
  unfold engineStepWith
  split
  · unfold execWordWith
    split
    · rename_i i _
      rw [execOn_eq_conclude]
      cases ha : attempt p i s with
      | commit u => exact ⟨_, rfl⟩
      | raise c d => exact ⟨_, rfl⟩
      | broken f => exact absurd ha (attempt_ne_broken p i s f)
    · exact ⟨_, rfl⟩
  · exact ⟨_, rfl⟩

/-! ### One step -/

theorem released_of_reset {s : State} (h : s.rstN = false) : released s = none := by
  simp [released, h]

/-- The one way a step stops: a bus transaction is next while `rst_n` is low (70_reset_and_hazards.md R400). -/
theorem stepOn_next_or_refused (p : Params) (s : State) :
    (∃ t, stepOn p s = .next t) ∨
      ∃ i es, s.rstN = false ∧ s.schedule = .bus i :: es ∧ stepOn p s = .refused (.busWhileReset i.host) := by
  unfold stepOn
  rcases stepWith_cases p (execOn p) s with ⟨i, u, -, h⟩ | ⟨-, -, h⟩ | ⟨e, es, -, hes, h⟩ <;> rw [h]
  · exact .inl ⟨_, rfl⟩
  · exact .inl (engineStepWith_total p s)
  · cases e with
    | engine => exact .inl (engineStepWith_total p _)
    | bus i =>
      dsimp only [runEventWith]
      split
      · exact .inl ⟨_, rfl⟩
      · rename_i hr
        exact .inr ⟨i, es, by simpa using hr, hes, rfl⟩
    | resetLow => exact .inl ⟨_, rfl⟩
    | resetHigh => exact .inl ⟨_, rfl⟩
    | powerCycle => exact .inl ⟨_, rfl⟩

/-- What a step that goes on did: `StepEffect p s t` holds of the state t it answers (`stepOn_next`). -/
inductive StepEffect (p : Params) (s : State) : State → Prop where
  /-- A transaction whose hold or wait was over reached the block. -/
  | released {i : Issued} {u : State} (h : Machine.released s = some (i, u)) : StepEffect p s (receive p u i)
  /-- The engine had its turn, as the next event or with no event left. -/
  | engine {es : List Event} {t : State} (h : engineStepWith (execOn p) { s with schedule := es } = .next t) :
      StepEffect p s t
  /-- A host issued a transaction. -/
  | bus {es : List Event} (i : Issued) (hr : s.rstN = true) : StepEffect p s (issue p { s with schedule := es } i)
  | resetLow {es : List Event} : StepEffect p s (assertReset p { s with schedule := es })
  | resetHigh {es : List Event} : StepEffect p s (releaseReset { s with schedule := es })
  | powerCycle {es : List Event} : StepEffect p s (Machine.powerCycle { s with schedule := es })

theorem stepOn_next {p : Params} {s t : State} (h : stepOn p s = .next t) : StepEffect p s t := by
  unfold stepOn at h
  rcases stepWith_cases p (execOn p) s with ⟨i, u, hrel, hstep⟩ | ⟨-, -, hstep⟩ | ⟨e, es, -, -, hstep⟩ <;> rw [hstep] at h
  · cases h
    exact .released hrel
  · exact .engine (es := s.schedule) h
  · cases e with
    | engine => exact .engine h
    | bus i =>
      dsimp only [runEventWith] at h
      split at h
      · rename_i hr
        cases h
        exact .bus i hr
      · cases h
    | resetLow => cases h; exact .resetLow
    | resetHigh => cases h; exact .resetHigh
    | powerCycle => cases h; exact .powerCycle

end Sys2Proof.Machine

namespace Sys2Proof

open Machine

/-- Settles O6: the checks of every command keep the engine inside the RAM, so a bus transaction in reset is all that stops a step. -/
theorem stepsStopOnlyForBusUseInReset : Obligations.StepsStopOnlyForBusUseInReset := by
  refine ⟨step_eq_stepOn, fun p s => ?_⟩
  rcases stepOn_next_or_refused p s with ⟨t, ht⟩ | ⟨i, es, hr, hes, hstop⟩
  · refine ⟨by simp [ht], fun r => ⟨by simp [ht], ?_⟩⟩
    rintro ⟨hr, i, es, hes, -⟩
    simp [stepOn, stepWith, released_of_reset hr, hes, runEventWith, hr] at ht
  · refine ⟨by simp [hstop], fun r => ⟨fun h => ?_, ?_⟩⟩
    · rw [hstop] at h
      cases h
      exact ⟨hr, i, es, hes, rfl⟩
    · rintro ⟨-, j, es', hes', rfl⟩
      rw [hes] at hes'
      cases hes'
      exact hstop

end Sys2Proof
end

section
/-! PROOF. Every step keeps the invariant of the block (20_memory.md R81, 10_state.md R60, R63): one lemma for each part of the state
that an operation may change, and one for each operation. -/

namespace Sys2Proof.Safety

open Machine

/-- The fields that the invariant speaks of are the same in t as in s. -/
structure SameChecked (s t : State) : Prop where
  ram : t.ram = s.ram
  nco : t.nco = s.nco
  noiseVar : t.noiseVar = s.noiseVar
  cmd : t.cmd = s.cmd
  pending : t.pending = s.pending
  done : t.done = s.done
  irqEn : t.irqEn = s.irqEn
  rstN : t.rstN = s.rstN
  held : t.held = s.held

/-! ### The live oscillator -/

theorem oscillatorOk_none (p : Params) : OscillatorOk p Nco.none :=
  ⟨fun _ => rfl, by decide, by decide, by decide, Nat.zero_le _, by decide⟩

/-- 41_nco.md R151: the checks of NCO_BUILD are what the invariant asks of an oscillator. -/
theorem oscillatorOk_staged {p : Params} {s : State} (h : buildChecks p s = true) : OscillatorOk p (stagedOscillator s) := by
  simp only [buildChecks, Bool.and_eq_true, decide_eq_true_eq] at h
  obtain ⟨⟨⟨⟨hamp, -⟩, -⟩, hpos, hfits⟩, hinc⟩ := h
  exact ⟨nofun, hamp, hinc, fun _ => hpos, show 8 * s.ncoChunk.toNat ≤ p.sramBytes by omega,
    show F64.posZero.toNat < F64.twoPi.toNat by decide⟩

/-- 41_nco.md R163, R164: a chunk moves the phase only, and MOD2PI brings it below TWO_PI. -/
theorem OscillatorOk.advance {p : Params} {o : Nco} (h : OscillatorOk p o) (hv : o.valid = true) :
    OscillatorOk p (Machine.advance o) where
  absent hnot := absurd hv (hnot ▸ Bool.false_ne_true)
  amp := h.amp
  inc := h.inc
  chunk_pos := h.chunk_pos
  chunk_fits := h.chunk_fits
  phase := by
    show (F64.mod2Pi _).toNat < _
    rw [F64.toNat_of_sign_false (F64.sign_mod2Pi _)]
    exact F64.magBits_mod2Pi_lt _

/-! ### The sample RAM -/

/-- The RAM is canonical and inside 0 .. SRAM_BYTES-1. -/
structure RamOk (p : Params) (m : Ram) : Prop where
  wf : Ram.wf m = true
  below : Ram.below p.sramBytes m = true

theorem RamOk.writeWord {p : Params} {m : Ram} {a : Nat} (h : RamOk p m) (w : Word) (ha : a + 4 ≤ p.sramBytes) :
    RamOk p (Ram.writeWord m a w) :=
  ⟨Ram.wf_writeWord m a w h.wf, Ram.below_writeWord _ m a w h.below ha⟩

theorem RamOk.writeWords {p : Params} {m : Ram} {a : Nat} {ws : List Word} (h : RamOk p m)
    (ha : a + 4 * ws.length ≤ p.sramBytes) : RamOk p (Ram.writeWords m a ws) :=
  ⟨Ram.wf_writeWords ws m a h.wf, Ram.below_writeWords _ ws m a h.below ha⟩

/-- 70_reset_and_hazards.md R402: the destination of an aborted command is cut to the RAM. -/
theorem RamOk.abortCommand {p : Params} {s : State} (h : RamOk p s.ram) : RamOk p (abortCommand p s).ram := by
  cases hp : s.pending with
  | none => rwa [abortCommand_idle p hp]
  | some w =>
    rw [show (Machine.abortCommand p s).ram =
      (scramble s.ram s.draws (destInRam p s w).1 (destInRam p s w).2).1 by simp [Machine.abortCommand, hp]]
    refine ⟨scramble_wf _ _ _ _ h.wf, ?_⟩
    rcases le_or_gt (destInRam p s w).1 p.sramBytes with hle | hgt
    · exact scramble_below _ _ _ _ _ h.below (by simp only [destInRam] at hle ⊢; omega)
    · rw [show (destInRam p s w).2 = 0 by simp only [destInRam] at hgt ⊢; omega]
      exact h.below

namespace BlockInvariant

variable {p : Params} {s t : State}

/-! ### One part of the state changes -/

theorem ramOk (h : BlockInvariant p s) : RamOk p s.ram := ⟨h.ram_wf, h.ram_below⟩

/-- Where the two states differ in other fields only, `SameChecked` holds by definition. -/
theorem congr (h : BlockInvariant p s) (hst : SameChecked s t := by constructor <;> rfl) : BlockInvariant p t where
  ram_wf := hst.ram ▸ h.ram_wf
  ram_below := hst.ram ▸ h.ram_below
  nco := hst.nco ▸ h.nco
  var_finite := hst.noiseVar ▸ h.var_finite
  cmd_pending := by rw [hst.pending, hst.cmd]; exact h.cmd_pending
  not_busy_done := by rw [hst.pending, hst.done]; exact h.not_busy_done
  idle_in_reset := by rw [hst.rstN, hst.pending, hst.done, hst.irqEn]; exact h.idle_in_reset
  held_ram := hst.held ▸ h.held_ram
  held_hosts := hst.held ▸ h.held_hosts

/-- The fields that a command may stage (`attempt_commit_frame`), each with what the invariant asks of it. -/
theorem set_results (h : BlockInvariant p s) {m : Ram} {o : Nco} {v : F64} (hm : RamOk p m) (ho : OscillatorOk p o)
    (hv : F64.isFinite v = true) (n : Word) (z : U64) (d : Nat) :
    BlockInvariant p { s with ram := m, nco := o, rssiOutlen := n, prng := z, noiseVar := v, draws := d } :=
  { h with ram_wf := hm.wf, ram_below := hm.below, nco := ho, var_finite := hv }

/-- 20_memory.md R82: the one access of a host that does not hold may come to hold. -/
theorem hold (h : BlockInvariant p s) {i : Issued} (hram : reachesRam p i.txn = true) (hhost : ∀ j ∈ s.held, j.host ≠ i.host) :
    BlockInvariant p { s with held := s.held ++ [i] } where
  __ := h
  held_ram j hj := by
    rcases List.mem_append.1 hj with hj | hj
    · exact h.held_ram j hj
    · rw [List.mem_singleton.1 hj]
      exact hram
  held_hosts := by
    show ((s.held ++ [i]).map Issued.host).Nodup
    rw [List.map_append, List.nodup_append']
    exact ⟨h.held_hosts, List.nodup_singleton _, by simpa [List.disjoint_singleton] using hhost⟩

theorem release {i : Issued} {rest : List Issued} (h : BlockInvariant p s) (hs : s.held = i :: rest) :
    BlockInvariant p { s with held := rest } where
  __ := h
  held_ram j hj := h.held_ram j (hs ▸ List.mem_cons_of_mem i hj)
  held_hosts := by
    have hnodup := h.held_hosts
    rw [hs] at hnodup
    exact hnodup.of_cons

/-! ### The end of a command, and reset -/

/-- 40_control.md R134: completion ends BUSY with DONE; it happens with `rst_n` high only. -/
theorem complete (h : BlockInvariant p s) (hr : s.rstN = true) (c : ErrCode) : BlockInvariant p (complete s c) where
  __ := h
  cmd_pending := nofun
  not_busy_done := nofun
  idle_in_reset hlow := absurd hr (hlow ▸ Bool.false_ne_true)

/-- Each command stages results that keep the invariant: its checks see to that. -/
theorem attempt_commit (h : BlockInvariant p s) {i : Instr} {u : State} (hu : attempt p i s = .commit u) :
    BlockInvariant p u := by
  cases i with
  | nop => cases hu; exact h
  | ncoBuild =>
    obtain ⟨hc, rfl⟩ := ncoBuild_commit hu
    exact h.set_results h.ramOk (oscillatorOk_staged hc) h.var_finite _ _ _
  | ncoProduce =>
    obtain ⟨hv, hb, -, rfl⟩ := ncoProduce_commit hu
    have hfit := sampleWords_fit (chunkSamples_length p.num s.nco) hb
    exact h.set_results (h.ramOk.writeWords hfit) (h.nco.advance hv) h.var_finite _ _ _
  | ncoRelease => cases hu; exact h.set_results h.ramOk (oscillatorOk_none p) h.var_finite _ _ _
  | rssiRun =>
    obtain ⟨hc, rfl⟩ := rssiRun_commit hu
    obtain ⟨-, -, -, -, -, -, hdst, -⟩ := rssiChecks_none hc
    exact h.set_results (h.ramOk.writeWords (by simpa using ((bufferOk_iff ..).1 hdst).2)) h.nco h.var_finite _ _ _
  | noiseSeed => cases hu; exact h.congr
  | noiseApply =>
    obtain ⟨hc, hfin, rfl⟩ := noiseApply_commit hu
    obtain ⟨-, -, -, -, hdst, -⟩ := noiseChecks_none hc
    exact h.set_results (h.ramOk.writeWords (sampleWords_fit (by simp) hdst)) h.nco hfin _ _ _

/-- The engine moves with `rst_n` high only, since the block is idle while it is low. -/
theorem engineStep (h : BlockInvariant p s) (ht : engineStepWith (execOn p) s = .next t) : BlockInvariant p t := by
  rcases engineStepWith_next ht with ⟨-, rfl⟩ | ⟨w, hw, hexec⟩
  · exact h
  · have hr : s.rstN = true := by
      by_contra hlow
      obtain ⟨hidle, -, -⟩ := h.idle_in_reset (by simpa using hlow)
      simp [hidle] at hw
    rcases execWordWith_next hexec with ⟨i, u, hu, rfl⟩ | ⟨c, d, rfl⟩
    · refine (h.attempt_commit hu).complete ?_ _
      obtain ⟨_, _, _, _, _, _, rfl⟩ := attempt_commit_frame hu
      exact hr
    · exact (h.complete hr c).congr

/-- 70_reset_and_hazards.md R401: the registers at their reset values, whatever the level of `rst_n`. -/
theorem of_registersAtReset (h : BlockInvariant p s) (hreset : registersAtReset t) (hm : RamOk p t.ram)
    (hheld : t.held = s.held) : BlockInvariant p t := by
  rw [hreset]
  exact
    { ram_wf := hm.wf
      ram_below := hm.below
      nco := oscillatorOk_none p
      var_finite := show F64.isFinite 0#64 = true by decide
      cmd_pending := nofun
      not_busy_done := nofun
      idle_in_reset := fun _ => ⟨rfl, rfl, rfl⟩
      held_ram := hheld ▸ h.held_ram
      held_hosts := hheld ▸ h.held_hosts }

theorem softReset_held (p : Params) (s : State) : (softReset p s).held = s.held := by rw [softReset_eq]

theorem softReset (h : BlockInvariant p s) : BlockInvariant p (softReset p s) :=
  h.of_registersAtReset (registersAtReset_softReset p s) h.ramOk.abortCommand (softReset_held p s)

theorem assertReset (h : BlockInvariant p s) : BlockInvariant p (assertReset p s) :=
  h.of_registersAtReset rfl h.ramOk.abortCommand (softReset_held p s)

theorem releaseReset (h : BlockInvariant p s) : BlockInvariant p (releaseReset s) := { h with idle_in_reset := nofun }

theorem powerCycle (h : BlockInvariant p s) : BlockInvariant p (powerCycle s) := h.of_registersAtReset rfl ⟨rfl, rfl⟩ rfl

/-! ### Transactions -/

/-- 40_control.md R131, R132: a register write accepts a command, resets, sets a flag, or writes an operand. -/
theorem writeReg (h : BlockInvariant p s) (hr : s.rstN = true) (r : Reg) (v : Word) : BlockInvariant p (writeReg p s r v) := by
  have hout : ∀ {P : Prop}, s.rstN = false → P := fun hlow => absurd hr (hlow ▸ Bool.false_ne_true)
  cases r with
  | ctrl =>
    show BlockInvariant p (writeCtrl p s v)
    unfold writeCtrl
    split
    · exact h.softReset
    · exact { h with idle_in_reset := hout }
  | status =>
    exact { h with
      not_busy_done := fun hb => by simp [Machine.writeReg, h.not_busy_done hb]
      idle_in_reset := hout }
  | cmd => exact { h with cmd_pending := fun _ hw => Option.some.inj hw, not_busy_done := fun _ => rfl, idle_in_reset := hout }
  | _ => exact h.congr

theorem writeWindow (h : BlockInvariant p s) (hr : s.rstN = true) (off : Nat) (v : Word) :
    BlockInvariant p (writeWindow p s off v) := by
  have hdrop : BlockInvariant p { s with busyViol := true } := h.congr
  unfold Machine.writeWindow
  split
  · split
    · exact hdrop
    · exact h.writeReg hr _ v
  · split
    · exact hdrop
    · exact h

theorem answer (h : BlockInvariant p s) (i : Issued) (a : Answer) : BlockInvariant p (answer s i a) :=
  h.congr

/-- 00_scope.md R5: SRAM_BYTES is a multiple of 8, so an aligned word that begins inside the RAM ends there. -/
theorem perform (hp : p.sramLegal = true) (h : BlockInvariant p s) (hr : s.rstN = true) (i : Issued) :
    BlockInvariant p (perform p s i) := by
  obtain ⟨host, txn⟩ := i
  cases txn with
  | read width off =>
    obtain ⟨d, hd⟩ := performRead_state p s width off
    rw [perform_read, hd]
    exact h.congr
  | write width off v =>
    rw [perform_write]
    refine answer ?_ _ _
    rcases performWrite_state p s width off v with ⟨o, -, hw⟩ | ⟨a, ha, hw⟩ | ⟨-, hw⟩ <;> rw [hw]
    · exact h.writeWindow hr o v
    · obtain ⟨-, halign, hoff, hlt⟩ := locate_ram ha
      simp only [Params.sramLegal, Bool.and_eq_true, decide_eq_true_eq] at hp
      exact h.set_results (h.ramOk.writeWord v (by omega)) h.nco h.var_finite _ _ _
    · exact h

theorem receive (hp : p.sramLegal = true) (h : BlockInvariant p s) (hr : s.rstN = true) {i : Issued}
    (hhost : busy s = true → ∀ j ∈ s.held, j.host ≠ i.host) : BlockInvariant p (receive p s i) := by
  rcases receive_cases p s i with ⟨hb, hram, hi⟩ | ⟨-, hi⟩ <;> rw [hi]
  · exact h.hold hram (hhost hb)
  · exact h.perform hp hr i

theorem issue (hp : p.sramLegal = true) (h : BlockInvariant p s) (hr : s.rstN = true) (i : Issued) :
    BlockInvariant p (issue p s i) := by
  rcases issue_cases p s i with ⟨-, hi⟩ | ⟨hfree, hi⟩ <;> rw [hi]
  · exact h.congr
  · exact h.receive hp hr fun _ => ((hostStalled_eq_false s i.host).1 hfree).1

/-- What is released is an access that held, with the block idle, or a transaction of a host that does not hold. -/
theorem receive_released (hp : p.sramLegal = true) (h : BlockInvariant p s) {i : Issued} {u : State}
    (hrel : released s = some (i, u)) : BlockInvariant p (Machine.receive p u i) := by
  obtain ⟨hr, ⟨hidle, rest, hheld, rfl⟩ | ⟨-, before, after, -, -, hfree, rfl⟩⟩ := released_some hrel
  · exact (h.release hheld).receive hp hr fun hb => by simp [busy, hidle] at hb
  · exact (h.congr (t := { s with queued := before ++ after })).receive hp hr
      fun _ => hfree

/-! ### One step -/

theorem set_schedule (h : BlockInvariant p s) (es : List Event) : BlockInvariant p { s with schedule := es } :=
  h.congr

theorem stepOn (hp : p.sramLegal = true) (h : BlockInvariant p s) (hstep : stepOn p s = .next t) : BlockInvariant p t := by
  cases stepOn_next hstep with
  | released hrel => exact h.receive_released hp hrel
  | @engine es _ heng => exact (h.set_schedule es).engineStep heng
  | @bus es i hr => exact (h.set_schedule es).issue hp hr i
  | resetLow => exact (h.set_schedule _).assertReset
  | resetHigh => exact (h.set_schedule _).releaseReset
  | powerCycle => exact (h.set_schedule _).powerCycle

end BlockInvariant

end Sys2Proof.Safety

namespace Sys2Proof

open Machine Safety

theorem Params.sramLegal_of_wellFormed {p : Params} (h : p.wellFormed = true) : p.sramLegal = true := by
  simp only [Params.wellFormed, Bool.and_eq_true] at h
  obtain ⟨⟨⟨hsram, -⟩, -⟩, -⟩ := h
  exact hsram

/-- Settles O60: of the legal values only that SRAM_BYTES is a multiple of 8 is needed, and the default parameters are legal. -/
theorem everyStepKeepsTheInvariant : Obligations.EveryStepKeepsTheInvariant := by
  refine ⟨fun p s t hp h hstep => h.stepOn (Params.sramLegal_of_wellFormed hp) hstep, fun s t h hstep => ?_⟩
  rw [step_eq_stepOn] at hstep
  exact h.stepOn (by decide) hstep

end Sys2Proof
end

section
/-! PROOF. What one access of a host does (20_memory.md R80 to R90): where it leads, its errors, and the bytes of a RAM word. -/

namespace Sys2Proof.Machine

open Safety

/-! ### Where an access leads -/

theorem locate_eq_nowhere_iff (p : Params) (width off : Nat) :
    locate p width off = .nowhere ↔
      width ≠ 32 ∨ off % 4 ≠ 0 ∨ (0x1000 ≤ off ∧ off < 0x10000) ∨ 0x10000 + p.sramBytes ≤ off := by
  unfold locate
  split
  · simp only [true_iff]
    tauto
  split
  · simp only [reduceCtorEq, false_iff]
    omega
  split
  · simp only [reduceCtorEq, false_iff]
    omega
  · simp only [true_iff]
    omega

/-- An aligned word of the RAM, at its offset in the window. -/
theorem locate_ram_word {p : Params} {a : Nat} (ha : a % 4 = 0) (hlt : a < p.sramBytes) :
    locate p 32 (0x10000 + a) = .ram a := by
  unfold locate
  rw [if_neg (by omega), if_neg (by omega), if_pos (by omega), Nat.add_sub_cancel_left]

theorem reachesRam_iff (p : Params) (t : Txn) : reachesRam p t = true ↔ ∃ a, t.target p = .ram a := by
  unfold reachesRam
  cases t.target p <;> simp

theorem exists_locate_ram_iff (p : Params) (width off : Nat) :
    (∃ a, locate p width off = .ram a) ↔
      width = 32 ∧ off % 4 = 0 ∧ 0x10000 ≤ off ∧ off < 0x10000 + p.sramBytes := by
  refine ⟨fun ⟨a, h⟩ => ?_, fun ⟨hw, halign, hlo, hhi⟩ => ?_⟩
  · obtain ⟨hw, halign, rfl, hlt⟩ := locate_ram h
    omega
  · obtain ⟨a, rfl⟩ := Nat.exists_eq_add_of_le hlo
    exact ⟨a, hw ▸ locate_ram_word (by omega) (by omega)⟩

/-! ### The answer -/

/-- 20_memory.md R83: an access that leads nowhere only answers `error`. -/
theorem perform_nowhere {p : Params} (s : State) {i : Issued} (h : i.txn.target p = .nowhere) :
    perform p s i = answer s i .error := by
  obtain ⟨host, txn⟩ := i
  cases txn with
  | read width off => rw [perform_read, performRead, show locate p width off = .nowhere from h]
  | write width off v => rw [perform_write, performWrite, show locate p width off = .nowhere from h]

/-- Every other access answers something else. -/
theorem perform_somewhere {p : Params} (s : State) {i : Issued} (h : i.txn.target p ≠ .nowhere) :
    ∃ t a, perform p s i = answer t i a ∧ a ≠ .error := by
  obtain ⟨host, txn⟩ := i
  cases txn with
  | read width off =>
    refine ⟨_, _, perform_read .., ?_⟩
    unfold performRead
    split
    · exact Answer.noConfusion
    · exact Answer.noConfusion
    · rename_i hl
      exact absurd hl h
  | write width off v =>
    refine ⟨_, _, perform_write .., ?_⟩
    unfold performWrite
    split
    · exact Answer.noConfusion
    · exact Answer.noConfusion
    · rename_i hl
      exact absurd hl h

/-- 20_memory.md R89: what a read does to the state: at most it uses free values up. -/
theorem performRead_draws (p : Params) (s : State) (width off : Nat) :
    ∃ d, (performRead p s width off).1 = { s with draws := d } ∧ s.draws ≤ d := by
  unfold performRead
  split
  · exact ⟨s.draws, rfl, le_rfl⟩
  · exact ⟨_, rfl, drawWord_draws_le ..⟩
  · exact ⟨s.draws, rfl, le_rfl⟩

theorem performRead_ram {p : Params} (s : State) {a : Nat} (ha : a % 4 = 0) (hlt : a < p.sramBytes) :
    performRead p s 32 (0x10000 + a) =
      ({ s with draws := (drawWord s.ram s.draws a).2 }, .okData (drawWord s.ram s.draws a).1) := by
  rw [performRead, locate_ram_word ha hlt]

theorem perform_write_ram {p : Params} (s : State) (host : Nat) {a : Nat} (v : Word) (ha : a % 4 = 0) (hlt : a < p.sramBytes) :
    perform p s ⟨host, .write 32 (0x10000 + a) v⟩ =
      { s with
        ram := Ram.writeWord s.ram a v
        replies := ⟨host, .write 32 (0x10000 + a) v, .ok⟩ :: s.replies } := by
  rw [perform_write, performWrite, locate_ram_word ha hlt]
  rfl

/-! ### The bytes of a word -/

/-- 20_memory.md R84: a word is its four bytes, the last one highest. -/
theorem append_bytes (w : Word) :
    w.extractLsb' 24 8 ++ w.extractLsb' 16 8 ++ w.extractLsb' 8 8 ++ w.extractLsb' 0 8 = w := by
  rw [BitVec.extractLsb'_append_extractLsb'_eq_extractLsb' (show 24 = 16 + 8 from rfl),
    BitVec.extractLsb'_append_extractLsb'_eq_extractLsb' (show 16 = 8 + 8 from rfl),
    BitVec.extractLsb'_append_extractLsb'_eq_extractLsb' (show 8 = 0 + 8 from rfl)]
  exact BitVec.extractLsb'_eq_self

theorem bytes_append (b0 b1 b2 b3 : Byte) :
    (b3 ++ b2 ++ b1 ++ b0).extractLsb' 0 8 = b0 ∧ (b3 ++ b2 ++ b1 ++ b0).extractLsb' 8 8 = b1 ∧
      (b3 ++ b2 ++ b1 ++ b0).extractLsb' 16 8 = b2 ∧ (b3 ++ b2 ++ b1 ++ b0).extractLsb' 24 8 = b3 := by
  refine ⟨BitVec.extractLsb'_append_eq_right, ?_, ?_, ?_⟩
  · rw [BitVec.extractLsb'_append_eq_of_le (by decide)]
    exact BitVec.extractLsb'_append_eq_right
  · rw [BitVec.extractLsb'_append_eq_of_le (by decide), BitVec.extractLsb'_append_eq_of_le (by decide)]
    exact BitVec.extractLsb'_append_eq_right
  · rw [BitVec.extractLsb'_append_eq_of_le (by decide), BitVec.extractLsb'_append_eq_of_le (by decide),
      BitVec.extractLsb'_append_eq_of_le (by decide)]
    exact BitVec.extractLsb'_eq_self

/-- The bytes of w, and no free value, are what a read of the word at offset a meets. -/
structure WordAt (m : Ram) (a : Nat) (w : Word) : Prop where
  byte0 : Ram.read m a = some (w.extractLsb' 0 8)
  byte1 : Ram.read m (a + 1) = some (w.extractLsb' 8 8)
  byte2 : Ram.read m (a + 2) = some (w.extractLsb' 16 8)
  byte3 : Ram.read m (a + 3) = some (w.extractLsb' 24 8)

theorem WordAt.writeWord (m : Ram) (a : Nat) (w : Word) : WordAt (Ram.writeWord m a w) a w := by
  constructor <;> simp [Ram.read_writeWord]

theorem WordAt.drawWord {m : Ram} {a : Nat} {w : Word} (h : WordAt m a w) (d : Nat) : drawWord m d a = (w, d) := by
  simp only [Machine.drawWord, drawByte_of_some _ h.byte0, drawByte_of_some _ h.byte1, drawByte_of_some _ h.byte2,
    drawByte_of_some _ h.byte3]
  rw [append_bytes]

/-- A read that uses no free value up meets a written byte. -/
theorem exists_read_of_drawByte {m : Ram} {d a : Nat} (h : (drawByte m d a).2 ≤ d) : ∃ b, Ram.read m a = some b := by
  cases hb : Ram.read m a with
  | some b => exact ⟨b, rfl⟩
  | none => rw [drawByte_of_none d hb] at h; omega

/-- A read of a word that uses no free value up meets four written bytes, and answers them. -/
theorem WordAt.of_drawWord {m : Ram} {d a : Nat} {w : Word} (h : Machine.drawWord m d a = (w, d)) : WordAt m a w := by
  simp only [Machine.drawWord, Prod.mk.injEq] at h
  obtain ⟨hw, hd⟩ := h
  have hle := drawByte_draws_le m
  obtain ⟨b0, h0⟩ := exists_read_of_drawByte (((hle _ (a + 1)).trans ((hle _ (a + 2)).trans (hle _ (a + 3)))).trans hd.le)
  rw [drawByte_of_some d h0] at hw hd
  obtain ⟨b1, h1⟩ := exists_read_of_drawByte (((hle _ (a + 2)).trans (hle _ (a + 3))).trans hd.le)
  rw [drawByte_of_some d h1] at hw hd
  obtain ⟨b2, h2⟩ := exists_read_of_drawByte ((hle _ (a + 3)).trans hd.le)
  rw [drawByte_of_some d h2] at hw hd
  obtain ⟨b3, h3⟩ := exists_read_of_drawByte hd.le
  rw [drawByte_of_some d h3] at hw
  obtain ⟨e0, e1, e2, e3⟩ := bytes_append b0 b1 b2 b3
  subst hw
  exact ⟨by rw [e0]; exact h0, by rw [e1]; exact h1, by rw [e2]; exact h2, by rw [e3]; exact h3⟩

theorem holdsWord_iff (m : Ram) (a : Nat) (w : Word) : holdsWord m a w ↔ WordAt m a w :=
  ⟨fun h => .of_drawWord (h 0), WordAt.drawWord⟩

/-- 20_memory.md R90: four bytes nothing has written are four fresh free values. -/
theorem drawWord_unwritten {m : Ram} {a : Nat} (d : Nat) (h : ∀ x, a ≤ x → x < a + 4 → Ram.read m x = none) :
    drawWord m d a =
      (Config.freeByte (d + 3) ++ Config.freeByte (d + 2) ++ Config.freeByte (d + 1) ++ Config.freeByte d, d + 4) := by
  simp only [drawWord, drawByte_of_none _ (h a (by omega) (by omega)), drawByte_of_none _ (h (a + 1) (by omega) (by omega)),
    drawByte_of_none _ (h (a + 2) (by omega) (by omega)), drawByte_of_none _ (h (a + 3) (by omega) (by omega))]

end Sys2Proof.Machine

namespace Sys2Proof

open Machine Safety

/-- Settles O47: the accesses named are exactly those that lead nowhere. -/
theorem badAccessesAnswerError : Obligations.BadAccessesAnswerError := by
  intro s i width off hi
  have htarget : i.txn.target Config.params = locate Config.params width off := by
    rcases hi with h | ⟨v, h⟩ <;> rw [h] <;> rfl
  have hbad := locate_eq_nowhere_iff Config.params width off
  rw [← htarget] at hbad
  exact ⟨fun h => perform_nowhere s (hbad.2 h), fun h => perform_somewhere s (mt hbad.1 h)⟩

/-- Settles O48: of the three places a read can lead to, only unwritten RAM uses free values up. -/
theorem readsChangeNothing : Obligations.ReadsChangeNothing := by
  intro s host width off
  obtain ⟨d, hstate, hle⟩ := performRead_draws Config.params s width off
  exact ⟨_, d, by rw [perform_read, hstate]; rfl, hle⟩

/-- Settles O49: a write leaves the four bytes of the word, and a read that meets four written bytes answers them. -/
theorem ramWordsAreLittleEndian : Obligations.RamWordsAreLittleEndian := by
  refine ⟨fun m a w => ?_, fun s host a v ha hfit => ?_⟩
  · rw [holdsWord_iff]
    exact ⟨fun ⟨h0, h1, h2, h3⟩ => ⟨h0, h1, h2, h3⟩, fun ⟨h0, h1, h2, h3⟩ => ⟨h0, h1, h2, h3⟩⟩
  · have hlt : a < Config.params.sramBytes := show a < 65536 by omega
    have hword := WordAt.writeWord s.ram a v
    refine ⟨_, perform_write_ram s host v ha hlt, hword.byte0, hword.byte1, hword.byte2, hword.byte3, fun x hx => ?_, ?_⟩
    · simp only [inRegion] at hx
      exact Ram.read_writeWord_other _ _ _ _ (by omega)
    · rw [performRead_ram _ ha hlt, hword.drawWord]

/-- Settles O50: each of the four bytes takes the next free value. -/
theorem unwrittenRamReadsAreFreeDraws : Obligations.UnwrittenRamReadsAreFreeDraws := by
  intro s a ha hfit hnone
  rw [performRead_ram s ha (show a < 65536 by omega), drawWord_unwritten s.draws fun x hlo hhi => hnone x ⟨hlo, hhi⟩]

end Sys2Proof
end

section
/-! PROOF. What a host can do while a command is pending (20_memory.md R87, R88, R95; 40_control.md R133). -/

namespace Sys2Proof.Machine

open Safety

/-! ### The operand registers stay as they are -/

section
variable {p : Params} {s : State}

/-- 40_control.md R133: only CTRL and STATUS take a write while a command is pending. -/
theorem writeWindow_busy_operands (hb : busy s = true) (off : Nat) (v : Word) :
    SameOperands s (writeWindow p s off v) ∨ registersAtReset (writeWindow p s off v) := by
  have hdrop : SameOperands s { s with busyViol := true } := by constructor <;> rfl
  unfold writeWindow
  cases regAt off with
  | none => exact .inl (by rw [if_pos hb]; exact hdrop)
  | some r =>
    simp only [hb, Bool.true_and]
    cases r with
    | ctrl =>
      show SameOperands s (writeCtrl p s v) ∨ registersAtReset (writeCtrl p s v)
      unfold writeCtrl
      split
      · exact .inr (registersAtReset_softReset p s)
      · exact .inl (by constructor <;> rfl)
    | status => exact .inl (by constructor <;> rfl)
    | _ => exact .inl hdrop

theorem perform_busy_operands (hb : busy s = true) (i : Issued) :
    SameOperands s (perform p s i) ∨ registersAtReset (perform p s i) := by
  obtain ⟨host, txn⟩ := i
  cases txn with
  | read width off =>
    obtain ⟨d, h⟩ := performRead_state p s width off
    rw [perform_read, h]
    exact .inl (by constructor <;> rfl)
  | write width off v =>
    rw [perform_write]
    rcases performWrite_state p s width off v with ⟨o, -, h⟩ | ⟨a, -, h⟩ | ⟨-, h⟩ <;> rw [h]
    · exact (writeWindow_busy_operands hb o v).imp (fun hsame => { hsame with }) fun hreset =>
        registersAtReset_answer hreset _ _
    · exact .inl (by constructor <;> rfl)
    · exact .inl (by constructor <;> rfl)

theorem receive_busy_operands (hb : busy s = true) (i : Issued) :
    SameOperands s (receive p s i) ∨ registersAtReset (receive p s i) := by
  rcases receive_cases p s i with ⟨-, -, h⟩ | ⟨-, h⟩ <;> rw [h]
  · exact .inl (by constructor <;> rfl)
  · exact perform_busy_operands hb i

theorem issue_busy_operands (hb : busy s = true) (i : Issued) :
    SameOperands s (issue p s i) ∨ registersAtReset (issue p s i) := by
  rcases issue_cases p s i with ⟨-, h⟩ | ⟨-, h⟩ <;> rw [h]
  · exact .inl (by constructor <;> rfl)
  · exact receive_busy_operands hb i

end

theorem engineStepWith_operands {p : Params} {s t : State} (h : engineStepWith (execOn p) s = .next t) : SameOperands s t := by
  rcases engineStepWith_next h with ⟨-, rfl⟩ | ⟨w, -, hexec⟩
  · constructor <;> rfl
  · obtain ⟨_, _, _, _, _, _, _, rfl⟩ := execWordWith_frame hexec
    constructor <;> rfl

/-- While a command is pending what is released was queued, and the accesses that hold go on holding. -/
theorem released_busy {s u : State} {i : Issued} (hb : s.pending.isSome = true) (h : released s = some (i, u)) :
    ∃ q, u = { s with queued := q } := by
  obtain ⟨-, ⟨hidle, -⟩ | ⟨-, before, after, -, -, -, rfl⟩⟩ := released_some h
  · simp [hidle] at hb
  · exact ⟨_, rfl⟩

/-- 20_memory.md R95: a step with a command pending leaves every operand register, or resets them all. -/
theorem stepOn_busy_operands {p : Params} {s t : State} (hb : s.pending.isSome = true) (h : stepOn p s = .next t) :
    SameOperands s t ∨ registersAtReset t := by
  cases stepOn_next h with
  | released hrel =>
    obtain ⟨q, rfl⟩ := released_busy hb hrel
    exact (receive_busy_operands (s := { s with queued := q }) hb _).imp_left fun hsame => { hsame with }
  | @engine es _ heng =>
    have hsame := engineStepWith_operands heng
    exact .inl { hsame with }
  | @bus es i _ => exact (issue_busy_operands (s := { s with schedule := es }) hb i).imp_left fun hsame => { hsame with }
  | resetLow => exact .inr rfl
  | resetHigh => exact .inl (by constructor <;> rfl)
  | powerCycle => exact .inr rfl

/-! ### A sample-RAM access is not answered -/

/-- Between s and t no access that held was let go, at most one came to hold, and no sample-RAM access was answered. -/
structure RamWaits (p : Params) (s t : State) : Prop where
  held : t.held = s.held ∨ ∃ i, t.held = s.held ++ [i]
  replies : t.replies = s.replies ∨ ∃ r : Reply, t.replies = r :: s.replies ∧ reachesRam p r.txn = false

theorem RamWaits.of_same {p : Params} {s t : State} (hheld : t.held = s.held) (hreplies : t.replies = s.replies) :
    RamWaits p s t := ⟨.inl hheld, .inl hreplies⟩

theorem receive_busy_ramWaits (p : Params) {s : State} (hb : busy s = true) (i : Issued) : RamWaits p s (receive p s i) := by
  rcases receive_cases p s i with ⟨-, -, h⟩ | ⟨hidle | hreg, h⟩
  · rw [h]
    exact ⟨.inr ⟨i, rfl⟩, .inl rfl⟩
  · simp [hb] at hidle
  · rw [h]
    obtain ⟨a, ha⟩ := perform_replies p s i
    exact ⟨.inl (perform_bus p s i).held, .inr ⟨_, ha, hreg⟩⟩

theorem issue_busy_ramWaits (p : Params) {s : State} (hb : busy s = true) (i : Issued) : RamWaits p s (issue p s i) := by
  rcases issue_cases p s i with ⟨-, h⟩ | ⟨-, h⟩ <;> rw [h]
  · exact .of_same rfl rfl
  · exact receive_busy_ramWaits p hb i

theorem engineStepWith_ramWaits {p : Params} {s t : State} (h : engineStepWith (execOn p) s = .next t) : RamWaits p s t := by
  rcases engineStepWith_next h with ⟨-, rfl⟩ | ⟨w, -, hexec⟩
  · exact .of_same rfl rfl
  · obtain ⟨_, _, _, _, _, _, _, rfl⟩ := execWordWith_frame hexec
    exact .of_same rfl rfl

theorem softReset_waiting (p : Params) (s : State) :
    (softReset p s).held = s.held ∧ (softReset p s).replies = s.replies := by
  rw [softReset_eq]
  exact ⟨rfl, rfl⟩

/-- 20_memory.md R87: no step lets a sample-RAM access through while a command is pending. -/
theorem stepOn_busy_ramWaits {p : Params} {s t : State} (hb : s.pending.isSome = true) (h : stepOn p s = .next t) :
    RamWaits p s t := by
  cases stepOn_next h with
  | released hrel =>
    obtain ⟨q, rfl⟩ := released_busy hb hrel
    have hwaits := receive_busy_ramWaits p (s := { s with queued := q }) hb
    exact { hwaits _ with }
  | engine heng =>
    have hwaits := engineStepWith_ramWaits heng
    exact { hwaits with }
  | @bus es i _ =>
    have hwaits := issue_busy_ramWaits p (s := { s with schedule := es }) hb i
    exact { hwaits with }
  | resetLow =>
    obtain ⟨hheld, hreplies⟩ := softReset_waiting p { s with schedule := _ }
    exact .of_same hheld hreplies
  | resetHigh => exact .of_same rfl rfl
  | powerCycle => exact .of_same rfl rfl

/-! ### Where a transaction of a host goes -/

theorem receive_of_register {p : Params} (s : State) {i : Issued} (h : reachesRam p i.txn = false) :
    receive p s i = perform p s i := by
  simp [receive, mustHold, h]

theorem receive_hold {p : Params} {s : State} {i : Issued} (hb : s.pending.isSome = true) (h : reachesRam p i.txn = true) :
    receive p s i = { s with held := s.held ++ [i] } := by
  simp [receive, mustHold, busy, hb, h]

theorem issue_of_free {p : Params} {s : State} {i : Issued} (hheld : ∀ j ∈ s.held, j.host ≠ i.host)
    (hqueued : ∀ j ∈ s.queued, j.host ≠ i.host) : issue p s i = receive p s i := by
  simp [issue, (hostStalled_eq_false s i.host).2 ⟨hheld, hqueued⟩]

theorem issue_of_stalled {p : Params} {s : State} {i j : Issued} (hj : j ∈ s.held ∨ j ∈ s.queued) (hhost : j.host = i.host) :
    issue p s i = { s with queued := s.queued ++ [i] } := by
  have hstalled : hostStalled s i.host = true := by
    simp only [hostStalled, List.any_eq_true, List.mem_append, beq_iff_eq]
    exact ⟨j, hj, hhost⟩
  simp [issue, hstalled]

/-- With nothing to release, the next event of the schedule is what happens. -/
theorem step_of_event {s : State} {e : Event} {es : List Event} (hrel : released s = none) (hs : s.schedule = e :: es) :
    step s = runEventWith Config.params exec e { s with schedule := es } := by
  simp [step, stepWith, hrel, hs]

end Sys2Proof.Machine

namespace Sys2Proof

open Machine Safety

/-- Settles O53: a write of an operand register is dropped while a command is pending, and no command writes one. -/
theorem operandsAreFixedWhileBusy : Obligations.OperandsAreFixedWhileBusy := by
  intro s t hb h
  rw [step_eq_stepOn] at h
  exact stepOn_busy_operands hb h

/-- Settles O51: `receive` and `issue` say where a transaction goes, and every effect of a step keeps `RamWaits` while busy. -/
theorem ramAccessHoldsWhileBusy : Obligations.RamAccessHoldsWhileBusy := by
  refine ⟨fun width off v => ?_, fun s i es hr hrel hs => ?_, fun s i hheld hqueued => ?_, fun s i j hj hhost => ?_,
    fun s t hb h => ?_⟩
  · have hlocate := exists_locate_ram_iff Config.params width off
    exact ⟨(reachesRam_iff _ _).trans hlocate, (reachesRam_iff _ _).trans hlocate⟩
  · rw [step_of_event hrel hs]
    simp [runEventWith, hr]
  · rw [issue_of_free hheld hqueued]
    exact ⟨fun hidle => receive_of_idle _ hidle i, receive_hold, receive_of_register s⟩
  · exact issue_of_stalled hj hhost
  · rw [step_eq_stepOn] at h
    obtain ⟨hheld, hreplies⟩ := stepOn_busy_ramWaits hb h
    refine ⟨hheld, hreplies, fun i u hrel => ?_⟩
    obtain ⟨q, rfl⟩ := released_busy hb hrel
    rfl

end Sys2Proof
end

section
/-! PROOF. The accesses that hold act after the completion, oldest first (20_memory.md R87, R92; 40_control.md R138). -/

namespace Sys2Proof.Machine

open Safety

theorem execWord_eq (w : Word) (s : State) : execWord w s = execWordWith (execOn Config.params) w s := by
  simp only [execWord, execWordWith, exec_eq_execOn]

/-- The completion of a command leaves the block idle, and every transaction waiting. -/
theorem execWord_bus {w : Word} {s t : State} (h : execWord w s = .next t) : SameBus s t ∧ t.pending = none := by
  rw [execWord_eq] at h
  obtain ⟨_, _, _, _, _, _, _, rfl⟩ := execWordWith_frame h
  exact ⟨⟨rfl, rfl, rfl, rfl⟩, rfl⟩

theorem step_of_released {s u : State} {i : Issued} (h : released s = some (i, u)) :
    step s = .next (receive Config.params u i) := by
  simp [step, stepWith, h]

theorem run_succ_of_step {n : Nat} {s t : State} (h : step s = .next t) :
    Sys2Proof.core.run (n + 1) s = Sys2Proof.core.run n t := by
  have hcore : Sys2Proof.core.step s = .next t := h
  simp only [Host.Core.run, hcore]

/-- Serving sample-RAM accesses makes none hold and starts no command. -/
theorem foldl_perform_ram (p : Params) (l : List Issued) (s : State) (hram : ∀ i ∈ l, reachesRam p i.txn = true) :
    (l.foldl (perform p) s).held = s.held ∧ (l.foldl (perform p) s).pending = s.pending := by
  induction l generalizing s with
  | nil => exact ⟨rfl, rfl⟩
  | cons i l ih =>
    obtain ⟨hi, hl⟩ := List.forall_mem_cons.1 hram
    obtain ⟨hheld, hpending⟩ := ih (perform p s i) hl
    exact ⟨hheld.trans (perform_bus p s i).held, hpending.trans (perform_ram_access p s i hi).2⟩

theorem heldServed_of_nil (p : Params) {s : State} (h : s.held = []) : heldServed p s = s := by
  rw [heldServed, h, List.foldl_nil, ← h]

/-- The oldest access may be served while the others still hold. -/
theorem heldServed_of_cons {p : Params} {s : State} {i : Issued} {rest : List Issued} (hs : s.held = i :: rest)
    (hi : reachesRam p i.txn = true) : heldServed p s = heldServed p { perform p s i with held := rest } := by
  unfold heldServed
  rw [hs, List.foldl_cons, (perform_ram_access p s i hi).1 []]

/-- With the block idle each step serves the oldest of the accesses that hold, until none is left. -/
theorem run_serves_held (l : List Issued) (s : State) (hl : s.held = l) (hr : s.rstN = true) (hp : s.pending = none)
    (hram : ∀ i ∈ l, reachesRam Config.params i.txn = true) :
    Sys2Proof.core.run l.length s = .next (heldServed Config.params s) := by
  induction l generalizing s with
  | nil =>
    rw [heldServed_of_nil _ hl]
    rfl
  | cons i rest ih =>
    obtain ⟨hi, hrest⟩ := List.forall_mem_cons.1 hram
    obtain ⟨hswap, hpending⟩ := perform_ram_access Config.params s i hi
    have hstep : step s = .next { perform Config.params s i with held := rest } := by
      rw [step_of_released (released_of_idle hl hr hp), receive_of_idle _ (s := { s with held := rest }) hp, hswap]
    rw [List.length_cons, run_succ_of_step hstep, heldServed_of_cons hl hi]
    exact ih _ rfl ((perform_bus Config.params s i).rstN.trans hr) (hpending.trans hp) hrest

/-- 20_memory.md R87: once the block is idle the next steps serve every access that holds, and nothing else. -/
theorem run_heldServed {s : State} (hr : s.rstN = true) (hp : s.pending = none)
    (hram : ∀ i ∈ s.held, reachesRam Config.params i.txn = true) :
    Sys2Proof.core.run s.held.length s = .next (heldServed Config.params s) ∧
      (heldServed Config.params s).held = [] ∧ (heldServed Config.params s).pending = none := by
  obtain ⟨hheld, hpending⟩ := foldl_perform_ram Config.params s.held { s with held := [] } hram
  exact ⟨run_serves_held s.held s rfl hr hp hram, hheld, hpending.trans hp⟩

end Sys2Proof.Machine

namespace Sys2Proof

open Machine Safety

/-- Settles O52: a completion leaves the block idle, and then what is released is the oldest access that holds. -/
theorem heldAccessActsAfterCompletion : Obligations.HeldAccessActsAfterCompletion := by
  have hwaits : ∀ s : State, (s.pending = none → s.held = []) ↔ (s.held = [] ∨ s.pending.isSome = true) := fun s => by
    cases s.pending <;> simp
  refine ⟨fun s => ?_, fun s u i hrel => ⟨step_of_released hrel, ?_⟩, fun s i => ⟨?_, receive_hold⟩,
    fun s t w es hr hw hs hrel hram hexec => ?_⟩
  · rw [released_eq_none, hwaits]
    cases s.rstN <;> simp
  · obtain ⟨-, hrel⟩ := released_some hrel
    rwa [hwaits] at hrel
  · rintro (hidle | hreg)
    · exact receive_of_idle _ hidle i
    · exact receive_of_register s hreg
  · have hstep : step s = .next t := by
      rw [step_of_event hrel hs, ← hexec]
      simp [runEventWith, engineStepWith, fetch, hw, execWord]
    obtain ⟨hbus, hidle⟩ := execWord_bus hexec
    rw [← hbus.held] at hram ⊢
    exact ⟨hstep, rfl, run_heldServed (hbus.rstN.trans hr) hidle hram⟩

end Sys2Proof
end

section
/-! PROOF. The opcode map and the words outside it (30_encoding.md R110 to R113): `decode` and `encode` agree, and what an illegal
word does. -/

namespace Sys2Proof

open Machine

/-! ### The words of the map -/

theorem decode_encode (i : Instr) : decode (encode i) = .ok i := by
  cases i <;> rfl

theorem decode_eq_ok_iff {w : Word} {i : Instr} : decode w = .ok i ↔ w = encode i := by
  refine ⟨eq_encode_of_decode, ?_⟩
  rintro rfl
  exact decode_encode i

theorem wordWellFormed_encode (i : Instr) : wordWellFormed (encode i) = true :=
  match i with
  | .nop => Laws.WordWellFormed.nop.2
  | .ncoBuild => Laws.WordWellFormed.ncoBuild.2
  | .ncoProduce => Laws.WordWellFormed.ncoProduce.2
  | .ncoRelease => Laws.WordWellFormed.ncoRelease.2
  | .rssiRun => Laws.WordWellFormed.rssiRun.2
  | .noiseSeed => Laws.WordWellFormed.noiseSeed.2
  | .noiseApply => Laws.WordWellFormed.noiseApply.2

theorem tableWord_toNat (w : Word) : tableWord 32 w.toNat = some w := by
  rw [tableWord, Nat.mod_eq_of_lt w.isLt, if_pos w.isLt, BitVec.ofNat_toNat, BitVec.setWidth_eq]

/-- The decoder reads a command's word as the opcode table numbers its bits. -/
theorem decodeTableWord_encode (i : Instr) : decodeTableWord 32 (encode i).toNat = some i := by
  simp [decodeTableWord, tableWord_toNat, decode_encode]

/-! ### The words outside it -/

theorem wordWellFormed_eq_false_iff {w : Word} :
    wordWellFormed w = false ↔
      w.extractLsb' 8 24 ≠ 0#24 ∨ w.extractLsb' 0 8 ∉ [0x00#8, 0x01#8, 0x02#8, 0x03#8, 0x10#8, 0x20#8, 0x21#8] := by
  rw [wordWellFormed, Bool.and_eq_false_iff, reservedZero, opcodeKnown, decide_eq_false_iff_not, ← Bool.not_eq_true,
    List.contains_iff_mem]

/-- A word that fails a check of its two fields is the word of no command. -/
theorem ne_encode_of_ill_formed {w : Word} (h : wordWellFormed w = false) (i : Instr) : w ≠ encode i := by
  rintro rfl
  simp [wordWellFormed_encode] at h

theorem exists_decode_error_iff {w : Word} : (∃ e, decode w = .error e) ↔ ∀ i, w ≠ encode i := by
  simp only [ne_eq, ← decode_eq_ok_iff]
  cases decode w <;> simp

/-- With no row for it a word is rejected, by its reserved field first (30_encoding.md R113). -/
theorem decode_of_ne_encode {w : Word} (h : ∀ i, w ≠ encode i) :
    decode w = .error (if reservedZero w then .unknownOpcode (w.extractLsb' 0 8) else .reservedNonzero) := by
  obtain ⟨e, he⟩ := exists_decode_error_iff.2 h
  unfold decode at he ⊢
  split at he
  · cases he
  · split <;> rfl

theorem decode_of_reserved {w : Word} (h : reservedZero w = false) : decode w = .error .reservedNonzero := by
  rw [decode_of_ne_encode (ne_encode_of_ill_formed (by rw [wordWellFormed, h, Bool.false_and]))]
  simp [h]

theorem decode_of_unknownOpcode {w : Word} (h : reservedZero w = true) (hop : opcodeKnown w = false) :
    decode w = .error (.unknownOpcode (w.extractLsb' 0 8)) := by
  rw [decode_of_ne_encode (ne_encode_of_ill_formed (by rw [wordWellFormed, hop, Bool.and_false]))]
  simp [h]

/-! ### What an illegal word does -/

/-- 40_control.md R131: a write to CMD while idle is acceptance, whatever the word. -/
theorem perform_cmd_write_of_idle (p : Params) {s : State} (host : Nat) (w : Word) (h : s.pending = none) :
    perform p s ⟨host, .write 32 0x010 w⟩ = answer (accept s w) ⟨host, .write 32 0x010 w⟩ .ok := by
  rw [perform_write, performWrite_idle_of_regAt p w h (by decide) (by decide) (show regAt 0x010 = some .cmd by rfl)]
  rfl

/-- 30_encoding.md R113: executing an illegal word is its completion with ILLEGAL_CMD, and nothing else. -/
theorem execWord_of_ne_encode {w : Word} (h : ∀ i, w ≠ encode i) (s : State) :
    execWord w s = .next (complete s .illegalCmd) := by
  obtain ⟨e, he⟩ := exists_decode_error_iff.2 h
  simp only [execWord, execWordWith, he]

/-! ### The statements -/

/-- Settles O1: the words of `encode` by computation, then both directions of decoding. -/
theorem opcodeMapIsExact : Obligations.OpcodeMapIsExact :=
  ⟨⟨rfl, rfl, rfl, rfl, rfl, rfl, rfl⟩, fun _ _ => decode_eq_ok_iff⟩

/-- Settles O3: acceptance looks at no bit of the word, and the engine completes what does not decode with ILLEGAL_CMD. -/
theorem illegalWordsOnlyReportIllegalCmd : Obligations.IllegalWordsOnlyReportIllegalCmd := by
  refine ⟨fun w i hfields => ?_, fun s host w hidle hillegal => ⟨?_, execWord_of_ne_encode hillegal⟩⟩
  · exact ne_encode_of_ill_formed (wordWellFormed_eq_false_iff.2 hfields) i
  · rw [perform_cmd_write_of_idle _ host w hidle]
    rfl

/-- Settles O2: four words of the map, one word for each way to be rejected, and a word of the opcode table. -/
theorem writtenOutWordsDecode : Obligations.WrittenOutWordsDecode :=
  ⟨decode_encode .nop, decode_encode .ncoProduce, decode_encode .rssiRun, decode_encode .noiseApply,
    decode_of_reserved (by decide), decode_of_unknownOpcode (by decide) (by decide), decodeTableWord_encode .ncoRelease⟩

end Sys2Proof
end

section
/-! PROOF. How every command ends (40_control.md R130 to R136, R140; 60_exceptions.md R302): always, with its whole output
region written where it succeeds, and with nothing committed where it fails. -/

namespace Sys2Proof.Machine

open Safety

/-! ### The end of a command -/

/-- A command answers a next state, by committing what it stages or by an error with nothing committed. -/
theorem exec_next {i : Instr} {s t : State} (h : exec i s = .next t) :
    (∃ u, attempt Config.params i s = .commit u ∧ t = complete u .ok) ∨
      ∃ c d, attempt Config.params i s = .raise c d ∧ t = complete { s with draws := d } c := by
  rw [exec_eq_execOn, execOn_eq_conclude] at h
  exact conclude_next h

/-- 40_control.md R134: every command ends, since none leaves the RAM. -/
theorem exec_total (i : Instr) (s : State) : ∃ t, exec i s = .next t := by
  rw [exec_eq_execOn, execOn_eq_conclude]
  cases ha : attempt Config.params i s with
  | commit u => exact ⟨_, rfl⟩
  | raise c d => exact ⟨_, rfl⟩
  | broken f => exact absurd ha (attempt_ne_broken _ i s f)

theorem execWord_of_decode {w : Word} {i : Instr} (h : decode w = .ok i) (s : State) : execWord w s = exec i s := by
  simp only [execWord, execWordWith, h]

theorem execWord_total (w : Word) (s : State) : ∃ t, execWord w s = .next t := by
  by_cases h : ∃ i, w = encode i
  · obtain ⟨i, rfl⟩ := h
    rw [execWord_of_decode (decode_encode i)]
    exact exec_total i s
  · exact ⟨_, execWord_of_ne_encode (fun i hi => h ⟨i, hi⟩) s⟩

/-- 40_control.md R135: a failing command raises an error code, and at most its reads have used free values up. -/
theorem attempt_raise {p : Params} {i : Instr} {s : State} {c : ErrCode} {d : Nat} (h : attempt p i s = .raise c d) :
    c ≠ .ok ∧ s.draws ≤ d := by
  cases i with
  | nop => cases h
  | ncoBuild =>
    obtain ⟨-, rfl, rfl⟩ := ncoBuild_raise h
    exact ⟨by decide, le_rfl⟩
  | ncoProduce =>
    obtain ⟨hc, rfl⟩ := ncoProduce_raise h
    exact ⟨hc, le_rfl⟩
  | ncoRelease => cases h
  | rssiRun =>
    obtain ⟨hc, rfl⟩ := rssiRun_raise h
    exact ⟨fun hok => rssiChecks_ne_ok p s (hok ▸ hc), le_rfl⟩
  | noiseSeed => cases h
  | noiseApply =>
    rcases noiseApply_raise h with ⟨hc, rfl⟩ | ⟨-, rfl, rfl⟩
    · exact ⟨fun hok => noiseChecks_ne_ok p s (hok ▸ hc), le_rfl⟩
    · exact ⟨by decide, drawSamples_draws_le ..⟩

/-! ### The output region -/

theorem destRegion_ncoProduce (s : State) :
    destRegion s (encode .ncoProduce) = (s.ncoDst.toNat, 8 * s.nco.chunk.toNat) := rfl

/-- For a decimation factor that passes the checks of 42_rssi.md R181. -/
theorem destRegion_rssiRun {s : State} (h : 1 ≤ s.rssiDecim.toNat) :
    destRegion s (encode .rssiRun) = (s.rssiDst.toNat, 4 * ceilDiv s.rssiLen.toNat s.rssiDecim.toNat) := by
  have hne : s.rssiDecim ≠ 0#32 := fun h0 => by simp [h0] at h
  simp [destRegion, encode, hne]

theorem destRegion_noiseApply (s : State) :
    destRegion s (encode .noiseApply) = (s.noiseDst.toNat, 8 * s.noiseLen.toNat) := rfl

/-- A store of words gives every byte it names a value. -/
theorem Ram.exists_read_writeWords (ws : List Word) (m : Ram) {a x : Nat} (hlo : a ≤ x) (hhi : x < a + 4 * ws.length) :
    ∃ b, Ram.read (Ram.writeWords m a ws) x = some b := by
  induction ws generalizing m a with
  | nil => exact absurd hhi hlo.not_gt
  | cons w ws ih =>
    simp only [List.length_cons] at hhi
    unfold Ram.writeWords
    rcases le_or_gt (a + 4) x with hrest | hword
    · exact ih _ hrest (by omega)
    · rw [Ram.read_writeWords_other _ _ _ _ (.inl hword), Ram.read_writeWord]
      obtain rfl | rfl | rfl | rfl : x = a ∨ x = a + 1 ∨ x = a + 2 ∨ x = a + 3 := by omega
      all_goals simp

/-- The RAM m' is m with words written over exactly the bytes of the region, which lies inside the RAM or is empty. -/
structure WritesRegion (p : Params) (region : Nat × Nat) (m m' : Ram) : Prop where
  fits : region.1 + region.2 ≤ p.sramBytes ∨ region.2 = 0
  words : ∃ ws, region.2 = 4 * ws.length ∧ m' = Ram.writeWords m region.1 ws

namespace WritesRegion

variable {p : Params} {region : Nat × Nat} {m m' : Ram}

theorem none (p : Params) (a : Nat) (m : Ram) : WritesRegion p (a, 0) m m := ⟨.inr rfl, [], rfl, rfl⟩

theorem sameOutside (h : WritesRegion p region m m') : sameOutside region m m' := by
  obtain ⟨-, ws, hlen, rfl⟩ := h
  intro x hx
  unfold inRegion at hx
  exact Ram.read_writeWords_other _ _ _ _ (by omega)

theorem exists_read (h : WritesRegion p region m m') {x : Nat} (hx : inRegion region x) : ∃ b, Ram.read m' x = some b := by
  obtain ⟨-, ws, hlen, rfl⟩ := h
  exact Ram.exists_read_writeWords ws m hx.1 (hlen ▸ hx.2)

theorem of_bufferOk {align a len : Nat} {ws : List Word} (h : bufferOk p align a len = true) (hlen : len = 4 * ws.length) :
    WritesRegion p (a, len) m (Ram.writeWords m a ws) :=
  ⟨.inl ((bufferOk_iff ..).1 h).2, ws, hlen, rfl⟩

end WritesRegion

/-- 40_control.md R136: what a command stages in the RAM is its output region, checked to lie inside (20_memory.md R81). -/
theorem attempt_commit_ram {p : Params} {i : Instr} {s u : State} (h : attempt p i s = .commit u) :
    WritesRegion p (destRegion s (encode i)) s.ram u.ram := by
  cases i with
  | nop => cases h; exact .none p 0 _
  | ncoBuild =>
    obtain ⟨-, rfl⟩ := ncoBuild_commit h
    exact .none p 0 _
  | ncoProduce =>
    obtain ⟨-, hdst, -, rfl⟩ := ncoProduce_commit h
    rw [destRegion_ncoProduce]
    exact .of_bufferOk hdst (by simp; omega)
  | ncoRelease => cases h; exact .none p 0 _
  | rssiRun =>
    obtain ⟨hchecks, rfl⟩ := rssiRun_commit h
    obtain ⟨-, hdecim, -, -, -, -, hdst, -⟩ := rssiChecks_none hchecks
    rw [destRegion_rssiRun hdecim]
    exact .of_bufferOk hdst (by simp)
  | noiseSeed => cases h; exact .none p 0 _
  | noiseApply =>
    obtain ⟨hchecks, -, rfl⟩ := noiseApply_commit h
    obtain ⟨-, -, -, -, hdst, -⟩ := noiseChecks_none hchecks
    rw [destRegion_noiseApply]
    exact .of_bufferOk hdst (by simp; omega)

/-! ### The engine's turn -/

/-- 40_control.md R134: the engine runs the command that its pending word selects. -/
theorem engineStep_of_decode {s : State} {w : Word} {i : Instr} (hp : s.pending = some w) (hd : decode w = .ok i) :
    engineStep s = exec i s := by
  simp only [engineStep, engineStepWith, fetch, hp, execWordWith, hd]

/-- With nothing to release and no event left, the engine has its turn (assumption log 2). -/
theorem step_of_no_event {s : State} (hrel : released s = none) (hs : s.schedule = []) : step s = engineStep s := by
  simp only [step, stepWith, hrel, hs, engineStep]

theorem withFetchWord_encode (s : State) (i : Instr) :
    s.withFetchWord 32 (encode i).toNat = placeCommand s (encode i) := by
  rw [State.withFetchWord, Nat.mod_eq_of_lt (encode i).isLt, BitVec.ofNat_toNat, BitVec.setWidth_eq]

/-- A placed command waits for nothing: what holds goes on holding while it is pending, and nothing is queued. -/
theorem released_placeCommand (s : State) (w : Word) : released (placeCommand s w) = none := by
  simp [released_eq_none, placeCommand]

end Sys2Proof.Machine

namespace Sys2Proof

open Machine Safety

/-- Settles O7: no command leaves the RAM, so every word is executed to its end, which touches only results and STATUS. -/
theorem everyCommandCompletes : Obligations.EveryCommandCompletes := by
  intro s w
  obtain ⟨t, ht⟩ := execWord_total w s
  refine ⟨t, ht, ?_⟩
  rw [execWord_eq] at ht
  obtain ⟨_, _, _, _, _, _, _, rfl⟩ := execWordWith_frame ht
  refine ⟨rfl, rfl, rfl, rfl, rfl, ?_, rfl, rfl, rfl, rfl, rfl⟩
  constructor <;> rfl

/-- Settles O9: a command that commits ends with OK, and one that raises changes only the free values its reads used. -/
theorem failedCommandCommitsNothing : Obligations.FailedCommandCommitsNothing := by
  intro i s t h herr
  rcases exec_next h with ⟨u, -, rfl⟩ | ⟨c, d, hraise, rfl⟩
  · exact absurd rfl herr
  · exact ⟨rfl, (attempt_raise hraise).2⟩

/-- Settles O10: a command that commits has written its region, and one that raises has failed and leaves the RAM. -/
theorem commandsWriteExactlyTheirOutput : Obligations.CommandsWriteExactlyTheirOutput := by
  intro i s t h
  rcases exec_next h with ⟨u, hcommit, rfl⟩ | ⟨c, d, hraise, rfl⟩
  · have hwrites := attempt_commit_ram hcommit
    exact ⟨hwrites.sameOutside, fun _ => hwrites.fits, fun _ _ => hwrites.exists_read⟩
  · have hfails := (attempt_raise hraise).1
    exact ⟨fun _ _ => rfl, fun hok => absurd hok hfails, fun hok => absurd hok hfails⟩

/-- Settles O4: either way the step is the engine's turn, and moving the schedule on leaves the pending word. -/
theorem stepRunsTheDecodedCommand : Obligations.StepRunsTheDecodedCommand := by
  intro s w i hp hd hrel
  refine ⟨fun hs => ?_, fun es hs => ?_⟩
  · rw [step_of_no_event hrel hs, engineStep_of_decode hp hd]
  · rw [step_of_event hrel hs]
    exact engineStep_of_decode (s := { s with schedule := es }) hp hd

/-- Settles O5: the placed word is pending, decodes to its command, and the engine's turn is the next event. -/
theorem placedCommandRunsNext : Obligations.PlacedCommandRunsNext := by
  intro s i
  rw [withFetchWord_encode]
  obtain ⟨-, hstep⟩ := stepRunsTheDecodedCommand (placeCommand s (encode i)) (encode i) i rfl (decode_encode i)
    (released_placeCommand s _)
  exact hstep s.schedule rfl

/-- Settles O11: NOP stages the state as it is, and what ends it writes STATUS. -/
theorem nopOnlyCompletes : Obligations.NopOnlyCompletes := by
  intro s
  rw [exec_eq_execOn, execOn_eq_conclude]
  exact conclude_commit s s

end Sys2Proof
end

section
/-! PROOF. Writes to the register window, accepted and dropped (40_control.md R131, R133; 10_state.md R34, R35). -/

namespace Sys2Proof.Machine

theorem perform_write_window (p : Params) (s : State) (host : Nat) {off : Nat} (v : Word) (ha : off % 4 = 0)
    (hlt : off < 0x1000) :
    perform p s ⟨host, .write 32 off v⟩ = answer (writeWindow p s off v) ⟨host, .write 32 off v⟩ .ok := by
  rw [perform_write, performWrite, show locate p 32 off = .window off by simp [locate, ha, hlt]]

/-- 10_state.md R31: CTRL and STATUS stand at 0x008 and 0x00C, and no other register is never dropped. -/
theorem neverDropped_regAt {off : Nat} {r : Reg} (hr : regAt off = some r) (h : neverDropped r = true) :
    off = 0x008 ∨ off = 0x00C := by
  rw [← regOffset_of_regAt hr]
  cases r with
  | ctrl => exact .inl rfl
  | status => exact .inr rfl
  | _ => cases h

/-- 40_control.md R133: every other write while busy only sets BUSY_VIOL, at a reserved offset too. -/
theorem writeWindow_dropped (p : Params) {s : State} {off : Nat} (v : Word) (hb : busy s = true) (hctrl : off ≠ 0x008)
    (hstatus : off ≠ 0x00C) : writeWindow p s off v = { s with busyViol := true } := by
  unfold writeWindow
  cases hr : regAt off with
  | none => exact if_pos hb
  | some r =>
    have hdropped : neverDropped r = false :=
      Bool.eq_false_iff.2 fun h => (neverDropped_regAt hr h).elim hctrl hstatus
    simp [hb, hdropped]

/-- 40_control.md R133: a write to CTRL or STATUS acts, busy or not. -/
theorem writeWindow_neverDropped (p : Params) (s : State) {off : Nat} {r : Reg} (v : Word) (hr : regAt off = some r)
    (h : neverDropped r = true) : writeWindow p s off v = writeReg p s r v := by
  simp [writeWindow, hr, h]

theorem writeReg_ctrl_reset (p : Params) (s : State) {v : Word} (h : v.getLsbD 1 = true) :
    writeReg p s .ctrl v = softReset p s := if_pos h

theorem writeReg_ctrl_irqEn (p : Params) (s : State) {v : Word} (h : v.getLsbD 1 = false) :
    writeReg p s .ctrl v = { s with irqEn := v.getLsbD 0 } := if_neg (Bool.eq_false_iff.1 h)

end Sys2Proof.Machine

namespace Sys2Proof

open Machine

/-- Settles O44: in an idle block the write is the acceptance of its word. -/
theorem commandWriteIsAccepted : Obligations.CommandWriteIsAccepted := by
  intro s host w hidle
  rw [perform_cmd_write_of_idle _ host w hidle]
  rfl

/-- Settles O45: the offset alone says whether a write can be dropped, and for CTRL bit 1 says what it does. -/
theorem busyWritesAreDropped : Obligations.BusyWritesAreDropped := by
  intro s host off v ha hlt
  rw [perform_write_window _ s host v ha hlt]
  refine ⟨fun hb hctrl hstatus => ?_, ?_, ?_, ?_⟩
  · rw [writeWindow_dropped _ v hb hctrl hstatus]
    rfl
  · rintro rfl
    rw [writeWindow_neverDropped _ s v (show regAt 0x00C = some .status by rfl) rfl]
    rfl
  · rintro rfl hbit
    rw [writeWindow_neverDropped _ s v (show regAt 0x008 = some .ctrl by rfl) rfl, writeReg_ctrl_irqEn _ s hbit]
    rfl
  · rintro rfl hbit
    rw [writeWindow_neverDropped _ s v (show regAt 0x008 = some .ctrl by rfl) rfl, writeReg_ctrl_reset _ s hbit]

end Sys2Proof
end

section
/-! PROOF. What MOD2PI reduces and by how much it rounds (41_nco.md R164). -/

namespace Sys2Proof

open Rounding Safety

namespace F64

/-- Whole multiples of 2^(k+1) below 2^(k+54) are values of patterns, and one of them lies within 2^k of n. -/
theorem exists_units_near {n k : Nat} (hn : n + 2 ^ k < 2 ^ (k + 54)) : ∃ c, |(units 52 c : Int) - n| ≤ 2 ^ k := by
  obtain ⟨p, hp⟩ : ∃ p : Nat, p = 2 ^ k := ⟨_, rfl⟩
  have hpos : 0 < p := hp ▸ pow_pos two_pos k
  have hrange : n + p < 2 ^ (52 + 1) * (2 * p) := by
    rwa [hp, ← pow_succ', ← pow_add, show 52 + 1 + (k + 1) = k + 54 by omega]
  obtain ⟨c, hc⟩ := exists_units_eq 52 (k + 1) ((Nat.div_lt_iff_lt_mul (show 0 < 2 * p by omega)).2 hrange)
  have hsplit := Nat.div_add_mod' (n + p) (2 * p)
  have hrest := Nat.mod_lt (n + p) (show 0 < 2 * p by omega)
  rw [pow_succ', ← hp] at hc
  rw [← hc] at hsplit
  have hnear : |(units 52 c : Int) - n| ≤ p := abs_le.2 ⟨by omega, by omega⟩
  exact ⟨c, by rw [hp] at hnear; exact_mod_cast hnear⟩

/-- RNE64 moves a whole number of units to the nearest pattern, so by at most 2^k where a pattern lies that near. -/
theorem abs_scaled_ofScaled_sub_le {n : Int} {k : Nat} (h0 : 0 ≤ n) (hn : n + 2 ^ k < 2 ^ (k + 54))
    (hfin : n.natAbs < unitsPerOne * overflowBound) : |scaled (ofScaled n) - n| ≤ 2 ^ k := by
  lift n to ℕ using h0
  obtain ⟨c, hc⟩ := exists_units_near (n := n) (k := k) (by exact_mod_cast hn)
  have hle := ((nearest_ofRatio (decide ((n : Int) < 0)) unitsPerOne_pos hfin).dist_le c).1
  have hunits : ratioUnits (n : Int).natAbs unitsPerOne = n :=
    mul_div_cancel_right₀ _ (by exact_mod_cast unitsPerOne_pos.ne')
  rw [hunits] at hle
  rw [scaled_of_sign_false (sign_ofScaled (Int.natCast_nonneg n)), scaledMag64_eq_units]
  calc |(units 52 (magBits (ofScaled n)) : Int) - n| ≤ |(units 52 c : Int) - n| := by exact_mod_cast hle
    _ ≤ 2 ^ k := hc

theorem scaled_twoPi : scaled twoPi = scaledMag twoPi := scaled_of_sign_false (by decide)

theorem remainder_eq (u : F64) : remainder u = scaled u - scaledMag twoPi * (scaled u / scaledMag twoPi) :=
  Int.emod_def _ _

/-- 41_nco.md R164: the remainder in units of 2^-1074 is that of the real numbers. -/
theorem value_sub_floor (u : F64) :
    (value u : ℝ) - value twoPi * ⌊(value u : ℝ) / value twoPi⌋ = (remainder u : ℝ) / unitsPerOne := by
  have hu : (unitsPerOne : ℝ) ≠ 0 := by exact_mod_cast unitsPerOne_pos.ne'
  rw [value_cast, value_cast, div_div_div_cancel_right₀ hu, scaled_twoPi, Int.cast_natCast, Int.floor_div_natCast,
    Int.floor_intCast, remainder_eq]
  push_cast
  ring

theorem isRounded_remainder (u : F64) :
    IsRounded ((value u : ℝ) - value twoPi * ⌊(value u : ℝ) / value twoPi⌋) (ofScaled (remainder u)) := by
  rw [value_sub_floor]
  exact isRounded_ofScaled _

/-- TWO_PI is below 8, so what is below it is rounded by at most half a unit in its last place, 2^-51. -/
theorem abs_scaled_remainder_sub_le (u : F64) : |scaled (ofScaled (remainder u)) - remainder u| ≤ 2 ^ 1023 := by
  have h0 := remainder_nonneg u
  have hlt := remainder_lt u
  have hrange : (scaledMag twoPi : Int) + 2 ^ 1023 ≤ 2 ^ (1023 + 54) := by decide +kernel
  have hfin : scaledMag twoPi < unitsPerOne * overflowBound := by decide +kernel
  exact abs_scaled_ofScaled_sub_le h0 (lt_of_lt_of_le (add_lt_add_left hlt _) hrange) (by omega)

/-- What MOD2PI takes off is a whole number of TWO_PI, one more where the remainder rounds up to TWO_PI itself. -/
theorem exists_turns_mod2Pi (u : F64) :
    ∃ k : Int, |scaled u - k * scaled twoPi - scaled (mod2Pi u)| ≤ 2 ^ 1023 := by
  have hround := abs_scaled_remainder_sub_le u
  rw [abs_sub_comm] at hround
  have hrem := remainder_eq u
  rw [mod2Pi_eq]
  split
  · rename_i hx
    refine ⟨scaled u / scaledMag twoPi + 1, ?_⟩
    rw [hx, hrem, scaled_twoPi] at hround
    rw [scaled_twoPi, show scaled posZero = 0 by decide]
    convert hround using 2
    ring
  · refine ⟨scaled u / scaledMag twoPi, ?_⟩
    rwa [scaled_twoPi, mul_comm, ← hrem]

/-- The reduced phase as the invariant of the oscillator asks for it (10_state.md R44). -/
theorem toNat_mod2Pi_lt (u : F64) : (mod2Pi u).toNat < twoPi.toNat := by
  rw [toNat_of_sign_false (sign_mod2Pi u)]
  exact magBits_mod2Pi_lt u

end F64

/-- Settles O18: whole units make the real remainder exact, and RNE64 then moves it by at most 2^-51. -/
theorem mod2PiIsTheExactRemainderRoundedOnce : Obligations.Mod2PiIsTheExactRemainderRoundedOnce := fun u _ =>
  ⟨⟨F64.ofScaled (F64.remainder u), F64.sign_ofScaled (F64.remainder_nonneg u), F64.isRounded_remainder u, F64.mod2Pi_eq u⟩,
    F64.exists_turns_mod2Pi u⟩

end Sys2Proof
end

section
/-! PROOF. Words stored one after another (20_memory.md R84, R85): where each word and each sample of a store lies. -/

namespace Sys2Proof.Machine

/-- Bytes that read the same hold the same word. -/
theorem WordAt.congr {m m' : Ram} {a : Nat} {w : Word} (h : WordAt m a w)
    (hread : ∀ x, a ≤ x → x < a + 4 → Ram.read m' x = Ram.read m x) : WordAt m' a w where
  byte0 := (hread a (by omega) (by omega)).trans h.byte0
  byte1 := (hread (a + 1) (by omega) (by omega)).trans h.byte1
  byte2 := (hread (a + 2) (by omega) (by omega)).trans h.byte2
  byte3 := (hread (a + 3) (by omega) (by omega)).trans h.byte3

/-- The word at index j of a store lies 4j bytes on. -/
theorem WordAt.writeWords {ws : List Word} {j : Nat} {w : Word} (h : ws[j]? = some w) (m : Ram) (a : Nat) :
    WordAt (Ram.writeWords m a ws) (a + 4 * j) w := by
  induction ws generalizing m a j with
  | nil => simp at h
  | cons v ws ih =>
    unfold Ram.writeWords
    cases j with
    | zero =>
      obtain rfl : v = w := by simpa using h
      exact (WordAt.writeWord m a v).congr fun x _ hhi => Ram.read_writeWords_other _ _ _ _ (.inl hhi)
    | succ j =>
      have hrest := ih (by simpa using h) (Ram.writeWord m a v) (a + 4)
      rwa [show a + 4 + 4 * j = a + 4 * (j + 1) by omega] at hrest

/-- 20_memory.md R85: sample k is the words 2k and 2k + 1, real part first. -/
theorem sampleWords_getElem? {xs : List (F32 × F32)} {k : Nat} {x : F32 × F32} (h : xs[k]? = some x) :
    (sampleWords xs)[2 * k]? = some x.1 ∧ (sampleWords xs)[2 * k + 1]? = some x.2 := by
  induction xs generalizing k with
  | nil => simp at h
  | cons y xs ih =>
    cases k with
    | zero =>
      obtain rfl : y = x := by simpa using h
      exact ⟨rfl, rfl⟩
    | succ k => exact ih (by simpa using h)

/-- 20_memory.md R85: the sample at index k of a store lies 8k bytes on, its imaginary part after its real part. -/
theorem WordAt.writeSamples {xs : List (F32 × F32)} {k : Nat} {x : F32 × F32} (h : xs[k]? = some x) (m : Ram) (a : Nat) :
    WordAt (Ram.writeWords m a (sampleWords xs)) (a + 8 * k) x.1 ∧
      WordAt (Ram.writeWords m a (sampleWords xs)) (a + 8 * k + 4) x.2 := by
  obtain ⟨hre, him⟩ := sampleWords_getElem? h
  have hre' := WordAt.writeWords hre m a
  have him' := WordAt.writeWords him m a
  rw [show a + 4 * (2 * k) = a + 8 * k by omega] at hre'
  rw [show a + 4 * (2 * k + 1) = a + 8 * k + 4 by omega] at him'
  exact ⟨hre', him'⟩

end Sys2Proof.Machine
end

section
/-! PROOF. The NCO commands (41_nco.md R150 to R170): what each answers, check by check, and the phase of a chunk's first sample. -/

namespace Sys2Proof.F64

theorem isFinite_of_isZero {x : F64} (h : isZero x = true) : isFinite x = true :=
  isFinite_of_not_isNaN_not_isInf (isNaN_of_isZero h) (isInf_of_isZero h)

/-- Adding a zero to a finite value whose sign bit is 0 gives that value back, whatever the sign of the zero. -/
theorem add_of_isZero_right {x y : F64} (hx : isFinite x = true) (hs : sign x = false) (hy : isZero y = true) :
    add x y = x := by
  rw [add_of_isFinite hx (isFinite_of_isZero hy), (scaled_eq_zero_iff y).2 hy, add_zero, hs, Bool.false_and]
  split
  · rename_i h0
    have hmag : magBits x = 0 := isZero_iff.1 ((scaled_eq_zero_iff x).1 h0)
    rw [← withSign_sign_magBits x, hs, hmag]
  · have hround := ofRatio_scaledMag hx
    have hn : decide (scaled x < 0) = sign x := by simp [scaled_of_sign_false hs, hs]
    rw [ofScaled, natAbs_scaled, hn, hround]

/-- Zero times a finite value is a zero. -/
theorem isZero_zero_mul {x y : F64} (hx : isZero x = true) (hy : isFinite y = true) : isZero (mul x y) = true := by
  rw [isZero_iff, mul_of_isFinite (isFinite_of_isZero hx) hy, magBits_ofRatio, (scaledMag_eq_zero_iff x).2 hx, Nat.zero_mul]
  rfl

end Sys2Proof.F64

namespace Sys2Proof.Machine

open Safety

/-! ### Answering what a command stages -/

theorem exec_of_commit {i : Instr} {s u : State} (h : attempt Config.params i s = .commit u) :
    exec i s = .next (complete u .ok) := by
  rw [exec_eq_execOn, execOn_eq_conclude, h, conclude_commit]

/-- A command that fails before it has read anything changes nothing but STATUS. -/
theorem exec_of_raise {i : Instr} {s : State} {c : ErrCode} (h : attempt Config.params i s = .raise c s.draws) :
    exec i s = .next (complete s c) := by
  rw [exec_eq_execOn, execOn_eq_conclude, h, conclude_raise]

/-! ### NCO_BUILD -/

/-- 41_nco.md R151: the five checks. -/
theorem buildChecks_iff (p : Params) (s : State) :
    buildChecks p s = true ↔
      F64.isFinite s.ncoAmp = true ∧ F64.isFinite s.ncoFreq = true ∧
        (F64.isFinite s.ncoRate = true ∧ F64.lt F64.posZero s.ncoRate = true) ∧
        (1 ≤ s.ncoChunk.toNat ∧ s.ncoChunk.toNat ≤ p.sramBytes / 8) ∧
        F64.isFinite (phaseIncrement s.ncoFreq s.ncoRate) = true := by
  simp [buildChecks, positiveFinite, and_assoc]

theorem ncoBuild_of_checks {p : Params} {s : State} (h : buildChecks p s = true) :
    ncoBuild p s = .commit { s with nco := stagedOscillator s } := if_pos h

theorem ncoBuild_of_failed_check {p : Params} {s : State} (h : ¬ buildChecks p s = true) :
    ncoBuild p s = .raise .badParam s.draws := if_neg h

/-! ### NCO_PRODUCE -/

section
variable {p : Params} {s : State}

theorem ncoProduce_of_not_valid (hv : s.nco.valid = false) : ncoProduce p s = .raise .notBuilt s.draws := by
  simp [ncoProduce, hv]

theorem ncoProduce_of_bad_buffer (hv : s.nco.valid = true)
    (hb : ¬ bufferOk p 8 s.ncoDst.toNat (8 * s.nco.chunk.toNat) = true) :
    ncoProduce p s = .raise .badRange s.draws := by
  simp [ncoProduce, hv, hb]

theorem ncoProduce_of_nonfinite_phase (hv : s.nco.valid = true)
    (hb : bufferOk p 8 s.ncoDst.toNat (8 * s.nco.chunk.toNat) = true) (hf : ¬ phasesFinite s.nco = true) :
    ncoProduce p s = .raise .badParam s.draws := by
  simp [ncoProduce, hv, hb, hf]

theorem ncoProduce_of_checks (hv : s.nco.valid = true)
    (hb : bufferOk p 8 s.ncoDst.toNat (8 * s.nco.chunk.toNat) = true) (hf : phasesFinite s.nco = true) :
    ncoProduce p s = .commit { s with
      ram := Ram.writeWords s.ram s.ncoDst.toNat (sampleWords (chunkSamples p.num s.nco))
      nco := advance s.nco } := by
  simp [ncoProduce, hv, hb, hf, storeWords_of_le s.ram (sampleWords_fit (chunkSamples_length p.num s.nco) hb)]

end

theorem chunkSamples_getElem? (num : Numerics) {o : Nco} {k : Nat} (h : k < o.chunk.toNat) :
    (chunkSamples num o)[k]? = some (toneSample num o.amp (phaseAt o k)) := by
  simp [chunkSamples, h]

/-! ### The phase of sample 0 -/

/-- 41_nco.md R161: p_0 is the accumulator, since the accumulator is never -0.0 (10_state.md R44). -/
theorem phaseAt_zero {o : Nco} (hphase : o.phase.toNat < F64.twoPi.toNat) (hinc : F64.isFinite o.inc = true) :
    phaseAt o 0 = o.phase := by
  have hlt : o.phase.toNat < 0x7FF0000000000000 := hphase.trans (by decide)
  have hsign : F64.sign o.phase = false := by
    rw [F64.sign, BitVec.msb_eq_decide, decide_eq_false_iff_not]
    omega
  have hfin : F64.isFinite o.phase = true := F64.isFinite_iff.2 (F64.toNat_of_sign_false hsign ▸ hlt)
  exact F64.add_of_isZero_right hfin hsign (F64.isZero_zero_mul (by decide) hinc)

end Sys2Proof.Machine

namespace Sys2Proof

open Machine Safety

/-- Settles O14: the three checks let the store through, and sample k is words 2k and 2k + 1 of it. -/
theorem ncoProduceWritesOneChunk : Obligations.NcoProduceWritesOneChunk := by
  rintro s n phase rfl hphase hv halign hfit hfin
  obtain rfl : phase = phaseAt s.nco := funext hphase
  have hbuffer : bufferOk Config.params 8 s.ncoDst.toNat (8 * s.nco.chunk.toNat) = true := (bufferOk_iff ..).2 ⟨halign, hfit⟩
  have hcommit : attempt Config.params .ncoProduce s = _ := ncoProduce_of_checks hv hbuffer ((phasesFinite_iff _).2 hfin)
  refine ⟨_, exec_of_commit hcommit, fun k hk => ?_, (attempt_commit_ram hcommit).sameOutside⟩
  rw [holdsWord_iff, holdsWord_iff]
  exact WordAt.writeSamples (chunkSamples_getElem? Config.num hk) s.ram s.ncoDst.toNat

/-- Settles O19: an advanced oscillator keeps its increment, and its phase is again below TWO_PI. -/
theorem nextChunkStartsAtReducedEndPhase : Obligations.NextChunkStartsAtReducedEndPhase := by
  intro p o ho
  have hnext : (advance o).phase.toNat < F64.twoPi.toNat := F64.toNat_mod2Pi_lt (phaseAt o o.chunk.toNat)
  exact ⟨phaseAt_zero ho.phase ho.inc, phaseAt_zero (o := advance o) hnext ho.inc⟩

/-- Settles O12: the hypotheses are the five checks, and what is staged is the staged oscillator. -/
theorem ncoBuildInstallsStagedOscillator : Obligations.NcoBuildInstallsStagedOscillator := by
  rintro s _ rfl hamp hfreq hrate hpos hlow hhigh hinc
  have hchecks : buildChecks Config.params s = true :=
    (buildChecks_iff ..).2 ⟨hamp, hfreq, ⟨hrate, hpos⟩, ⟨hlow, hhigh⟩, hinc⟩
  exact exec_of_commit (i := .ncoBuild) (ncoBuild_of_checks hchecks)

/-- Settles O13: whichever check fails, the checks do not all pass, and NCO_BUILD raises BAD_PARAM. -/
theorem ncoBuildRejectsBadParameters : Obligations.NcoBuildRejectsBadParameters := by
  intro s hbad
  have hchecks : ¬ buildChecks Config.params s = true := by
    rw [buildChecks_iff]
    rintro ⟨hamp, hfreq, hrate, hchunk, hinc⟩
    rcases hbad with h | h | h | h | h
    · exact Bool.eq_false_iff.1 h hamp
    · exact Bool.eq_false_iff.1 h hfreq
    · exact h hrate
    · exact h hchunk
    · exact Bool.eq_false_iff.1 h hinc
  exact exec_of_raise (i := .ncoBuild) (ncoBuild_of_failed_check hchecks)

/-- Settles O15: each case is the first check that fails. -/
theorem ncoProduceReportsFirstFailure : Obligations.NcoProduceReportsFirstFailure := by
  rintro s _ rfl
  refine ⟨fun hv => ?_, fun hv hbad => ?_, fun hv halign hfit ⟨k, hk, hinf⟩ => ?_⟩
  · exact exec_of_raise (i := .ncoProduce) (ncoProduce_of_not_valid hv)
  · refine exec_of_raise (i := .ncoProduce) (ncoProduce_of_bad_buffer hv ?_)
    rw [bufferOk_iff, params_sramBytes]
    omega
  · refine exec_of_raise (i := .ncoProduce) (ncoProduce_of_nonfinite_phase hv ((bufferOk_iff ..).2 ⟨halign, hfit⟩) ?_)
    rw [phasesFinite_iff]
    exact fun hfin => Bool.eq_false_iff.1 hinf (hfin k hk)

/-- Settles O16: NCO_RELEASE has no check, and stages an oscillator that is all 0. -/
theorem ncoReleaseZeroesOscillator : Obligations.NcoReleaseZeroesOscillator := fun s =>
  exec_of_commit (i := .ncoRelease) (s := s) rfl

end Sys2Proof
end

section
/-! PROOF. The RSSI estimator (42_rssi.md R180 to R189): the power and the dBm value of one sample, the decimation filter, and what
RSSI_RUN answers, check by check. -/

namespace Sys2Proof

open Rounding

namespace F64

/-! ### Which results are zeros -/

/-- RNE64 of at least the least positive binary64 value is no zero. -/
theorem isZero_ofRatio_of_le (neg : Bool) {num den : Nat} (hd : 0 < den) (h : den ≤ num * unitsPerOne) :
    isZero (ofRatio neg num den) = false := by
  obtain ⟨b, hb, hmag⟩ := exists_nearest_ofRatio neg num hd
  have hunits : (units 52 1 : ℚ) ≤ ratioUnits num den := by
    rw [ratioUnits, show units 52 1 = 1 by decide, Nat.cast_one, one_le_div (by exact_mod_cast hd)]
    exact_mod_cast h
  have hpos : 1 ≤ b := hb.le_of_units_le hunits
  exact decide_eq_false (by rw [hmag]; omega)

/-- A whole number of units other than none is rounded to no zero. -/
theorem isZero_ofScaled {n : Int} (h : n ≠ 0) : isZero (ofScaled n) = false :=
  isZero_ofRatio_of_le _ unitsPerOne_pos (Nat.le_mul_of_pos_left _ (Int.natAbs_pos.2 h))

theorem isZero_of_isNaN {x : F64} (h : isNaN x = true) : isZero x = false := by
  by_contra hz
  rw [isNaN_of_isZero (by simpa using hz)] at h
  cases h

/-- Values that are not below zero cannot cancel: their sum is a zero only where both are. -/
theorem isZero_add_iff {x y : F64} (hx : isNaN x = true ∨ sign x = false) (hy : isNaN y = true ∨ sign y = false) :
    isZero (add x y) = true ↔ isZero x = true ∧ isZero y = true := by
  by_cases hnan : isNaN x = true ∨ isNaN y = true
  · rw [add_of_isNaN hnan]
    rcases hnan with h | h <;> simp [isZero_of_isNaN h, show isZero nan = false by decide]
  obtain ⟨nx, ny⟩ : isNaN x = false ∧ isNaN y = false := by simpa using hnan
  have sx := hx.resolve_left (by simp [nx])
  have sy := hy.resolve_left (by simp [ny])
  cases ix : isInf x <;> cases iy : isInf y
  · have fx := isFinite_of_not_isNaN_not_isInf nx ix
    have fy := isFinite_of_not_isNaN_not_isInf ny iy
    rw [add_of_isFinite fx fy, ← scaled_eq_zero_iff x, ← scaled_eq_zero_iff y, scaled_of_sign_false sx,
      scaled_of_sign_false sy]
    split
    · simp only [show isZero (withSign (sign x && sign y) 0) = true by rw [sx, sy]; decide, true_iff]
      omega
    · rw [isZero_ofScaled ‹_›]
      simp only [Bool.false_eq_true, false_iff]
      omega
  · rw [add_of_isInf_right nx ix iy]
    simp [isZero_of_isInf iy]
  · rw [add_of_isInf_left ix ny iy]
    simp [isZero_of_isInf ix]
  · rw [add_of_isInf_both ix iy, sx, sy]
    simp [isZero_of_isInf ix]

/-- A square is a NaN or has its sign bit clear. -/
theorem isNaN_or_sign_mul_self (x : F64) : isNaN (mul x x) = true ∨ sign (mul x x) = false := by
  cases h : isNaN (mul x x)
  · exact .inr (by rw [sign_mul h, bne_self_eq_false])
  · exact .inl rfl

end F64

namespace F32

/-! ### The square of a part of a sample -/

theorem widen_of_isNaN {y : F32} (h : isNaN y = true) : widen y = F64.nan := if_pos h

theorem isInf_widen {y : F32} (hn : isNaN y = false) (hi : isInf y = true) : F64.isInf (widen y) = true := by
  rw [widen, hn, hi]
  exact F64.isInf_iff.2 (F64.magBits_withSign _ (by decide))

theorem isFinite_widen {y : F32} (hn : isNaN y = false) (hi : isInf y = false) : F64.isFinite (widen y) = true := by
  obtain ⟨b, hb, -, hw⟩ := widen_finite hn hi
  rw [hw, F64.isFinite_iff, F64.magBits_withSign _ (by omega)]
  exact hb

theorem scaledMag_widen {y : F32} (hn : isNaN y = false) (hi : isInf y = false) :
    F64.scaledMag (widen y) = scaledMag y * unit64 := by
  obtain ⟨b, hb, hval, hw⟩ := widen_finite hn hi
  rw [hw, scaledMag64_eq_units, F64.magBits_withSign _ (by omega), hval]

theorem scaledMag_eq_zero_iff (y : F32) : scaledMag y = 0 ↔ magBits y = 0 := by
  rw [scaledMag32_eq_units, ← (units_strictMono 23).injective.eq_iff (a := magBits y) (b := 0), units_zero]

/-- The square of a binary32 value does not underflow in binary64: the least positive one is 2^-298 (decision D21). -/
theorem isZero_mul_self_widen (y : F32) :
    F64.isZero (F64.mul (widen y) (widen y)) = true ↔ magBits y = 0 := by
  cases hn : isNaN y
  · cases hi : isInf y
    · have hfin := isFinite_widen hn hi
      rw [F64.mul_of_isFinite hfin hfin, scaledMag_widen hn hi, ← scaledMag_eq_zero_iff]
      rcases Nat.eq_zero_or_pos (scaledMag y) with h0 | hpos
      · simp only [h0, Nat.zero_mul, iff_true]
        rw [F64.isZero_iff, F64.magBits_ofRatio]
        rfl
      · rw [F64.isZero_ofRatio_of_le _ (Nat.mul_pos F64.unitsPerOne_pos F64.unitsPerOne_pos)]
        · simp [hpos.ne']
        · have hunit : F64.unitsPerOne ≤ unit64 * unit64 := by decide +kernel
          refine Nat.mul_le_mul_right _ (hunit.trans ?_)
          exact Nat.mul_le_mul (Nat.le_mul_of_pos_left _ hpos) (Nat.le_mul_of_pos_left _ hpos)
    · have hinf := isInf_widen hn hi
      have hn64 := F64.isNaN_of_isInf hinf
      rw [F64.mul_of_isInf hn64 hn64 (.inl hinf), isInf_iff.1 hi]
      simp [F64.isZero_of_isInf hinf, show F64.isZero F64.posInf = false by decide]
  · have hmag : 0x7F800000 < magBits y := by simpa [isNaN] using hn
    rw [widen_of_isNaN hn, F64.mul_of_isNaN (.inl F64.isNaN_nan)]
    simp only [show F64.isZero F64.nan = false by decide, Bool.false_eq_true, false_iff]
    omega

end F32

namespace Machine

open Safety

/-! ### The power of one sample -/

/-- 42_rssi.md R182: the power of a sample is a zero only where both its parts are. -/
theorem isZero_samplePower (re im : F32) :
    F64.isZero (samplePower (re, im)) = true ↔ F32.magBits re = 0 ∧ F32.magBits im = 0 := by
  rw [samplePower, F64.isZero_add_iff (F64.isNaN_or_sign_mul_self _) (F64.isNaN_or_sign_mul_self _),
    F32.isZero_mul_self_widen, F32.isZero_mul_self_widen]

/-! ### The decimation filter -/

/-- The product that the tap h at place t adds to the sum, if its input lies inside the sequence (42_rssi.md R187). -/
def tapTerm (xs : List F64) (centre half t : Nat) (h : F64) : Option F64 :=
  if half ≤ centre + t then (xs[centre + t - half]?).map fun x => F64.mul h x else none

/-- One step of the accumulation adds the product of the first tap, if it has one. -/
theorem firAccumulate_cons (xs : List F64) (centre half : Nat) (h : F64) (hs : List F64) (t : Nat) (acc : F64) :
    firAccumulate xs centre half (h :: hs) t acc =
      firAccumulate xs centre half hs (t + 1) ((tapTerm xs centre half t h).toList.foldl F64.add acc) := by
  rw [firAccumulate, tapTerm]
  rcases Nat.lt_or_ge (centre + t) half with hlt | hge
  · simp [hlt, hlt.not_ge]
  · cases hx : xs[centre + t - half]? <;> simp [hge, hge.not_gt]

/-- The accumulation over the taps from place t on is the left fold over their products in ascending order. -/
theorem firAccumulate_eq_foldl (xs : List F64) (centre half : Nat) (hs : List F64) (t : Nat) (acc : F64) :
    firAccumulate xs centre half hs t acc =
      ((List.range hs.length).filterMap fun k => tapTerm xs centre half (t + k) (hs.getD k 0#64)).foldl F64.add acc := by
  induction hs generalizing t acc with
  | nil => rfl
  | cons h hs ih =>
    rw [firAccumulate_cons, ih, List.length_cons, List.range_succ_eq_map, List.filterMap_cons, List.filterMap_map]
    simp only [Function.comp_def, List.getD_cons_succ, List.getD_cons_zero, Nat.add_zero, Nat.add_succ, Nat.succ_add]
    cases tapTerm xs centre half t h <;> rfl

/-! ### The checks -/

/-- 42_rssi.md R181: the checks on the default parameters, in their order. -/
theorem rssiChecks_params (s : State) {len m n : Nat} (hlen : len = s.rssiLen.toNat) (hm : m = s.rssiDecim.toNat)
    (hn : n = (len + m - 1) / m) :
    rssiChecks Config.params s =
      if len = 0 then some .badParam
      else if m = 0 ∨ 16 < m then some .badParam
      else if F64.isFinite s.rssiGain = false then some .badParam
      else if F64.isFinite s.rssiMerr = false then some .badParam
      else if s.rssiSrc.toNat % 8 ≠ 0 ∨ 65536 < s.rssiSrc.toNat + 8 * len then some .badRange
      else if s.rssiDst.toNat % 4 ≠ 0 ∨ 65536 < s.rssiDst.toNat + 4 * n then some .badRange
      else if s.rssiDst.toNat < s.rssiSrc.toNat + 8 * len ∧ s.rssiSrc.toNat < s.rssiDst.toNat + 4 * n then some .overlap
      else none := by
  subst hn hlen hm
  -- `ceilDiv` and the parameters come last: a `decide` whose proposition has changed under it is no longer recognised
  simp only [rssiChecks, bufferOk, disjoint, Nat.lt_one_iff, Bool.or_eq_true, Bool.not_eq_true', Bool.or_eq_false_iff,
    Bool.and_eq_false_iff, decide_eq_true_eq, decide_eq_false_iff_not, not_le, ne_eq]
  simp only [ceilDiv, params_rssiMaxDecim, params_sramBytes]
  rfl

section
variable {p : Params} {s : State}

theorem rssiRun_of_failed_check {c : ErrCode} (h : rssiChecks p s = some c) : rssiRun p s = .raise c s.draws := by
  rw [rssiRun, h]

theorem rssiRun_of_checks (h : rssiChecks p s = none) :
    rssiRun p s = .commit { s with
      ram := Ram.writeWords s.ram s.rssiDst.toNat
        (rssiWords p s.rssiDecim.toNat s.rssiGain s.rssiMerr
          (drawSamples s.ram s.draws s.rssiSrc.toNat s.rssiLen.toNat).1)
      rssiOutlen := BitVec.ofNat 32 (ceilDiv s.rssiLen.toNat s.rssiDecim.toNat)
      draws := (drawSamples s.ram s.draws s.rssiSrc.toNat s.rssiLen.toNat).2 } := by
  cases hrun : rssiRun p s with
  | commit u =>
    obtain ⟨-, rfl⟩ := rssiRun_commit hrun
    rfl
  | raise c d =>
    obtain ⟨hc, -⟩ := rssiRun_raise hrun
    rw [h] at hc
    cases hc
  | broken f => exact absurd hrun (rssiRun_ne_broken p s f)

end

/-! ### What is read and what is written -/

/-- 20_memory.md R85: sample k is the word 8k bytes on and, as its imaginary part, the word after it, where both are written. -/
theorem drawSamples_getElem? {m : Ram} {d a n k : Nat} {re im : F32} (hk : k < n) (hre : holdsWord m (a + 8 * k) re)
    (him : holdsWord m (a + 8 * k + 4) im) : (drawSamples m d a n).1[k]? = some (re, im) := by
  induction n generalizing d a k with
  | zero => omega
  | succ n ih =>
    cases k with
    | zero => simp [drawSamples, drawSample, show drawWord m d a = _ from hre d, show drawWord m d (a + 4) = _ from him d]
    | succ k =>
      rw [show a + 8 * (k + 1) = a + 8 + 8 * k by omega] at hre him
      simpa [drawSamples] using ih (by omega) hre him

/-- 42_rssi.md R185, R187: output k is input k for M = 1, and the filter centred on input kM otherwise. -/
theorem decimate_getElem? (p : Params) {m k : Nat} {xs : List F64} (hk : k < ceilDiv xs.length m) :
    (decimate p m xs)[k]? = some (if m = 1 then xs.getD k 0#64 else firAt (p.rssiCoef m) m xs k) := by
  unfold decimate
  split
  · subst m
    have hlt : k < xs.length := by simpa [ceilDiv] using hk
    simp [List.getElem?_eq_getElem hlt]
  · simp [hk]

/-- 42_rssi.md R189: word k is RNE32 of output k. -/
theorem rssiWords_getElem? (p : Params) (g e : F64) {m k : Nat} {samples : List (F32 × F32)}
    (hk : k < ceilDiv samples.length m) :
    (rssiWords p m g e samples)[k]? = some (F64.toF32 (if m = 1 then (samples.map (sampleDbm p g e)).getD k 0#64
      else firAt (p.rssiCoef m) m (samples.map (sampleDbm p g e)) k)) := by
  rw [rssiWords, List.getElem?_map, decimate_getElem? p (by rwa [List.length_map])]
  rfl

/-- 42_rssi.md R188: n = ceil(L/M) is the number of multiples of M below L. -/
theorem ceilDiv_bounds {len m n : Nat} (hn : n = (len + m - 1) / m) (hlen : 1 ≤ len) (hm : 1 ≤ m) :
    m * (n - 1) < len ∧ len ≤ m * n := by
  have hsplit := Nat.div_add_mod (len + m - 1) m
  have hrest := Nat.mod_lt (len + m - 1) hm
  rw [← hn] at hsplit
  obtain ⟨q, rfl⟩ : ∃ q, n = q + 1 := Nat.exists_eq_succ_of_ne_zero fun h0 => by rw [h0] at hsplit; omega
  rw [Nat.add_sub_cancel]
  rw [Nat.mul_succ] at *
  omega

end Machine

open Machine Safety

/-- Settles O30: the formula is `sampleDbm` written out, and squares of binary32 values neither underflow nor cancel. -/
theorem sampleDbmFollowsTheFormula : Obligations.SampleDbmFollowsTheFormula := by
  refine ⟨?_, isZero_samplePower⟩
  rintro g e re im _ rfl
  rfl

/-- Settles O31: the accumulation from the first tap on is the fold. -/
theorem filterSumsTapsInAscendingOrder : Obligations.FilterSumsTapsInAscendingOrder := by
  intro taps xs m i
  rw [firAt, firAccumulate_eq_foldl]
  simp only [Nat.zero_add]
  rfl

/-- Settles O33: the hypothesis is the chain of checks with the code it answers. -/
theorem rssiRunReportsFirstFailure : Obligations.RssiRunReportsFirstFailure := by
  intro s len m n code hlen hm hn hfirst
  refine exec_of_raise (i := .rssiRun) (rssiRun_of_failed_check ?_)
  rw [rssiChecks_params s hlen hm hn]
  split_ifs at hfirst ⊢ <;> rw [hfirst]

/-- Settles O32: the hypotheses are the checks, and word k of the store is output k of the decimation. -/
theorem rssiRunWritesDecimatedTrace : Obligations.RssiRunWritesDecimatedTrace := by
  rintro s len m n xs hlen hm hn hxs hlen1 hm1 hm16 hgain hmerr hsrc hsrcFit hdst hdstFit hdisjoint
  have hchecks : rssiChecks Config.params s = none := by
    rw [rssiChecks_params s hlen hm hn, if_neg (by omega), if_neg (by omega), if_neg (by simp [hgain]),
      if_neg (by simp [hmerr]), if_neg (by omega), if_neg (by omega), if_neg (by omega)]
  have hcommit : attempt Config.params .rssiRun s = _ := rssiRun_of_checks hchecks
  obtain ⟨hlow, hhigh⟩ := ceilDiv_bounds hn hlen1 hm1
  subst hlen hm hn
  have hxsLen : xs.length = s.rssiLen.toNat := by simp [hxs]
  refine ⟨hlow, hhigh, hxsLen, fun k re im hk hre him => ?_, _, _, exec_of_commit hcommit,
    drawSamples_draws_le .., fun k hk => ?_, ?_⟩
  · rw [hxs, List.getElem?_map, drawSamples_getElem? hk hre him]
    rfl
  · have hword := rssiWords_getElem? Config.params s.rssiGain s.rssiMerr
      (samples := (drawSamples s.ram s.draws s.rssiSrc.toNat s.rssiLen.toNat).1) (by rwa [ceilDiv, drawSamples_length])
    rw [← hxs] at hword
    rw [holdsWord_iff]
    exact WordAt.writeWords hword s.ram _
  · have hframe := (attempt_commit_ram hcommit).sameOutside
    rwa [destRegion_rssiRun hm1] at hframe

end Sys2Proof
end

section
/-! PROOF. The default taps (42_rssi.md R186): where each tap stands, and why each is the one rounding of its real value. No middle
between two neighbouring binary64 values lies within the bounds of Laws/Taps.lean around a tap, which one computation over all
taps shows. -/

namespace Sys2Proof

open Rounding Safety

namespace Rounding

/-- Of two nearest patterns the one of the smaller number is not the greater. -/
theorem Nearest.mono {frac b b' : Nat} {v v' : ℚ} (h : Nearest frac v b) (h' : Nearest frac v' b') (hv : v ≤ v') : b ≤ b' := by
  by_contra! hlt
  have hbelow := h.below_of_lt hlt
  have habove := h'.above
  have hnext := units_le_cast (frac := frac) (show b' + 1 ≤ b from hlt)
  have hsame : units frac (b' + 1) = units frac b := by
    have : (units frac (b' + 1) : ℚ) = units frac b := by linarith
    exact_mod_cast this
  obtain rfl := (units_strictMono frac).injective hsame
  have := h'.even_of_above (by linarith)
  have := h.even_of_below b' rfl (by linarith)
  omega

/-- Two numbers with different nearest patterns have a middle between two neighbouring patterns between them. -/
theorem Nearest.middle_between {frac b b' : Nat} {v v' : ℚ} (h : Nearest frac v b) (h' : Nearest frac v' b') (hlt : b < b') :
    2 * v ≤ (units frac b + units frac (b + 1) : Nat) ∧ ((units frac b + units frac (b + 1) : Nat) : ℚ) ≤ 2 * v' := by
  have hbelow := h'.below_of_lt hlt
  have hnext := units_le_cast (frac := frac) (show b + 1 ≤ b' from hlt)
  push_cast
  exact ⟨h.above, by linarith⟩

end Rounding

namespace F64

/-! ### Rounding the numbers of an interval -/

/-- n1/d1 and n2/d2 are from 2^-18 to 1, where every middle between neighbouring binary64 values is a multiple of 2^-71, and none
lies between them. -/
def clearOfMiddles (n1 d1 n2 d2 : Nat) : Bool :=
  decide (d1 ≤ 2 ^ 18 * n1) && decide (n2 < d2) && decide (2 ^ 71 * n2 / d2 * d1 < 2 ^ 71 * n1)

theorem clearOfMiddles_iff {n1 d1 n2 d2 : Nat} :
    clearOfMiddles n1 d1 n2 d2 = true ↔ d1 ≤ 2 ^ 18 * n1 ∧ n2 < d2 ∧ 2 ^ 71 * n2 / d2 * d1 < 2 ^ 71 * n1 := by
  simp [clearOfMiddles, and_assoc]

/-- The pattern of 2^-18. -/
def leastTap : Nat := 1005 * 2 ^ 52

theorem units_leastTap : units 52 leastTap * 2 ^ 18 = unitsPerOne := by decide +kernel

/-- The unit of 2^-70, of which values from 2^-18 on are whole multiples. -/
def tapUnit : Nat := 2 ^ 1004

theorem unitsPerOne_eq_tapUnit : unitsPerOne = 2 ^ 70 * tapUnit := by decide +kernel

theorem tapUnit_dvd_units {b : Nat} (h : leastTap ≤ b) : tapUnit ∣ units 52 b := two_pow_dvd_units h

/-- Below 1 nothing overflows. -/
theorem lt_mul_overflowBound {num den : Nat} (h : num < den) : num < den * overflowBound :=
  h.trans_le (Nat.le_mul_of_pos_right _ (by decide +kernel))

section
variable {n1 d1 n2 d2 n d : Nat}

/-- No middle between two neighbouring patterns from that of 2^-18 on lies between n1/d1 and n2/d2. -/
theorem not_middle_of_clear (hd1 : 0 < d1) (hclear : clearOfMiddles n1 d1 n2 d2 = true) {b : Nat} (hb : leastTap ≤ b)
    (hlow : 2 * ratioUnits n1 d1 ≤ (units 52 b + units 52 (b + 1) : Nat)) :
    ¬ ((units 52 b + units 52 (b + 1) : Nat) : ℚ) ≤ 2 * ratioUnits n2 d2 := by
  intro hhigh
  obtain ⟨-, hlt, hmiddle⟩ := clearOfMiddles_iff.1 hclear
  have hd2 : 0 < d2 := by omega
  obtain ⟨q, hq⟩ := (tapUnit_dvd_units hb).add (tapUnit_dvd_units (hb.trans b.le_succ))
  have htwice : ∀ a c : Nat, 2 * ratioUnits a c = tapUnit * ((2 ^ 71 * a : Nat) / c) := fun a c => by
    rw [ratioUnits, unitsPerOne_eq_tapUnit]
    push_cast
    ring
  have hunit : (0 : ℚ) < tapUnit := by exact_mod_cast (pow_pos two_pos 1004 : 0 < tapUnit)
  rw [hq, htwice, Nat.cast_mul tapUnit, mul_le_mul_iff_right₀ hunit] at hlow hhigh
  rw [div_le_iff₀ (by exact_mod_cast hd1)] at hlow
  rw [le_div_iff₀ (by exact_mod_cast hd2)] at hhigh
  have hfloor : q ≤ 2 ^ 71 * n2 / d2 := (Nat.le_div_iff_mul_le hd2).2 (by exact_mod_cast hhigh)
  have hcross : 2 ^ 71 * n1 ≤ q * d1 := by exact_mod_cast hlow
  exact absurd (hcross.trans (Nat.mul_le_mul_right d1 hfloor)) hmiddle.not_ge

/-- What is at least 2^-18 is rounded to no lesser pattern. -/
theorem leastTap_le_magBits (neg : Bool) (hd : 0 < d) (hlow : d ≤ 2 ^ 18 * n) (hlt : n < d) :
    leastTap ≤ magBits (ofRatio neg n d) := by
  refine (nearest_ofRatio neg hd (lt_mul_overflowBound hlt)).le_of_units_le ?_
  rw [ratioUnits, le_div_iff₀ (by exact_mod_cast hd), ← units_leastTap]
  have hscale := Nat.mul_le_mul_left (units 52 leastTap) hlow
  rw [← mul_assoc, mul_comm _ n] at hscale
  exact_mod_cast hscale

/-- With no middle between them, two numbers are rounded to one pattern, and so is what lies between them. -/
theorem ofRatio_eq_of_clear (neg : Bool) (hd1 : 0 < d1) (hclear : clearOfMiddles n1 d1 n2 d2 = true) (hd : 0 < d)
    (hlow : (n1 / d1 : ℚ) ≤ n / d) (hhigh : (n / d : ℚ) ≤ n2 / d2) :
    ofRatio neg n1 d1 = ofRatio neg n d ∧ ofRatio neg n2 d2 = ofRatio neg n d := by
  obtain ⟨hleast, hlt, -⟩ := clearOfMiddles_iff.1 hclear
  have hd2 : 0 < d2 := by omega
  have below_one : ∀ {a b : Nat}, 0 < b → (a / b : ℚ) ≤ n2 / d2 → a < b := fun {a b} hb hle => by
    have hone : (n2 / d2 : ℚ) < 1 := (div_lt_one (by exact_mod_cast hd2)).2 (by exact_mod_cast hlt)
    exact_mod_cast (div_lt_one (by exact_mod_cast hb)).1 (hle.trans_lt hone)
  have hlt1 := below_one hd1 (hlow.trans hhigh)
  have h1 := nearest_ofRatio neg hd1 (lt_mul_overflowBound hlt1)
  have h := nearest_ofRatio neg hd (lt_mul_overflowBound (below_one hd hhigh))
  have h2 := nearest_ofRatio neg hd2 (lt_mul_overflowBound hlt)
  have hmono : ∀ {a b a' b' : Nat}, (a / b : ℚ) ≤ a' / b' → ratioUnits a b ≤ ratioUnits a' b' := fun hle => by
    rw [ratioUnits, ratioUnits, mul_div_right_comm, mul_div_right_comm]
    exact mul_le_mul_of_nonneg_right hle (Nat.cast_nonneg _)
  have hle1 := h1.mono h (hmono hlow)
  have hle2 := h.mono h2 (hmono hhigh)
  have hsame : magBits (ofRatio neg n2 d2) ≤ magBits (ofRatio neg n1 d1) := by
    by_contra! hgap
    obtain ⟨hmid1, hmid2⟩ := h1.middle_between h2 hgap
    exact not_middle_of_clear hd1 hclear (leastTap_le_magBits neg hd1 hleast hlt1) hmid1 hmid2
  exact ⟨ext_sign_magBits (by simp) (by omega), ext_sign_magBits (by simp) (by omega)⟩

theorem abs_signFactor_mul_lt (neg : Bool) {a : ℝ} (h0 : 0 ≤ a) (h1 : a < 1) :
    |signFactor neg * a| < 2 ^ 1024 - 2 ^ 970 := by
  rw [← overflowBound_cast, abs_mul, ← Int.cast_abs, abs_signFactor, Int.cast_one, one_mul, abs_of_nonneg h0]
  exact h1.trans_le (by exact_mod_cast (by decide +kernel : 1 ≤ overflowBound))

/-- The one pattern to which everything between n1/d1 and n2/d2 is rounded is that of any n/d between them. -/
theorem isRounded_of_clear (neg : Bool) (hd1 : 0 < d1) (hclear : clearOfMiddles n1 d1 n2 d2 = true) (hd : 0 < d)
    (hlow : (n1 / d1 : ℚ) ≤ n / d) (hhigh : (n / d : ℚ) ≤ n2 / d2) {r : ℝ} (hr1 : (n1 / d1 : ℝ) ≤ r)
    (hr2 : r ≤ n2 / d2) : IsRounded (signFactor neg * r) (ofRatio neg n d) := by
  obtain ⟨-, hlt, -⟩ := clearOfMiddles_iff.1 hclear
  obtain ⟨heq1, heq2⟩ := ofRatio_eq_of_clear neg hd1 hclear hd hlow hhigh
  have h1 := heq1 ▸ isRounded_ofRatio neg n1 hd1 (mul_div_assoc (signFactor neg : ℝ) _ _).symm
  have h2 := heq2 ▸ isRounded_ofRatio neg n2 (by omega) (mul_div_assoc (signFactor neg : ℝ) _ _).symm
  have hone : (n2 / d2 : ℝ) < 1 := (div_lt_one (by exact_mod_cast (by omega : 0 < d2))).2 (by exact_mod_cast hlt)
  have hzero : (0 : ℝ) ≤ n1 / d1 := by positivity
  have b1 := abs_signFactor_mul_lt neg hzero ((hr1.trans hr2).trans_lt hone)
  have b2 := abs_signFactor_mul_lt neg (hzero.trans (hr1.trans hr2)) hone
  cases neg
  · exact Taps.isRounded_between h1 h2 (by simpa [signFactor] using hr1) (by simpa [signFactor] using hr2) b1 b2
  · exact Taps.isRounded_between h2 h1 (by simpa [signFactor] using hr2) (by simpa [signFactor] using hr1) b2 b1

end

end F64

namespace Taps

/-! ### Where each tap stands -/

theorem mirror_getElem?_add {l : List F64} {k : Nat} (hl : l.length = k + 1) (i : Nat) : (mirror l)[k + i]? = l[i]? := by
  cases l with
  | nil => simp at hl
  | cons h0 rest =>
    have hrest : rest.reverse.length = k := by simpa using hl
    rw [mirror, List.getElem?_append_right (by omega), hrest, Nat.add_sub_cancel_left]

theorem mirror_getElem?_sub {l : List F64} {k i : Nat} (hl : l.length = k + 1) (hi : i ≤ k) : (mirror l)[k - i]? = l[i]? := by
  have hlen := mirror_length (List.ne_nil_of_length_pos (by omega : 0 < l.length))
  rw [← mirror_reverse, List.getElem?_reverse (by omega), ← mirror_getElem?_add hl]
  congr 1
  omega

/-- 42_rssi.md R186: tap j of the default table is made from c(|j|). -/
theorem defaultCoef_getElem? {m : Nat} {j : Int} (hlow : -(10 * m) ≤ j) (hhigh : j ≤ 10 * m) :
    (defaultCoef m)[(10 * m + j).toNat]? = some (tap (total (halfShape m)) (shape m j.natAbs)) := by
  have hlen : ((halfShape m).map (tap (total (halfShape m)))).length = 10 * m + 1 := by simp [halfShape]
  have hget : ((halfShape m).map (tap (total (halfShape m))))[j.natAbs]? =
      some (tap (total (halfShape m)) (shape m j.natAbs)) := by
    simp [halfShape, show j.natAbs < 10 * m + 1 by omega]
  rw [defaultCoef, ← hget]
  rcases le_total 0 j with h | h
  · rw [← mirror_getElem?_add hlen]
    congr 1
    omega
  · rw [← mirror_getElem?_sub hlen (by omega)]
    congr 1
    omega

theorem tap_zero (sum : Int) : tap sum 0 = F64.posZero := if_pos rfl

theorem tap_of_ne_zero (sum : Int) {c : Int} (h : c ≠ 0) :
    tap sum c = F64.ofRatio (decide (c < 0)) c.natAbs sum.natAbs := if_neg h

/-- The zeros of the sinc. -/
theorem shape_of_mod_eq_zero {m j : Nat} (h0 : j ≠ 0) (h : j % m = 0) : shape m j = 0 := by
  simp [shape, h0, h]

/-- 42_rssi.md R186: the taps at a nonzero multiple of M on both sides of the middle are +0.0. -/
theorem defaultCoef_of_mod_eq_zero {m n : Nat} (h0 : n ≠ 0) (hn : n ≤ 10 * m) (hz : n % m = 0) :
    (defaultCoef m)[10 * m + n]? = some F64.posZero ∧ (defaultCoef m)[10 * m - n]? = some F64.posZero := by
  have hright := defaultCoef_getElem? (m := m) (j := n) (by omega) (by omega)
  have hleft := defaultCoef_getElem? (m := m) (j := -n) (by omega) (by omega)
  rw [show (10 * m + n : Int).toNat = 10 * m + n by omega] at hright
  rw [show (10 * m + -n : Int).toNat = 10 * m - n by omega, Int.natAbs_neg] at hleft
  rw [hright, hleft, Int.natAbs_natCast, shape_of_mod_eq_zero h0 hz, tap_zero]
  exact ⟨rfl, rfl⟩

/-! ### The check of all taps -/

/-- The tap of c / sum stays the same wherever the real values lie within the bounds of Laws/Taps.lean. -/
def tapClear (sum c : Int) : Bool :=
  F64.clearOfMiddles (c.natAbs - 2 ^ 45) (sum.natAbs + 2 ^ 60) (c.natAbs + 2 ^ 45) (sum.natAbs - 2 ^ 60)

/-- Every tap of the half c(0) .. c(10M) that is no zero of the sinc is clear, and the middle one is above 0. -/
def tapsClear (m : Nat) (c : Nat → Int) : Bool :=
  let sum := total ((List.range (10 * m + 1)).map c)
  decide (0 < sum) && F64.lt 0#64 (tap sum (c 0)) &&
    (List.range (10 * m + 1)).all fun j => (decide (j ≠ 0) && decide (j % m = 0)) || tapClear sum (c j)

/-- The sines that the shape of the taps takes, each of them for ten or more taps. -/
def sineTable (m : Nat) : List Int := (List.range m).map (sinPi m)

/-- `shape` with the sines looked up, so that each is evaluated once. -/
def shapeFrom (sines : List Int) (m j : Nat) : Int :=
  let w : Int := window (10 * m) j
  if j = 0 then w
  else if j % m = 0 then 0
  else
    let s := if j / m % 2 = 0 then sines.getD (j % m) 0 else -sines.getD (j % m) 0
    w * s * m / (pi * j : Nat)

theorem shapeFrom_sineTable {m : Nat} (hm : 0 < m) : shapeFrom (sineTable m) m = shape m := by
  funext j
  have hsine : (sineTable m).getD (j % m) 0 = sinPi m (j % m) := by simp [sineTable, List.getD, Nat.mod_lt j hm]
  rw [shapeFrom, hsine]
  rfl

theorem tapsClear_shapeFrom : ∀ m, 2 ≤ m → m ≤ 16 → tapsClear m (shapeFrom (sineTable m) m) = true := by decide +kernel

/-- No tap for M from 2 to 16 lies as near as the bounds to a middle between two binary64 values. -/
theorem tapsClear_shape {m : Nat} (hm : 2 ≤ m) (hm16 : m ≤ 16) :
    0 < total (halfShape m) ∧ F64.lt 0#64 (tap (total (halfShape m)) (shape m 0)) = true ∧
      ∀ j, j ≤ 10 * m → (j = 0 ∨ j % m ≠ 0) → tapClear (total (halfShape m)) (shape m j) = true := by
  have hclear := tapsClear_shapeFrom m hm hm16
  rw [shapeFrom_sineTable (by omega), tapsClear, ← halfShape] at hclear
  simp only [Bool.and_eq_true, decide_eq_true_eq, List.all_eq_true, List.mem_range, Bool.or_eq_true] at hclear
  obtain ⟨⟨hsum, hmiddle⟩, hall⟩ := hclear
  exact ⟨hsum, hmiddle, fun j hj hne => (hall j (by omega)).resolve_left fun ⟨h0, hz⟩ => hne.elim h0 (· hz)⟩

/-! ### The taps as real numbers -/

/-- The zeros of the sinc, in real numbers. -/
theorem kaiserSinc_of_mod_eq_zero {m n : Nat} {I0 : ℝ → ℝ} {w c : Int → ℝ} (h : KaiserSinc m I0 w c) (hm : 0 < m) (h0 : n ≠ 0)
    (hz : n % m = 0) : c n = 0 := by
  obtain ⟨k, rfl⟩ := Nat.dvd_of_mod_eq_zero hz
  have hturns : Real.pi * (((m * k : Nat) : Int) / m : ℝ) = k * Real.pi := by
    push_cast
    field_simp
  rw [h.shape, if_neg (by exact_mod_cast h0), hturns, Real.sin_nat_mul_pi, zero_div, mul_zero]

/-- A real number near a whole one has, up to its sign, a magnitude as near. -/
theorem exists_magnitude_close {c : Int} {a e : ℝ} (h : |(c : ℝ) - a| ≤ e) :
    ∃ x, a = F64.signFactor (decide (c < 0)) * x ∧ |(c.natAbs : ℝ) - x| ≤ e := by
  rcases lt_or_ge c 0 with hneg | hpos
  · refine ⟨-a, by simp [F64.signFactor, hneg], ?_⟩
    rwa [← abs_neg, ← Int.cast_natCast, Int.natCast_natAbs, abs_of_neg hneg, Int.cast_neg, neg_sub', neg_neg, neg_neg]
  · refine ⟨a, by simp [F64.signFactor, hpos.not_gt], ?_⟩
    rwa [← Int.cast_natCast, Int.natCast_natAbs, abs_of_nonneg hpos]

/-- A quotient whose parts are within e of n and within f of d lies between (n - e)/(d + f) and (n + e)/(d - f). -/
theorem quotient_bounds {K : Type} [Field K] [LinearOrder K] [IsStrictOrderedRing K] {n d e f : Nat} {x y : K} (he : e ≤ n)
    (hf : f < d) (hx : |(n : K) - x| ≤ e) (hy : |(d : K) - y| ≤ f) :
    ((n - e : Nat) : K) / (d + f : Nat) ≤ x / y ∧ x / y ≤ ((n + e : Nat) : K) / (d - f : Nat) := by
  obtain ⟨hx1, hx2⟩ := abs_le.1 hx
  obtain ⟨hy1, hy2⟩ := abs_le.1 hy
  have he' : (e : K) ≤ n := by exact_mod_cast he
  have hf' : (f : K) < d := by exact_mod_cast hf
  rw [Nat.cast_sub he, Nat.cast_sub hf.le, Nat.cast_add, Nat.cast_add]
  constructor <;> apply div_le_div₀ <;> linarith

/-- The tap of c / sum rounds every quotient whose parts lie within the bounds of Laws/Taps.lean. -/
theorem isRounded_tap {sum c : Int} (hsum : 0 < sum) (hclear : tapClear sum c = true) {a b : ℝ} (ha : |(c : ℝ) - a| ≤ 2 ^ 45)
    (hb : |(sum : ℝ) - b| ≤ 2 ^ 60) : IsRounded (a / b) (tap sum c) := by
  obtain ⟨hleast, hlt, -⟩ := F64.clearOfMiddles_iff.1 hclear
  have hc : 2 ^ 45 ≤ c.natAbs := by omega
  have hs : 2 ^ 60 < sum.natAbs := by omega
  obtain ⟨x, rfl, hx⟩ := exists_magnitude_close ha
  rw [← abs_of_pos hsum, ← Int.natCast_natAbs, Int.cast_natCast] at hb
  rw [tap_of_ne_zero sum (by omega), mul_div_assoc]
  obtain ⟨htap1, htap2⟩ := quotient_bounds (K := ℚ) (x := c.natAbs) (y := sum.natAbs) hc hs (by simp) (by simp)
  obtain ⟨hreal1, hreal2⟩ := quotient_bounds hc hs (by exact_mod_cast hx) (by exact_mod_cast hb)
  exact F64.isRounded_of_clear _ (by omega) hclear (by omega) htap1 htap2 hreal1 hreal2

end Taps

/-- Settles O28: the shape for every M, and the listed values by computation. -/
theorem defaultTapsHaveTheStatedShape : Obligations.DefaultTapsHaveTheStatedShape := by
  refine ⟨fun m hm => ⟨Taps.defaultCoef_length m, Taps.defaultCoef_reverse m, fun j h1 h10 => ?_⟩, ?_, ?_, ?_⟩
  · exact Taps.defaultCoef_of_mod_eq_zero (Nat.mul_pos h1 (by omega)).ne' (Nat.mul_le_mul_right m h10) (Nat.mul_mod_left j m)
  all_goals decide +kernel

/-- Settles O29: a tap at a zero of the sinc is zero, and every other is clear of the middles that its bounds could reach. -/
theorem defaultTapsAreRoundedOnce : Obligations.DefaultTapsAreRoundedOnce := by
  intro m I0 w c hm hm16 hk j hlow hhigh
  obtain ⟨hsum, hmiddle, hclear⟩ := Taps.tapsClear_shape hm hm16
  refine ⟨_, Taps.defaultCoef_getElem? hlow hhigh, ?_, fun h0 => by rw [h0, Int.natAbs_zero]; exact hmiddle⟩
  have heven : c j = c j.natAbs := by
    rcases Int.natAbs_eq j with h | h
    · rw [← h]
    · rw [← Taps.kaiserSinc_even hk, ← Int.neg_eq_comm.1 h.symm]
  rw [heven]
  generalize hn : j.natAbs = n
  have hn10 : n ≤ 10 * m := by omega
  by_cases hz : n ≠ 0 ∧ n % m = 0
  · obtain ⟨h0, hz⟩ := hz
    rw [Taps.kaiserSinc_of_mod_eq_zero hk (by omega) h0 hz, zero_div, Taps.shape_of_mod_eq_zero h0 hz, Taps.tap_zero]
    exact F64.isRounded_zero (by decide)
  · rw [← mul_div_mul_left _ _ (Taps.kaiserSinc_bessel_pos hk).ne', ← mul_div_mul_left _ _ Taps.unit_pos_real.ne']
    exact Taps.isRounded_tap hsum (hclear n hn10 (by omega)) (Taps.shape_close_kaiserSinc hm hm16 hn10 hk)
      (Taps.total_close_kaiserSinc hm hm16 hk)

end Sys2Proof
end

section
/-! PROOF. The random source (43_noise.md R210): the states it goes through, and why its mixing is one-to-one. -/

namespace Sys2Proof.Machine

/-! ### The states of the generator -/

/-- The increment of the PRNG state. -/
def prngIncrement : U64 := 0x9E3779B97F4A7C15#64

theorem prngNext_eq (z : U64) : prngNext z = z + prngIncrement := rfl

/-- 43_noise.md R210: n draws add n increments. -/
theorem prngAdvance_eq (n : Nat) (z : U64) : prngAdvance n z = z + BitVec.ofNat 64 n * prngIncrement := by
  induction n with
  | zero => simp [prngAdvance]
  | succ n ih => rw [prngAdvance, ih, prngNext_eq, BitVec.ofNat_add, BitVec.add_mul, BitVec.add_assoc, BitVec.one_mul]

/-- Draws before other draws. -/
theorem prngAdvance_add (m n : Nat) (z : U64) : prngAdvance m (prngAdvance n z) = prngAdvance (n + m) z := by
  induction m with
  | zero => rfl
  | succ m ih => rw [prngAdvance, ih]; rfl

/-- The increment is odd, so its multiples modulo 2^64 are as many as there are. -/
theorem ofNat_mul_prngIncrement_eq_zero_iff (n : Nat) : BitVec.ofNat 64 n * prngIncrement = 0#64 ↔ 2 ^ 64 ∣ n := by
  have hcoprime : Nat.Coprime (2 ^ 64) prngIncrement.toNat := by decide +kernel
  rw [← BitVec.toNat_inj, BitVec.toNat_mul, BitVec.toNat_ofNat, Nat.mod_mul_mod, BitVec.toNat_ofNat, Nat.zero_mod,
    ← Nat.dvd_iff_mod_eq_zero, hcoprime.dvd_mul_right]

/-! ### The mixing loses nothing -/

/-- A value folded onto itself by a right shift can be unfolded: a number that equals itself shifted right is 0. -/
theorem xor_ushiftRight_injective {w k : Nat} (hk : 0 < k) :
    Function.Injective fun x : BitVec w => x ^^^ (x >>> k) := by
  intro x y h
  have hfixed : x ^^^ y = (x ^^^ y) >>> k := by
    have h' : x ^^^ (x >>> k) = y ^^^ (y >>> k) := h
    calc x ^^^ y = (x ^^^ (x >>> k)) ^^^ (x >>> k) ^^^ y := by simp
      _ = (y ^^^ (y >>> k)) ^^^ (x >>> k) ^^^ y := by rw [h']
      _ = (x ^^^ y) >>> k := by rw [BitVec.ushiftRight_xor_distrib]; ac_nf; simp
  have hnat : (x ^^^ y).toNat = (x ^^^ y).toNat / 2 ^ k := by
    conv_lhs => rw [hfixed, BitVec.toNat_ushiftRight, Nat.shiftRight_eq_div_pow]
  have hzero : (x ^^^ y).toNat = 0 := by
    by_contra hne
    have := Nat.div_lt_self (Nat.pos_of_ne_zero hne) (Nat.one_lt_two_pow hk.ne')
    omega
  exact BitVec.xor_eq_zero_iff.1 (BitVec.eq_of_toNat_eq (by simpa using hzero))

/-- A multiplier with an inverse modulo 2^w loses nothing. -/
theorem mul_right_injective_of_inverse {w : Nat} {c d : BitVec w} (h : c * d = 1#w) :
    Function.Injective fun x : BitVec w => x * c :=
  Function.LeftInverse.injective (g := (· * d)) fun x => by
    change x * c * d = x
    rw [BitVec.mul_assoc, h, BitVec.mul_one]

/-- 43_noise.md R210: the mixing is a chain of steps that lose nothing. -/
theorem prngMix_injective : Function.Injective prngMix := by
  have h1 : 0xBF58476D1CE4E5B9#64 * 0x96DE1B173F119089#64 = 1#64 := by decide
  have h2 : 0x94D049BB133111EB#64 * 0x319642B2D24D8EC3#64 = 1#64 := by decide
  exact (xor_ushiftRight_injective (show 0 < 31 by decide)).comp <|
    (mul_right_injective_of_inverse h2).comp <| (xor_ushiftRight_injective (show 0 < 27 by decide)).comp <|
      (mul_right_injective_of_inverse h1).comp (xor_ushiftRight_injective (show 0 < 30 by decide))

end Sys2Proof.Machine

namespace Sys2Proof

open Machine

/-- Settles O35: n draws add n times an odd increment, which is 0 modulo 2^64 for no n but the multiples of 2^64. -/
theorem generatorHasFullPeriod : Obligations.GeneratorHasFullPeriod := by
  refine ⟨prngAdvance_eq, fun n z => ?_⟩
  rw [prngAdvance_eq, ← ofNat_mul_prngIncrement_eq_zero_iff, BitVec.add_right_eq_self]

/-- Settles O36: the mixing is its own formula, one-to-one, and its first four values are computed. -/
theorem generatorOutputIsOneToOne : Obligations.GeneratorOutputIsOneToOne := by
  refine ⟨fun z z' h => prngMix_injective h, ?_⟩
  rintro z _ _ rfl rfl
  exact ⟨rfl, rfl, by decide⟩

end Sys2Proof
end

section
/-! PROOF. NOISE_SEED and NOISE_APPLY (43_noise.md R212, R220 to R226): what each answers, check by check, and what of the state the
answer depends on. -/

namespace Sys2Proof.Machine

open Safety

/-! ### The checks -/

/-- 43_noise.md R221: checks 1 to 6 on the default parameters, in their order. -/
theorem noiseChecks_params (s : State) {len : Nat} (hlen : len = s.noiseLen.toNat) :
    noiseChecks Config.params s =
      if len = 0 then some .badParam
      else if F64.isFinite s.noiseSnr = false then some .badParam
      else if F64.lt 0#64 s.noiseRate = false ∨ F64.le s.noiseRate 0x3FF0000000000000#64 = false then some .badParam
      else if s.noiseSrc.toNat % 8 ≠ 0 ∨ 65536 < s.noiseSrc.toNat + 8 * len then some .badRange
      else if s.noiseDst.toNat % 8 ≠ 0 ∨ 65536 < s.noiseDst.toNat + 8 * len then some .badRange
      else if s.noiseDst ≠ s.noiseSrc ∧ s.noiseDst.toNat < s.noiseSrc.toNat + 8 * len ∧
          s.noiseSrc.toNat < s.noiseDst.toNat + 8 * len then some .overlap
      else none := by
  subst hlen
  -- the parameters come last: a `decide` whose proposition has changed under it is no longer recognised
  simp only [noiseChecks, bufferOk, disjoint, inHalfOpenUnit, Nat.lt_one_iff, Bool.not_eq_true', Bool.or_eq_false_iff,
    Bool.and_eq_false_iff, decide_eq_false_iff_not, not_le, ne_eq]
  simp only [params_sramBytes]
  rfl

section
variable {p : Params} {s : State}

theorem noiseApply_of_failed_check {c : ErrCode} (h : noiseChecks p s = some c) : noiseApply p s = .raise c s.draws := by
  rw [noiseApply, h]

/-- Check 7 of 43_noise.md R221. -/
theorem noiseApply_of_nonfinite_variance (h : noiseChecks p s = none)
    (hv : F64.isFinite (noiseVariance p.num s.noiseSnr s.noiseRate (noiseInput s).1) = false) :
    noiseApply p s = .raise .badParam (noiseInput s).2 := by
  obtain ⟨-, -, -, hsrc, -⟩ := noiseChecks_none h
  rw [noiseApply, h]
  dsimp only
  rw [loadSamples_of_le s ((bufferOk_iff ..).1 hsrc).2]
  simp [hv]

theorem noiseApply_of_checks (h : noiseChecks p s = none)
    (hv : F64.isFinite (noiseVariance p.num s.noiseSnr s.noiseRate (noiseInput s).1) = true) :
    noiseApply p s = .commit { s with
      ram := Ram.writeWords s.ram s.noiseDst.toNat
        (sampleWords (noisySamples p.num
          (F64.sqrt (noiseVariance p.num s.noiseSnr s.noiseRate (noiseInput s).1)) s.prng (noiseInput s).1))
      prng := prngAdvance (2 * s.noiseLen.toNat) s.prng
      noiseVar := noiseVariance p.num s.noiseSnr s.noiseRate (noiseInput s).1
      draws := (noiseInput s).2 } := by
  obtain ⟨-, -, -, hsrc, hdst, -⟩ := noiseChecks_none h
  rw [noiseApply, h]
  dsimp only
  rw [loadSamples_of_le s ((bufferOk_iff ..).1 hsrc).2]
  simp only [hv, Bool.not_true, Bool.false_eq_true, if_false]
  rw [storeWords_of_le s.ram (sampleWords_fit (by simp) hdst)]

end

/-! ### The output samples -/

/-- 43_noise.md R225: pair k is drawn when 2k draws have been made. -/
theorem gaussPairs_getElem? (num : Numerics) (z : U64) {n k : Nat} (hk : k < n) :
    (gaussPairs num z n)[k]? = some (gaussPair num (prngAdvance (2 * k) z)) := by
  induction n generalizing z k with
  | zero => omega
  | succ n ih =>
    cases k with
    | zero => rfl
    | succ k =>
      rw [gaussPairs, List.getElem?_cons_succ, ih _ (by omega), show 2 * (k + 1) = 2 + 2 * k by omega, ← prngAdvance_add]
      rfl

/-- 43_noise.md R225: output sample k is input sample k with pair k added. -/
theorem noisySamples_getElem? (num : Numerics) (sigma : F64) (z : U64) {xs : List (F32 × F32)} {k : Nat} {x : F32 × F32}
    {g : F64 × F64} (hx : xs[k]? = some x) (hg : g = gaussPair num (prngAdvance (2 * k) z)) :
    (noisySamples num sigma z xs)[k]? = some (noisyPart sigma g.1 x.1, noisyPart sigma g.2 x.2) := by
  have hk : k < xs.length := (List.getElem?_eq_some_iff.1 hx).1
  rw [noisySamples, addNoise, List.getElem?_zipWith, hx, gaussPairs_getElem? num z hk, hg]

/-! ### Inputs that have been written -/

/-- The byte at offset x has been written in both, with the same value. -/
def WrittenAlike (m m' : Ram) (x : Nat) : Prop := ∃ b, Ram.read m x = some b ∧ Ram.read m' x = some b

section
variable {m m' : Ram}

theorem drawWord_of_writtenAlike {a : Nat} (h : ∀ x, a ≤ x → x < a + 4 → WrittenAlike m m' x) (d d' : Nat) :
    ∃ w, drawWord m d a = (w, d) ∧ drawWord m' d' a = (w, d') := by
  obtain ⟨b0, h0, h0'⟩ := h a (by omega) (by omega)
  obtain ⟨b1, h1, h1'⟩ := h (a + 1) (by omega) (by omega)
  obtain ⟨b2, h2, h2'⟩ := h (a + 2) (by omega) (by omega)
  obtain ⟨b3, h3, h3'⟩ := h (a + 3) (by omega) (by omega)
  refine ⟨b3 ++ b2 ++ b1 ++ b0, ?_, ?_⟩
  · simp only [drawWord, drawByte_of_some _ h0, drawByte_of_some _ h1, drawByte_of_some _ h2, drawByte_of_some _ h3]
  · simp only [drawWord, drawByte_of_some _ h0', drawByte_of_some _ h1', drawByte_of_some _ h2', drawByte_of_some _ h3']

/-- Samples whose bytes have been written read the same in both, whatever the free values are (20_memory.md R85, R90). -/
theorem drawSamples_of_writtenAlike {a n : Nat} (h : ∀ x, a ≤ x → x < a + 8 * n → WrittenAlike m m' x) (d d' : Nat) :
    ∃ xs, drawSamples m d a n = (xs, d) ∧ drawSamples m' d' a n = (xs, d') := by
  induction n generalizing a with
  | zero => exact ⟨[], rfl, rfl⟩
  | succ n ih =>
    obtain ⟨re, hre, hre'⟩ := drawWord_of_writtenAlike (fun x hlo hhi => h x hlo (by omega)) d d'
    obtain ⟨im, him, him'⟩ := drawWord_of_writtenAlike (a := a + 4) (fun x hlo hhi => h x (by omega) (by omega)) d d'
    obtain ⟨xs, hxs, hxs'⟩ := ih (a := a + 8) fun x hlo hhi => h x (by omega) (by omega)
    refine ⟨(re, im) :: xs, ?_, ?_⟩
    · simp only [drawSamples, drawSample, hre, him, hxs]
    · simp only [drawSamples, drawSample, hre', him', hxs']

end

/-- A byte that a store of words names reads the same afterwards, whatever the RAM held before. -/
theorem Ram.read_writeWords_congr (ws : List Word) {m m' : Ram} {a x : Nat}
    (h : (a ≤ x ∧ x < a + 4 * ws.length) ∨ Ram.read m x = Ram.read m' x) :
    Ram.read (Ram.writeWords m a ws) x = Ram.read (Ram.writeWords m' a ws) x := by
  induction ws generalizing m m' a with
  | nil => exact h.resolve_left (by simp only [List.length_nil]; omega)
  | cons w ws ih =>
    simp only [List.length_cons] at h
    refine ih (Classical.or_iff_not_imp_left.2 fun hrest => ?_)
    rw [Ram.read_writeWord, Ram.read_writeWord]
    rcases h with ⟨hlo, hhi⟩ | h
    · obtain rfl | rfl | rfl | rfl : x = a ∨ x = a + 1 ∨ x = a + 2 ∨ x = a + 3 := by omega
      all_goals simp
    · rw [h]

/-- 43_noise.md R221: checks 1 to 6 depend on the operands alone. -/
theorem noiseChecks_congr (p : Params) {s s' : State} (h : SameNoiseOperands s s') : noiseChecks p s' = noiseChecks p s := by
  simp only [noiseChecks, h.src, h.len, h.dst, h.snr, h.rate]

end Sys2Proof.Machine

namespace Sys2Proof

open Machine Safety

/-- Settles O34: NOISE_SEED has no check, and stages the seed. -/
theorem noiseSeedLoadsGenerator : Obligations.NoiseSeedLoadsGenerator := fun s =>
  exec_of_commit (i := .noiseSeed) (s := s) rfl

/-- Settles O39: the hypothesis is the chain of checks 1 to 6 with the code it answers, and then check 7. -/
theorem noiseApplyReportsFirstFailure : Obligations.NoiseApplyReportsFirstFailure := by
  intro s len code draws hlen hfirst
  have hchecks := noiseChecks_params s hlen
  have hraise : noiseApply Config.params s = .raise code draws := by
    split_ifs at hfirst hchecks
    case neg =>
      obtain ⟨rfl, hvar, rfl⟩ := hfirst
      subst hlen
      exact noiseApply_of_nonfinite_variance hchecks hvar
    all_goals
      obtain ⟨rfl, rfl⟩ := hfirst
      exact noiseApply_of_failed_check hchecks
  rw [exec_eq_execOn, execOn_eq_conclude, attempt, hraise]
  rfl

/-- Settles O38: the hypotheses are the seven checks, and sample k of the store is input sample k with pair k added. -/
theorem noiseApplyWritesNoisySignal : Obligations.NoiseApplyWritesNoisySignal := by
  intro s len xs var hlen hxs hvar hlen1 hsnr hpos hle hsrc hsrcFit hdst hdstFit hoverlap hfin
  have hchecks : noiseChecks Config.params s = none := by
    rw [noiseChecks_params s hlen, if_neg (by omega), if_neg (by simp [hsnr]), if_neg (by simp [hpos, hle]),
      if_neg (by omega), if_neg (by omega), if_neg fun ⟨hne, _, _⟩ => by have := hoverlap.resolve_left hne; omega]
  have hxsLen : xs.length = len := by simp [hxs]
  rw [← hxsLen] at hvar
  obtain rfl : var = noiseVariance Config.num s.noiseSnr s.noiseRate xs := hvar
  subst hxs hlen
  have hcommit : attempt Config.params .noiseApply s = _ := noiseApply_of_checks hchecks hfin
  refine ⟨_, (noiseInput s).2, ?_, drawSamples_draws_le .., fun k x hx g hg => ?_, hxsLen, fun k re im hk hre him => ?_,
    (attempt_commit_ram hcommit).sameOutside⟩
  · rw [exec_of_commit hcommit, prngAdvance_eq]
    rfl
  · rw [holdsWord_iff, holdsWord_iff]
    exact WordAt.writeSamples (noisySamples_getElem? Config.num _ s.prng hx hg) s.ram s.noiseDst.toNat
  · exact drawSamples_getElem? hk hre him

/-- Settles O40: checks and input are the same, so the same branch is taken, with the same words stored at the same place. -/
theorem noiseIsReproducible : Obligations.NoiseIsReproducible := by
  intro s s' t t' hops hinput ht ht'
  obtain ⟨xs, hxs, hxs'⟩ := drawSamples_of_writtenAlike (fun x hlo hhi => hinput x ⟨hlo, hhi⟩) s.draws s'.draws
  have hchecks := noiseChecks_congr Config.params hops
  have hread : (noiseInput s').1 = (noiseInput s).1 := by
    rw [noiseInput, noiseInput, hops.src, hops.len, hxs, hxs']
  have hvar : noiseVariance Config.params.num s'.noiseSnr s'.noiseRate (noiseInput s').1 =
      noiseVariance Config.params.num s.noiseSnr s.noiseRate (noiseInput s).1 := by rw [hops.snr, hops.rate, hread]
  rw [exec_eq_execOn, execOn_eq_conclude, attempt] at ht ht'
  cases hc : noiseChecks Config.params s with
  | some c =>
    rw [noiseApply_of_failed_check hc] at ht
    rw [noiseApply_of_failed_check (hchecks.trans hc)] at ht'
    cases ht
    cases ht'
    exact ⟨rfl, fun (hok : c = .ok) => absurd (hok ▸ hc) (noiseChecks_ne_ok _ _)⟩
  | none =>
    cases hfin : F64.isFinite (noiseVariance Config.params.num s.noiseSnr s.noiseRate (noiseInput s).1) with
    | false =>
      rw [noiseApply_of_nonfinite_variance hc hfin] at ht
      rw [noiseApply_of_nonfinite_variance (hchecks.trans hc) (hvar ▸ hfin)] at ht'
      cases ht
      cases ht'
      exact ⟨rfl, fun hok => by cases hok⟩
    | true =>
      rw [noiseApply_of_checks hc hfin] at ht
      rw [noiseApply_of_checks (hchecks.trans hc) (hvar ▸ hfin)] at ht'
      cases ht
      cases ht'
      refine ⟨rfl, fun _ => ⟨?_, hvar, fun x hx => ?_⟩⟩
      · change prngAdvance _ _ = prngAdvance _ _
        rw [hops.len, hops.prng]
      · change Ram.read (Ram.writeWords _ _ _) x = Ram.read (Ram.writeWords _ _ _) x
        rw [hvar, hread, hops.dst, hops.prng]
        refine Ram.read_writeWords_congr (a := s.noiseDst.toNat) _ (.inl ⟨hx.1, hx.2.trans_le ?_⟩)
        simp only [sampleWords_length, noisySamples_length, drawSamples_length]
        omega

end Sys2Proof
end

section
/-! PROOF. The uniforms of gauss_pair() (43_noise.md R211): RNE64 of a rational that is a value of the format is exact, and the
uniforms are whole multiples of 2^-53. -/

namespace Sys2Proof

open Rounding

namespace Rounding

/-- Whatever has a significand up to 2^(frac+1) is the value of a pattern. -/
theorem exists_units_eq_of_le (frac k : Nat) {q : Nat} (hq : q ≤ 2 ^ (frac + 1)) : ∃ b, units frac b = q * 2 ^ k := by
  rcases hq.lt_or_eq with hlt | rfl
  · exact exists_units_eq frac k hlt
  · obtain ⟨b, hb⟩ := exists_units_eq frac (k + 1) (q := 2 ^ frac) (Nat.pow_lt_pow_right one_lt_two frac.lt_succ_self)
    exact ⟨b, by rw [hb]; ring⟩

end Rounding

namespace F64

/-! ### Exact results of RNE64 -/

section
variable {num den : Nat}

/-- RNE64 depends on the rational alone, not on how it is written. -/
theorem ofRatio_congr (neg : Bool) {num' den' : Nat} (hd : 0 < den) (hd' : 0 < den') (h : num * den' = num' * den) :
    ofRatio neg num den = ofRatio neg num' den' := by
  obtain ⟨b, hb, hmag⟩ := exists_nearest_ofRatio neg num hd
  obtain ⟨b', hb', hmag'⟩ := exists_nearest_ofRatio neg num' hd'
  have hsame : ratioUnits num den = ratioUnits num' den' := by
    have h' : (num * den' : ℚ) = num' * den := by exact_mod_cast h
    rw [ratioUnits, ratioUnits, div_eq_div_iff (by exact_mod_cast hd.ne') (by exact_mod_cast hd'.ne'), mul_right_comm, h']
    ring
  obtain rfl := le_antisymm (hb.mono hb' hsame.le) (hb'.mono hb hsame.ge)
  exact ext_sign_magBits (by rw [sign_ofRatio, sign_ofRatio]) (hmag.trans hmag'.symm)

/-- RNE64 is exact on a rational with at most 53 significant bits in the range of the format. -/
theorem ofRatio_exact (neg : Bool) (hd : 0 < den) {q k : Nat} (hq : q ≤ 2 ^ 53) (hk : q * 2 ^ k < units 52 0x7FF0000000000000)
    (h : num * unitsPerOne = den * (q * 2 ^ k)) :
    isFinite (ofRatio neg num den) = true ∧ scaledMag (ofRatio neg num den) = q * 2 ^ k := by
  obtain ⟨b, hb⟩ := exists_units_eq_of_le 52 k hq
  have hlt : b < 0x7FF0000000000000 := by rwa [← (units_strictMono 52).lt_iff_lt, hb]
  have hexact : ratioUnits num den = units 52 b := by
    rw [ratioUnits, hb, div_eq_iff (by exact_mod_cast hd.ne'), mul_comm ((q * 2 ^ k : Nat) : ℚ)]
    exact_mod_cast h
  have hpattern := ofRatio_eq_of_units neg hd hlt hexact
  have hmag : magBits (ofRatio neg num den) = b := by rw [hpattern, magBits_withSign _ (by omega)]
  exact ⟨isFinite_iff.2 (hmag ▸ hlt), by rw [scaledMag64_eq_units, hmag, hb]⟩

end

/-- A whole number of at most 53 bits is converted exactly. -/
theorem ofNat_exact {n : Nat} (hn : n ≤ 2 ^ 53) : isFinite (ofNat n) = true ∧ scaledMag (ofNat n) = n * unitsPerOne :=
  ofRatio_exact false one_pos hn ((Nat.mul_le_mul_right _ hn).trans_lt (by decide +kernel)) (one_mul _).symm

end F64

namespace Machine

/-! ### The uniforms -/

/-- The top 53 bits of a draw. -/
def topBits (z : U64) : Nat := (z >>> 11).toNat

theorem topBits_lt (z : U64) : topBits z < 2 ^ 53 := by
  rw [topBits, BitVec.toNat_ushiftRight, Nat.shiftRight_eq_div_pow]
  have := z.isLt
  omega

/-- 2^-53 in units of 2^-1074: what the uniforms are whole multiples of. -/
def uniformUnit : Nat := 2 ^ 1021

theorem unitsPerOne_eq_mul : F64.unitsPerOne = 2 ^ 53 * uniformUnit := by decide +kernel

theorem uniformUnit_cast : (uniformUnit : Int) = 2 ^ 1021 := by rw [uniformUnit, Nat.cast_pow, Nat.cast_two]

theorem uniformUnit_pos : 0 < uniformUnit := pow_pos two_pos 1021

/-- RNE64 of a multiple of 2^-53 up to 1 is exact. -/
theorem ofRatio_uniform_exact {n : Nat} (hn : n ≤ 2 ^ 53) :
    F64.isFinite (F64.ofRatio false n (2 ^ 53)) = true ∧ F64.scaled (F64.ofRatio false n (2 ^ 53)) = n * uniformUnit := by
  obtain ⟨hfin, hmag⟩ := F64.ofRatio_exact (num := n) (den := 2 ^ 53) (k := 1021) false (by positivity) hn
    ((Nat.mul_le_mul_right _ hn).trans_lt (by decide +kernel)) (by rw [unitsPerOne_eq_mul, uniformUnit, mul_left_comm])
  exact ⟨hfin, by rw [F64.scaled_of_sign_false (F64.sign_ofRatio ..), hmag, ← uniformUnit, Nat.cast_mul]⟩

/-- 43_noise.md R211: the uniform is the top 53 bits over 2^53. -/
theorem uniform_eq (z : U64) : uniform z = F64.ofRatio false (topBits z) (2 ^ 53) := by
  obtain ⟨hfin, hmag⟩ := F64.ofNat_exact (topBits_lt z).le
  have hsign : F64.sign (F64.ofNat (topBits z)) = false := F64.sign_ofRatio ..
  have hfactor : F64.isFinite twoToMinus53 = true ∧ F64.scaledMag twoToMinus53 = uniformUnit := by decide +kernel
  rw [uniform, ← topBits, F64.mul_of_isFinite hfin hfactor.1, hmag, hfactor.2, hsign,
    show (false != F64.sign twoToMinus53) = false by decide]
  refine F64.ofRatio_congr _ (Nat.mul_pos F64.unitsPerOne_pos F64.unitsPerOne_pos) (by positivity) ?_
  conv_rhs => rw [unitsPerOne_eq_mul]
  conv_lhs => rw [unitsPerOne_eq_mul]
  ring

theorem uniform_exact (z : U64) :
    F64.isFinite (uniform z) = true ∧ F64.scaled (uniform z) = topBits z * uniformUnit := by
  rw [uniform_eq]
  exact ofRatio_uniform_exact (topBits_lt z).le

/-- 43_noise.md R211: 1 - u is exact too, since both are multiples of 2^-53. -/
theorem one_sub_uniform_eq (z : U64) :
    F64.sub F64.one (uniform z) = F64.ofRatio false (2 ^ 53 - topBits z) (2 ^ 53) := by
  have hlt := topBits_lt z
  obtain ⟨hfin, hscaled⟩ := uniform_exact z
  have hone : F64.isFinite F64.one = true ∧ F64.scaled F64.one = 2 ^ 53 * uniformUnit := by decide +kernel
  have hsum : F64.scaled F64.one + F64.scaled (F64.neg (uniform z)) = ((2 ^ 53 - topBits z) * uniformUnit : Nat) := by
    rw [F64.scaled_neg (F64.isNaN_of_isFinite hfin), hscaled, hone.2, Nat.cast_mul, Nat.cast_sub hlt.le]
    push_cast
    ring
  have hpos : 0 < (2 ^ 53 - topBits z) * uniformUnit := Nat.mul_pos (by omega) uniformUnit_pos
  rw [F64.sub, F64.add_of_isFinite hone.1 (F64.isFinite_neg hfin), hsum, if_neg (by exact_mod_cast hpos.ne'), F64.ofScaled,
    Int.natAbs_natCast, decide_eq_false (Int.natCast_nonneg _).not_gt]
  refine F64.ofRatio_congr false F64.unitsPerOne_pos (by positivity) ?_
  rw [unitsPerOne_eq_mul]
  ring

theorem one_sub_uniform_exact (z : U64) :
    F64.isFinite (F64.sub F64.one (uniform z)) = true ∧
      F64.scaled (F64.sub F64.one (uniform z)) = (2 ^ 53 - topBits z) * uniformUnit := by
  obtain ⟨hfin, hscaled⟩ := ofRatio_uniform_exact (Nat.sub_le (2 ^ 53) (topBits z))
  rw [Nat.cast_sub (topBits_lt z).le] at hscaled
  rw [one_sub_uniform_eq]
  exact ⟨hfin, hscaled⟩

end Machine

open Machine

/-- Settles O37: the product and the difference of multiples of 2^-53 are exact, and gauss_pair() is Box–Muller of them by
definition. -/
theorem uniformsAreExact : Obligations.UniformsAreExact := by
  refine ⟨fun z => ?_, ?_⟩
  · obtain ⟨hfin, hscaled⟩ := uniform_exact z
    obtain ⟨hfin', hscaled'⟩ := one_sub_uniform_exact z
    have hpos : (0 : Int) < (2 ^ 53 - topBits z) * uniformUnit :=
      mul_pos (by have := topBits_lt z; omega) (by exact_mod_cast uniformUnit_pos)
    rw [hscaled, hscaled']
    exact ⟨by rw [uniformUnit_cast]; rfl, by rw [uniformUnit_cast]; rfl, hfin, hfin', hpos⟩
  · rintro num z _ _ _ _ _ _ rfl rfl rfl rfl rfl rfl
    rw [gaussPair, boxMuller, one_sub_uniform_eq, uniform_eq]
    rfl

end Sys2Proof
end

section
/-! PROOF. How far RNE64, RNE32 and the square root are from the exact result (00_scope.md R11): half a unit in the last place, which
is 2^-53 or 2^-24 of the result, or of the least normal value where the result is smaller. -/

namespace Sys2Proof

open Rounding Safety

namespace Rounding

variable {frac b : Nat} {v : ℚ}

/-- The step from a pattern to the next one is at most 2^-frac of its value, or of the least normal value. -/
theorem units_step_le (frac b : Nat) :
    2 ^ frac * ((units frac (b + 1) : ℚ) - units frac b) ≤ max (units frac b : ℚ) (2 ^ frac) := by
  obtain ⟨k, q, rfl, hlow, hhigh⟩ := exists_step_significand frac b
  rw [add_assoc, units_eq hlow hhigh.le, units_eq (hlow.imp_left Nat.le_succ_of_le) hhigh]
  push_cast
  rw [show (2 : ℚ) ^ frac * ((q + 1) * 2 ^ k - q * 2 ^ k) = 2 ^ frac * 2 ^ k by ring]
  rcases hlow with hq | rfl
  · have hq' : (2 : ℚ) ^ frac ≤ q := by exact_mod_cast hq
    exact le_max_of_le_left (mul_le_mul_of_nonneg_right hq' (by positivity))
  · exact le_max_of_le_right (by simp)

/-- The nearest pattern is at most 2^-(frac + 1) of the number away, or of the least normal value. -/
theorem Nearest.error_le (h : Nearest frac v b) (hv : 0 ≤ v) :
    2 ^ (frac + 1) * |(units frac b : ℚ) - v| ≤ max v (2 ^ frac) := by
  have hp : (0 : ℚ) < 2 ^ frac := by positivity
  have habove : 2 ^ frac * (2 * v - 2 * units frac b) ≤ max (units frac b : ℚ) (2 ^ frac) :=
    (mul_le_mul_of_nonneg_left (by linarith [h.above]) hp.le).trans (units_step_le frac b)
  rw [pow_succ]
  rcases le_or_gt (units frac b : ℚ) v with hle | hlt
  · rw [abs_of_nonpos (by linarith)]
    linarith [max_le_max_right ((2 : ℚ) ^ frac) hle]
  · obtain ⟨c, rfl⟩ : ∃ c, b = c + 1 := Nat.exists_eq_succ_of_ne_zero fun h0 => by
      rw [h0, units_zero, Nat.cast_zero] at hlt
      linarith
    have hbelow := h.below c rfl
    have hc : (units frac c : ℚ) ≤ v := by linarith [units_lt_cast (frac := frac) c.lt_succ_self]
    have hstep : 2 ^ frac * (2 * (units frac (c + 1) : ℚ) - 2 * v) ≤ max (units frac c : ℚ) (2 ^ frac) :=
      (mul_le_mul_of_nonneg_left (by linarith) hp.le).trans (units_step_le frac c)
    rw [abs_of_pos (by linarith)]
    linarith [max_le_max_right ((2 : ℚ) ^ frac) hc]

/-- The same in another unit: u units of the pattern make 1. -/
theorem Nearest.scaled_error_le {r : ℝ} {u : Nat} (hu : 0 < u) (h : Nearest frac v b) (hv : 0 ≤ v) (hr : r = v / u) :
    2 ^ (frac + 1) * |(units frac b : ℝ) / u - r| ≤ max r (2 ^ frac / u) := by
  have hu' : (0 : ℝ) < u := by exact_mod_cast hu
  have herr : (2 : ℝ) ^ (frac + 1) * |(units frac b : ℝ) - v| ≤ max (v : ℝ) (2 ^ frac) := by exact_mod_cast h.error_le hv
  rw [hr, ← sub_div, abs_div, abs_of_pos hu', max_div_div_right hu'.le, ← mul_div_assoc]
  exact div_le_div_of_nonneg_right herr hu'.le

end Rounding

namespace F64

/-! ### RNE64 -/

theorem leastNormal_eq : (2 : ℝ) ^ 52 / unitsPerOne = 2 ^ (-1022 : ℤ) := by
  rw [unitsPerOne_cast, ← zpow_natCast, ← zpow_natCast, ← zpow_sub₀ two_ne_zero]
  norm_num

/-- Two values with the same sign differ as their magnitudes do. -/
theorem abs_signFactor_mul_sub (neg : Bool) (a b : ℝ) : |signFactor neg * a - signFactor neg * b| = |a - b| := by
  rw [← mul_sub, abs_mul, ← Int.cast_abs, abs_signFactor, Int.cast_one, one_mul]

theorem abs_value_cast (x : F64) : |(value x : ℝ)| = scaledMag x / unitsPerOne := by
  rw [value_cast_eq, mul_div_assoc, abs_mul, ← Int.cast_abs, abs_signFactor, Int.cast_one, one_mul,
    abs_of_nonneg (div_nonneg (Nat.cast_nonneg _) (Nat.cast_nonneg _))]

theorem ofRatio_error_le (neg : Bool) {num den : Nat} (hd : 0 < den) (hfin : isFinite (ofRatio neg num den) = true) {r : ℝ}
    (hr : r = signFactor neg * (num / den)) :
    2 ^ 53 * |(value (ofRatio neg num den) : ℝ) - r| ≤ max |r| (2 ^ (-1022 : ℤ)) := by
  have hlt : num < den * overflowBound := by
    by_contra! hle
    rw [isFinite_of_isInf ((isInf_ofRatio_iff neg hd).2 hle)] at hfin
    cases hfin
  have hu : (unitsPerOne : ℝ) ≠ 0 := by exact_mod_cast unitsPerOne_pos.ne'
  have hratio : (num / den : ℝ) = (ratioUnits num den : ℚ) / unitsPerOne := by
    rw [ratioUnits, eq_div_iff hu]
    push_cast
    ring
  have herr := (nearest_ofRatio neg hd hlt).scaled_error_le unitsPerOne_pos (ratioUnits_nonneg num den) hratio
  have habs : |r| = num / den := by
    rw [hr, abs_mul, ← Int.cast_abs, abs_signFactor, Int.cast_one, one_mul,
      abs_of_nonneg (div_nonneg (Nat.cast_nonneg _) (Nat.cast_nonneg _))]
  rw [value_cast_eq, sign_ofRatio, hr, mul_div_assoc, abs_signFactor_mul_sub, ← hr, habs, scaledMag64_eq_units]
  rwa [leastNormal_eq] at herr

theorem abs_lt_of_isRounded_of_isFinite {r : ℝ} {x : F64} (h : IsRounded r x) (hfin : isFinite x = true) :
    |r| < 2 ^ 1024 - 2 ^ 970 := by
  refine not_le.1 fun hle => ?_
  have hx := h.overflow hle
  split at hx <;> (rw [hx] at hfin; exact absurd hfin (by decide))

/-- 00_scope.md R11: a finite result of RNE64 is at most 2^-53 of the exact one away, or of the least normal value. -/
theorem rounded_error_le {q : ℚ} {r : ℝ} {x : F64} (h : IsRounded r x) (hq : r = q) (hfin : isFinite x = true) :
    |(value x : ℝ) - r| ≤ 2 ^ (-53 : ℤ) * max |r| (2 ^ (-1022 : ℤ)) := by
  have hlt := abs_lt_of_isRounded_of_isFinite h hfin
  obtain ⟨neg, num, den, hd, hr⟩ : ∃ neg num den, 0 < den ∧ r = signFactor neg * ((num : Nat) / (den : Nat)) := by
    refine ⟨decide (q < 0), q.num.natAbs, q.den, q.den_pos, ?_⟩
    rw [hq]
    conv_lhs => rw [← Rat.num_div_den q]
    rcases lt_or_ge q 0 with hneg | hpos
    · have : (q.num.natAbs : ℝ) = -q.num := by
        rw [← Int.cast_natCast, Int.natCast_natAbs, abs_of_neg (Rat.num_neg.2 hneg), Int.cast_neg]
      simp [signFactor, hneg, this, neg_div]
    · have : (q.num.natAbs : ℝ) = q.num := by
        rw [← Int.cast_natCast, Int.natCast_natAbs, abs_of_nonneg (Rat.num_nonneg.2 hpos)]
      simp [signFactor, hpos.not_gt, this]
  have hround := isRounded_ofRatio neg num hd (hr.trans (mul_div_assoc _ _ _).symm)
  have herr := ofRatio_error_le neg hd (hround.finite hlt) hr
  have hnear := h.nearest hlt _ (hround.finite hlt)
  rw [zpow_neg, ← div_eq_inv_mul, le_div_iff₀ (by positivity), mul_comm]
  exact (mul_le_mul_of_nonneg_left hnear (by positivity)).trans herr

section
variable {x y : F64}

theorem mul_error_le (hx : isFinite x = true) (hy : isFinite y = true) (h : isFinite (mul x y) = true) :
    |(value (mul x y) : ℝ) - value x * value y| ≤ 2 ^ (-53 : ℤ) * max |(value x : ℝ) * value y| (2 ^ (-1022 : ℤ)) :=
  rounded_error_le (q := value x * value y) (isRounded_mul hx hy) (by push_cast; rfl) h

theorem add_error_le (hx : isFinite x = true) (hy : isFinite y = true) (h : isFinite (add x y) = true) :
    |(value (add x y) : ℝ) - (value x + value y)| ≤ 2 ^ (-53 : ℤ) * max |(value x : ℝ) + value y| (2 ^ (-1022 : ℤ)) :=
  rounded_error_le (q := value x + value y) (isRounded_add hx hy) (by push_cast; rfl) h

theorem div_error_le (hx : isFinite x = true) (hy : isFinite y = true) (h0 : isZero y = false)
    (h : isFinite (div x y) = true) :
    |(value (div x y) : ℝ) - value x / value y| ≤ 2 ^ (-53 : ℤ) * max |(value x : ℝ) / value y| (2 ^ (-1022 : ℤ)) :=
  rounded_error_le (q := value x / value y) (isRounded_div hx hy h0) (by push_cast; rfl) h

/-! ### RNE32 -/

theorem leastNormal32_eq : (2 : ℝ) ^ 23 / (2 ^ 149 : Nat) = 2 ^ (-126 : ℤ) := by
  rw [Nat.cast_pow, Nat.cast_two, ← zpow_natCast, ← zpow_natCast, ← zpow_sub₀ two_ne_zero]
  norm_num

/-- The value of a finite binary32 pattern. -/
theorem value32_cast_eq {y : F32} (hn : F32.isNaN y = false) (hi : F32.isInf y = false) :
    (F32.value y : ℝ) = signFactor y.msb * (F32.scaledMag y / (2 ^ 149 : Nat)) := by
  have hsign : sign (F32.widen y) = y.msb := ((F32.wideningIsExact y).2.2 hn hi).2.1
  have hu : (F32.unit64 : ℝ) ≠ 0 := by exact_mod_cast F32.unit64_pos.ne'
  rw [F32.value, value_cast_eq, F32.scaledMag_widen hn hi, hsign, F32.unitsPerOne_eq, mul_div_assoc, Nat.cast_mul,
    Nat.cast_mul, mul_comm (F32.unit64 : ℝ), mul_div_mul_right _ _ hu]

/-- 00_scope.md R11: below the bound RNE32 is finite, and at most 2^-24 of its operand away, or of the least normal value. -/
theorem toF32_error_le (hx : isFinite x = true) (hlt : scaledMag x < overflowBound32) :
    F32.isNaN (toF32 x) = false ∧ F32.isInf (toF32 x) = false ∧
      |(F32.value (toF32 x) : ℝ) - value x| ≤ 2 ^ (-24 : ℤ) * max |(value x : ℝ)| (2 ^ (-126 : ℤ)) := by
  obtain ⟨b, hb, hmag, hsign⟩ := exists_nearest_toF32 hx
  have hfin := (nearest32_finite_iff hb).2 hlt
  rw [min_eq_left hfin.le] at hmag
  have hn : F32.isNaN (toF32 x) = false := F32.isNaN_eq_false_iff.2 (hmag ▸ hfin.le)
  have hi : F32.isInf (toF32 x) = false := decide_eq_false (hmag ▸ hfin.ne)
  have hratio : (scaledMag x / unitsPerOne : ℝ) = ((scaledMag x / F32.unit64 : ℚ) : ℝ) / (2 ^ 149 : Nat) := by
    rw [F32.unitsPerOne_eq, Nat.cast_mul, Rat.cast_div, Rat.cast_natCast, Rat.cast_natCast, div_div]
  have herr := hb.scaled_error_le (pow_pos two_pos 149) (div_nonneg (Nat.cast_nonneg _) (Nat.cast_nonneg _)) hratio
  refine ⟨hn, hi, ?_⟩
  rw [abs_value_cast, value32_cast_eq hn hi, hsign, value_cast_eq x, mul_div_assoc, abs_signFactor_mul_sub,
    scaledMag32_eq_units, hmag, zpow_neg, ← div_eq_inv_mul, le_div_iff₀ (by positivity), mul_comm]
  rwa [leastNormal32_eq] at herr

/-! ### The square root -/

/-- A number whose root is within a relative e of s is near s². -/
theorem abs_sq_sub_le_of_root_bounds {s m e : ℝ} (he : 0 ≤ e) (he1 : e ≤ 1 / 8) (hlow : (s * (1 - e)) ^ 2 ≤ m)
    (hhigh : m ≤ (s * (1 + e)) ^ 2) : |s ^ 2 - m| ≤ 4 * e * m := by
  have hs2 := sq_nonneg s
  refine abs_le.2 ⟨?_, ?_⟩
  · nlinarith [mul_nonneg he hs2, mul_nonneg (mul_nonneg he he) hs2]
  · nlinarith [mul_nonneg he hs2, mul_nonneg (mul_nonneg he he) hs2]

/-- A value and the next smaller or greater one of a normal number differ by at most 2^-52 of it. -/
theorem units_neighbours {c : Nat} (hc : 2 ^ 52 ≤ c) :
    (units 52 (c + 1) + units 52 (c + 2) : ℝ) ≤ 2 * (units 52 (c + 1) * (1 + 2 ^ (-53 : ℤ))) ∧
      2 * (units 52 (c + 1) * (1 - 2 ^ (-53 : ℤ))) ≤ (units 52 (c + 1) + units 52 c : ℝ) := by
  have hnormal : (2 : ℝ) ^ 52 ≤ units 52 c := by
    have h := (units_strictMono 52).monotone hc
    rw [show units 52 (2 ^ 52) = 2 ^ 52 by decide] at h
    exact_mod_cast h
  have hlt : (units 52 c : ℝ) < units 52 (c + 1) := by exact_mod_cast units_strictMono 52 c.lt_succ_self
  have hstep : ∀ n, (2 : ℝ) ^ 52 * (units 52 (n + 1) - units 52 n) ≤ max (units 52 n : ℝ) (2 ^ 52) := fun n => by
    exact_mod_cast units_step_le 52 n
  have hup := hstep (c + 1)
  have hdown := hstep c
  rw [max_eq_left (by linarith)] at hup hdown
  norm_num at hup hdown ⊢
  exact ⟨by linarith, by linarith⟩

/-- In units of 2^-1074 the exact root lies within a relative 2^-53 of the root that `sqrt` gives. -/
theorem sqrt_bounds (hx : isFinite x = true) (h0 : isZero x = false) (hs : sign x = false) :
    (scaledMag (sqrt x) * (1 - 2 ^ (-53 : ℤ)) : ℝ) ^ 2 ≤ scaledMag x * unitsPerOne ∧
      (scaledMag x * unitsPerOne : ℝ) ≤ (scaledMag (sqrt x) * (1 + 2 ^ (-53 : ℤ))) ^ 2 := by
  have hgrid := le_magBits_sqrt hx h0 hs
  have habove := sqrt_le_middle_above hx h0 hs (Nat.lt_succ_self _)
  have hbelow := middle_below_le_sqrt hx h0 hs (c := magBits (sqrt x) - 1) (by omega)
  rw [scaledMag64_eq_units (sqrt x)] at *
  generalize magBits (sqrt x) = b at *
  obtain ⟨c, rfl⟩ : ∃ c, b = c + 1 := ⟨b - 1, by omega⟩
  obtain ⟨hnext, hprev⟩ := units_neighbours (c := c) (by omega)
  have habove' : (4 * scaledMag x * unitsPerOne : ℝ) ≤ (units 52 (c + 1) + units 52 (c + 2)) ^ 2 := by exact_mod_cast habove
  have hbelow' : (units 52 (c + 1) + units 52 c : ℝ) ^ 2 ≤ 4 * scaledMag x * unitsPerOne := by exact_mod_cast hbelow
  have hprev0 : (0 : ℝ) ≤ units 52 (c + 1) * (1 - 2 ^ (-53 : ℤ)) := mul_nonneg (Nat.cast_nonneg _) (by norm_num)
  have hsq := pow_le_pow_left₀ (by linarith) hprev 2
  have hsq' := pow_le_pow_left₀ (add_nonneg (Nat.cast_nonneg _) (Nat.cast_nonneg _)) hnext 2
  rw [mul_pow] at hsq hsq'
  exact ⟨by linarith, by linarith⟩

/-- The square of the root of a positive value is at most a relative 2^-51 of it away. -/
theorem sqrt_error_le (hx : isFinite x = true) (h0 : isZero x = false) (hs : sign x = false) :
    |(value (sqrt x) : ℝ) ^ 2 - value x| ≤ 2 ^ (-51 : ℤ) * value x := by
  obtain ⟨-, hsign, -⟩ := nearest_sqrt hx h0 hs
  obtain ⟨hlow, hhigh⟩ := sqrt_bounds hx h0 hs
  have hvalue : ∀ {y : F64}, sign y = false → (value y : ℝ) = scaledMag y / unitsPerOne := fun hy => by
    rw [value_cast_eq, hy, show signFactor false = 1 from rfl, Int.cast_one, one_mul]
  have hu : (0 : ℝ) < unitsPerOne := by exact_mod_cast unitsPerOne_pos
  have herr := abs_sq_sub_le_of_root_bounds (by positivity) (by norm_num) hlow hhigh
  rw [hvalue hsign, hvalue hs]
  generalize (unitsPerOne : ℝ) = u at *
  rw [div_pow, ← mul_div_mul_right _ u hu.ne', ← pow_two, ← sub_div, abs_div, abs_of_pos (pow_pos hu 2), ← mul_div_assoc]
  exact div_le_div_of_nonneg_right (herr.trans_eq (by norm_num)) (pow_pos hu 2).le

end
end F64
end Sys2Proof
end

section
/-! PROOF. Free Gaussian draws (43_noise.md R227): their mean power, and the strong law of large numbers for the measured SNR. -/

namespace Sys2Proof.Safety.GaussianDraws

open MeasureTheory ProbabilityTheory Filter Finset

variable {Ω : Type} [MeasurableSpace Ω] {μ : Measure Ω} {g : Nat → Ω → ℝ}

/-- Each draw has the distribution of the standard Gaussian measure. -/
theorem identDistrib_id (h : GaussianDraws μ g) (k : Nat) : IdentDistrib (g k) id μ (gaussianReal 0 1) where
  aemeasurable_fst := (h.measurable k).aemeasurable
  aemeasurable_snd := aemeasurable_id
  map_eq := by rw [h.standard k, Measure.map_id]

theorem identDistrib_sq (h : GaussianDraws μ g) (k : Nat) :
    IdentDistrib (fun ω => g k ω ^ 2) (fun x => x ^ 2) μ (gaussianReal 0 1) :=
  (h.identDistrib_id k).comp (measurable_id.pow_const 2)

theorem integrable_sq (h : GaussianDraws μ g) (k : Nat) : Integrable (fun ω => g k ω ^ 2) μ :=
  (h.identDistrib_sq k).integrable_iff.2 (memLp_id_gaussianReal 2).integrable_sq

/-- The mean power of one draw is 1. -/
theorem integral_sq (h : GaussianDraws μ g) (k : Nat) : ∫ ω, g k ω ^ 2 ∂μ = 1 := by
  rw [(h.identDistrib_sq k).integral_eq, ← variance_of_integral_eq_zero aemeasurable_id' integral_id_gaussianReal,
    variance_fun_id_gaussianReal]
  rfl

/-- The mean of the noise power over n samples, two draws scaled by σ each, is 2σ². -/
theorem integral_mean_power (h : GaussianDraws μ g) (sigma : ℝ) {n : Nat} (hn : 0 < n) :
    ∫ ω, (∑ k ∈ range (2 * n), (sigma * g k ω) ^ 2) / n ∂μ = 2 * sigma ^ 2 := by
  have hn' : (n : ℝ) ≠ 0 := by exact_mod_cast hn.ne'
  simp only [mul_pow]
  rw [integral_div, integral_finsetSum _ fun k _ => (h.integrable_sq k).const_mul _]
  simp only [integral_const_mul, h.integral_sq, sum_const, card_range, nsmul_eq_mul]
  push_cast
  field_simp

/-- With probability 1 the mean power of the first n draws converges to 1. -/
theorem tendsto_mean_sq (h : GaussianDraws μ g) :
    ∀ᵐ ω ∂μ, Tendsto (fun n : Nat => (∑ k ∈ range n, g k ω ^ 2) / n) atTop (nhds 1) := by
  have hlaw := strong_law_ae_real (fun k ω => g k ω ^ 2) (h.integrable_sq 0)
    (fun i j hij => (h.independent.indepFun hij).comp (measurable_id.pow_const 2) (measurable_id.pow_const 2))
    (fun k => (h.identDistrib_sq k).trans (h.identDistrib_sq 0).symm)
  rwa [h.integral_sq 0] at hlaw

/-- With probability 1 the noise power of n samples converges to 2σ². -/
theorem tendsto_mean_power (h : GaussianDraws μ g) (sigma : ℝ) :
    ∀ᵐ ω ∂μ, Tendsto (fun n : Nat => (∑ k ∈ range (2 * n), (sigma * g k ω) ^ 2) / n) atTop (nhds (2 * sigma ^ 2)) := by
  filter_upwards [h.tendsto_mean_sq] with ω hω
  have hdouble := (hω.comp (tendsto_id.const_mul_atTop' two_pos)).const_mul (2 * sigma ^ 2)
  rw [mul_one] at hdouble
  refine hdouble.congr fun n => ?_
  simp only [Function.comp_apply, id_eq, mul_pow, ← mul_sum]
  push_cast
  rw [← mul_div_mul_left _ (n : ℝ) two_ne_zero]
  ring

/-- With probability 1 the measured SNR in dB converges to that of the mean noise power. -/
theorem tendsto_measured_snr (h : GaussianDraws μ g) {energy sigma : ℝ} (he : 0 < energy) (hs : sigma ≠ 0) :
    ∀ᵐ ω ∂μ, Tendsto
      (fun n : Nat => 10 * Real.logb 10 (energy / ((∑ k ∈ range (2 * n), (sigma * g k ω) ^ 2) / n)))
      atTop (nhds (10 * Real.logb 10 (energy / (2 * sigma ^ 2)))) := by
  have hpower : 2 * sigma ^ 2 ≠ 0 := mul_ne_zero two_ne_zero (pow_ne_zero 2 hs)
  filter_upwards [h.tendsto_mean_power sigma] with ω hω
  exact ((tendsto_const_nhds.div hω hpower).logb (div_ne_zero he.ne' hpower)).const_mul 10

end Sys2Proof.Safety.GaussianDraws
end

section
/-! PROOF. The variance of NOISE_APPLY and its root (43_noise.md R222 to R224): the errors of its operations together, and in dB. -/

namespace Sys2Proof

open Rounding Safety

namespace F64

/-! ### Operands of finite results -/

/-- A finite nonzero quotient has finite operands, and its divisor is no zero. -/
theorem isFinite_of_isFinite_div {x y : F64} (h : isFinite (div x y) = true) (h0 : value (div x y) ≠ 0) :
    isFinite x = true ∧ isFinite y = true ∧ isZero y = false := by
  have hnan : ¬ (isNaN x = true ∨ isNaN y = true) := fun hn => by
    rw [div_of_isNaN hn] at h
    cases h
  obtain ⟨hnx, hny⟩ : isNaN x = false ∧ isNaN y = false := by simpa using hnan
  have hix : isInf x = false := Bool.eq_false_iff.2 fun hi => by
    rw [div_of_isInf_left hny hi] at h
    split_ifs at h <;> cases h
  have hiy : isInf y = false := Bool.eq_false_iff.2 fun hi => by
    rw [div_of_isInf_right hnx hix hi, Ne, value_eq_zero_iff] at h0
    split_ifs at h0 <;> exact h0 rfl
  have hzy : isZero y = false := Bool.eq_false_iff.2 fun hz => by
    rw [div_of_isZero hnx hix hz] at h
    split_ifs at h <;> cases h
  exact ⟨isFinite_of_not_isNaN_not_isInf hnx hix, isFinite_of_not_isNaN_not_isInf hny hiy, hzy⟩

/-- A number above 0 and at most 1 is finite (43_noise.md R221 check 3). -/
theorem isFinite_of_pos_of_le_one {x : F64} (hpos : lt 0#64 x = true) (hle : le x one = true) : isFinite x = true := by
  refine isFinite_of_not_isNaN_not_isInf (Bool.eq_false_iff.2 fun hn => ?_) (Bool.eq_false_iff.2 fun hi => ?_)
  · rw [lt_of_isNaN (.inr hn)] at hpos
    cases hpos
  · have hx := eq_inf_of_isInf hi
    split at hx
    · rw [hx] at hpos
      exact absurd hpos (by decide)
    · rw [hx] at hle
      exact absurd hle (by decide)

theorem sign_of_value_pos {x : F64} (h : 0 < value x) : sign x = false := by
  rw [value, div_pos_iff_of_pos_right (pow_pos two_pos _), Int.cast_pos, scaled_eq] at h
  cases hs : sign x with
  | false => rfl
  | true =>
    rw [hs, show signFactor true = -1 from rfl] at h
    omega

/-- The rates that pass check 3 of 43_noise.md R221 are the finite values above 0 and at most 1. -/
theorem rate_bounds {x : F64} (hpos : lt 0#64 x = true) (hle : le x one = true) :
    isFinite x = true ∧ 0 < value x ∧ scaledMag x ≤ unitsPerOne := by
  have hx := isFinite_of_pos_of_le_one hpos hle
  have hvalue : 0 < value x := by
    have h := (lt_iff_value_lt (by decide) hx).1 hpos
    rwa [(value_eq_zero_iff 0#64).2 (by decide)] at h
  have hone : isFinite one = true ∧ scaled one = unitsPerOne := by decide +kernel
  rw [le_of_isFinite hx hone.1, decide_eq_true_iff, hone.2, scaled_of_sign_false (sign_of_value_pos hvalue)] at hle
  exact ⟨hx, hvalue, by exact_mod_cast hle⟩

/-- Twice a value up to 1 is exact, a subnormal one too. -/
theorem double_exact {x : F64} (hx : isFinite x = true) (hle : scaledMag x ≤ unitsPerOne) :
    isFinite (mul Config.varianceFactor x) = true ∧ value (mul Config.varianceFactor x) = 2 * value x := by
  have htwo : isFinite Config.varianceFactor = true ∧ scaledMag Config.varianceFactor = 2 * unitsPerOne ∧
      sign Config.varianceFactor = false := by decide +kernel
  obtain ⟨hfin2, hmag2, hsign2⟩ := htwo
  obtain ⟨k, q, hb, hlow, hhigh⟩ := exists_step_significand 52 (magBits x)
  have hmag : scaledMag x = q * 2 ^ k := by rw [scaledMag64_eq_units, hb, units_eq hlow hhigh.le]
  have hdouble : q * 2 ^ (k + 1) = 2 * scaledMag x := by rw [hmag, pow_succ]; ring
  obtain ⟨hfin, hexact⟩ := ofRatio_exact (num := 2 * unitsPerOne * scaledMag x) (den := unitsPerOne * unitsPerOne) (k := k + 1)
    (sign x) (Nat.mul_pos unitsPerOne_pos unitsPerOne_pos) hhigh.le
    (hdouble ▸ (Nat.mul_le_mul_left 2 hle).trans_lt (by decide +kernel)) (by rw [hdouble]; ring)
  rw [mul_of_isFinite hfin2 hx, hmag2, hsign2, Bool.false_bne]
  refine ⟨hfin, ?_⟩
  rw [value_eq, sign_ofRatio, hexact, hdouble, value_eq, Nat.cast_mul, Nat.cast_two, mul_left_comm,
    mul_div_assoc]

end F64

namespace Machine

/-! ### Errors together -/

/-- A divisor with a relative error e and a quotient with another one: the product with the exact divisor is near the dividend. -/
theorem quotient_times_divisor_close {a d v x n e : ℝ} (he : 0 ≤ e) (he8 : e ≤ 1 / 8) (ha : 0 < a) (hd : |d - a| ≤ e * a)
    (hn : 0 < n) (hv : n ≤ v) (hq : |v - x / d| ≤ e * max |x / d| n) : 0 < x ∧ |v * a - x| ≤ 4 * e * x := by
  obtain ⟨hd1, hd2⟩ := abs_le.1 hd
  have hdpos : 0 < d := by nlinarith
  obtain ⟨q, rfl⟩ : ∃ q, x = q * d := ⟨x / d, (div_mul_cancel₀ x hdpos.ne').symm⟩
  rw [mul_div_cancel_right₀ _ hdpos.ne'] at hq
  have hqpos : 0 < q := by
    by_contra! hle
    have hmax : max |q| n ≤ v - q := max_le (by rw [abs_of_nonpos hle]; linarith) (by linarith)
    have := (le_abs_self (v - q)).trans hq
    nlinarith
  rw [abs_of_pos hqpos] at hq
  have hvq : |v - q| ≤ 2 * e * q := by
    rcases le_total n q with h | h
    · rw [max_eq_left h] at hq
      nlinarith
    · rw [max_eq_right h] at hq
      have := (abs_le.1 hq).2
      nlinarith
  refine ⟨mul_pos hqpos hdpos, ?_⟩
  calc |v * a - q * d| = |(v - q) * a + q * (a - d)| := by ring_nf
    _ ≤ |v - q| * a + q * |d - a| := by
        refine (abs_add_le _ _).trans_eq ?_
        rw [abs_mul, abs_mul, abs_of_pos ha, abs_of_pos hqpos, abs_sub_comm a d]
    _ ≤ 2 * e * q * a + q * (e * a) := by gcongr
    _ = 3 * e * q * a := by ring
    _ ≤ 4 * e * (q * d) := by
        have hda : 3 * a ≤ 4 * d := by nlinarith
        nlinarith [mul_le_mul_of_nonneg_left hda (mul_nonneg he hqpos.le)]

/-- A ratio within e of 1 is within 2e of 0 in the logarithm to base 10. -/
theorem abs_logb_le {a e : ℝ} (he : e ≤ 1 / 2) (ha : |a - 1| ≤ e) : |Real.logb 10 a| ≤ 2 * e := by
  obtain ⟨h1, h2⟩ := abs_le.1 ha
  have hpos : 0 < a := by linarith
  have hten : 1 ≤ Real.log 10 := by
    rw [Real.le_log_iff_exp_le (by norm_num)]
    linarith [Real.exp_one_lt_three]
  have hlog : |Real.log a| ≤ 2 * e := by
    refine abs_le.2 ⟨?_, by linarith [Real.log_le_sub_one_of_pos hpos]⟩
    refine le_trans ?_ (Real.one_sub_inv_le_log_of_pos hpos)
    have : a⁻¹ ≤ 1 + 2 * e := by
      rw [inv_le_iff_one_le_mul₀ hpos]
      nlinarith
    linarith
  rw [Real.logb, abs_div, abs_of_pos (zero_lt_one.trans_le hten)]
  exact (div_le_self (abs_nonneg _) hten).trans hlog

/-- Relative errors e of E and of σ² are at most 40e in dB. -/
theorem snr_dB_close {energy var sigma2 r lin snr e : ℝ} (he2 : e ≤ 1 / 2) (hE : 0 < energy) (hvar : 0 < var) (hr : 0 < r)
    (hlin : 0 < lin) (h1 : |2 * var * (r * lin) - energy| ≤ e * energy) (h2 : |sigma2 - var| ≤ e * var) :
    |10 * Real.logb 10 (energy / (2 * sigma2)) - (snr + 10 * Real.logb 10 r)| ≤
      |10 * Real.logb 10 lin - snr| + 40 * e := by
  have hs : 0 < sigma2 := by nlinarith [(abs_le.1 h2).1]
  have hrel : ∀ {x y : ℝ}, 0 < y → |x - y| ≤ e * y → |x / y - 1| ≤ e := fun {x y} hy h => by
    rwa [← div_self hy.ne', ← sub_div, abs_div, abs_of_pos hy, div_le_iff₀ hy]
  have ha := abs_logb_le he2 (hrel hE h1)
  have hb := abs_logb_le he2 (hrel hvar h2)
  have hsplit : Real.logb 10 (energy / (2 * sigma2)) = Real.logb 10 r + Real.logb 10 lin -
      Real.logb 10 (2 * var * (r * lin) / energy) - Real.logb 10 (sigma2 / var) := by
    rw [← Real.logb_mul hr.ne' hlin.ne', ← Real.logb_div (by positivity) (by positivity),
      ← Real.logb_div (by positivity) (by positivity)]
    congr 1
    field_simp
  rw [hsplit]
  calc _ = |(10 * Real.logb 10 lin - snr) - 10 * Real.logb 10 (2 * var * (r * lin) / energy) -
        10 * Real.logb 10 (sigma2 / var)| := by congr 1; ring
    _ ≤ |10 * Real.logb 10 lin - snr| + 10 * |Real.logb 10 (2 * var * (r * lin) / energy)| +
        10 * |Real.logb 10 (sigma2 / var)| := by
      refine (abs_sub _ _).trans (add_le_add ((abs_sub _ _).trans ?_) ?_) <;> simp [abs_mul]
    _ ≤ _ := by linarith

/-! ### The variance -/

/-- 43_noise.md R222 to R224: where nothing underflows, 2·var·R·lin is E up to a relative 2^-51. -/
theorem noiseVariance_close {num : Numerics} {snr rate : F64} {xs : List (F32 × F32)} (hpos : F64.lt 0#64 rate = true)
    (hle : F64.le rate F64.one = true) (hlinFin : F64.isFinite (linearSnr num snr) = true)
    (hfin : F64.isFinite (noiseVariance num snr rate xs) = true)
    (hnormal : (2 : ℝ) ^ (-1022 : ℤ) ≤ 2 * F64.value rate * F64.value (linearSnr num snr))
    (hvar : (2 : ℝ) ^ (-1022 : ℤ) ≤ F64.value (noiseVariance num snr rate xs)) :
    0 < (F64.value (averageEnergy xs) : ℝ) ∧
      |2 * F64.value (noiseVariance num snr rate xs) * (F64.value rate * F64.value (linearSnr num snr)) -
        (F64.value (averageEnergy xs) : ℝ)| ≤ 2 ^ (-51 : ℤ) * F64.value (averageEnergy xs) := by
  have hleast : (0 : ℝ) < 2 ^ (-1022 : ℤ) := by positivity
  obtain ⟨hrate, -, hrate1⟩ := F64.rate_bounds hpos hle
  obtain ⟨hdoubleFin, hdouble⟩ := F64.double_exact hrate hrate1
  have hvar0 : F64.value (noiseVariance num snr rate xs) ≠ 0 := by exact_mod_cast (hleast.trans_le hvar).ne'
  rw [noiseVariance] at hfin hvar hvar0 ⊢
  obtain ⟨hE, hD, hD0⟩ := F64.isFinite_of_isFinite_div hfin hvar0
  have hdivisor := F64.mul_error_le hdoubleFin hlinFin hD
  rw [hdouble, Rat.cast_mul, Rat.cast_ofNat, abs_of_pos (hleast.trans_le hnormal), max_eq_left hnormal] at hdivisor
  have hquotient := F64.div_error_le hE hD hD0 hfin
  obtain ⟨hpos, hclose⟩ := quotient_times_divisor_close (by positivity) (by norm_num) (hleast.trans_le hnormal) hdivisor
    hleast hvar hquotient
  refine ⟨hpos, ?_⟩
  calc _ = _ := by congr 1; ring
    _ ≤ _ := hclose
    _ = _ := by norm_num

end Machine
end Sys2Proof
end

section
/-! PROOF. What addNoise adds, roundings included (43_noise.md R225, R227): the error of one part of a sample. -/

namespace Sys2Proof

open Rounding Safety

namespace F64

/-! ### Ranges -/

/-- Binary32's range lies inside that of binary64. -/
theorem two_pow_le_overflowBound : (2 : ℝ) ^ 128 ≤ 2 ^ 1024 - 2 ^ 970 := by
  rw [← overflowBound_cast]
  exact_mod_cast (by decide +kernel : 2 ^ 128 ≤ overflowBound)

theorem scaledMag_lt_overflowBound32 {x : F64} (h : |(value x : ℝ)| < 2 ^ 128 - 2 ^ 103) : scaledMag x < overflowBound32 := by
  have hbound : overflowBound32 = (2 ^ 128 - 2 ^ 103) * unitsPerOne := by decide +kernel
  have hu : (0 : ℝ) < unitsPerOne := by exact_mod_cast unitsPerOne_pos
  rw [abs_value_cast, div_lt_iff₀ hu] at h
  rw [hbound, ← Nat.cast_lt (α := ℝ), Nat.cast_mul, Nat.cast_sub (by norm_num)]
  exact_mod_cast h

end F64

namespace Machine

/-! ### One part of a sample -/

/-- Three roundings one after another: of the product p to m, of x + m to t, and of t to f. -/
theorem three_roundings_close {x p m t f n : ℝ} (hn : n ≤ 2 ^ (-200 : ℤ)) (hm : |m - p| ≤ 2 ^ (-53 : ℤ) * (|p| + n))
    (ht : |t - (x + m)| ≤ 2 ^ (-53 : ℤ) * (|x + m| + n)) (hf : |f - t| ≤ 2 ^ (-24 : ℤ) * (|t| + 2 ^ (-126 : ℤ))) :
    |f - x - p| ≤ 2 ^ (-23 : ℤ) * (|x| + |p|) + 2 ^ (-149 : ℤ) := by
  have hxm : |x + m| ≤ |x| + |p| + |m - p| := by
    calc |x + m| = |x + p + (m - p)| := by ring_nf
      _ ≤ _ := abs_add_three _ _ _
  have htabs : |t| ≤ |x + m| + |t - (x + m)| := by
    calc |t| = |(x + m) + (t - (x + m))| := by ring_nf
      _ ≤ _ := abs_add_le _ _
  have hsum : |f - x - p| ≤ |f - t| + |t - (x + m)| + |m - p| := by
    calc |f - x - p| = |(f - t) + (t - (x + m)) + (m - p)| := by ring_nf
      _ ≤ _ := abs_add_three _ _ _
  have := abs_nonneg x
  have := abs_nonneg p
  norm_num at hn hm ht hf ⊢
  linarith

/-- A rounded number is at most a little greater than the exact one. -/
theorem abs_le_of_error {y r n : ℝ} (hn : n ≤ 2 ^ (-200 : ℤ)) (h : |y - r| ≤ 2 ^ (-53 : ℤ) * (|r| + n)) :
    |y| ≤ |r| + 2 ^ (-52 : ℤ) * (|r| + 1) := by
  have hsum : |y| ≤ |r| + |y - r| := by
    calc |y| = |r + (y - r)| := by ring_nf
      _ ≤ _ := abs_add_le _ _
  have := abs_nonneg r
  norm_num at hn h ⊢
  linarith

/-- 43_noise.md R225: one output part is within 2^-23 and 2^-149 of x + σ·g. -/
theorem noisyPart_error_le {sigma g : F64} {x : F32} (hs : F64.isFinite sigma = true) (hg : F64.isFinite g = true)
    (hx : F32.isFinite x = true) (hlt : |F32.value x| + |F64.value sigma * F64.value g| < 2 ^ 127) :
    |(F32.value (noisyPart sigma g x) : ℝ) - F32.value x - F64.value sigma * F64.value g| ≤
      2 ^ (-23 : ℤ) * (|(F32.value x : ℝ)| + |(F64.value sigma * F64.value g : ℝ)|) + 2 ^ (-149 : ℤ) := by
  obtain ⟨hnan, hinf⟩ : F32.isNaN x = false ∧ F32.isInf x = false := by simpa [F32.isFinite] using hx
  have hw := F32.isFinite_widen hnan hinf
  have hlt' : |(F32.value x : ℝ)| + |(F64.value sigma * F64.value g : ℝ)| < 2 ^ 127 := by exact_mod_cast hlt
  have hleast : (2 : ℝ) ^ (-1022 : ℤ) ≤ 2 ^ (-200 : ℤ) := zpow_le_zpow_right₀ one_le_two (by norm_num)
  have hleast0 : (0 : ℝ) < 2 ^ (-1022 : ℤ) := by positivity
  have hweaken : ∀ {e y n : ℝ} {k : ℤ}, 0 ≤ n → e ≤ 2 ^ k * max |y| n → e ≤ 2 ^ k * (|y| + n) := fun hn h =>
    h.trans (mul_le_mul_of_nonneg_left (max_le_add_of_nonneg (abs_nonneg _) hn) (by positivity))
  rw [noisyPart]
  rw [show F32.value x = F64.value (F32.widen x) from rfl] at hlt' ⊢
  generalize F32.widen x = w at *
  have hwAbs := abs_nonneg (F64.value w : ℝ)
  have hmFin := (F64.isRounded_mul hs hg).finite
    (lt_of_lt_of_le (by norm_num at hlt' ⊢; linarith) F64.two_pow_le_overflowBound)
  have hm := hweaken hleast0.le (F64.mul_error_le hs hg hmFin)
  have hsumAbs : |(F64.value w + F64.value (F64.mul sigma g) : ℝ)| ≤ 2 ^ 127 + 2 ^ 76 := by
    have hadd := abs_add_le (F64.value w : ℝ) (F64.value (F64.mul sigma g))
    have hmAbs := abs_le_of_error hleast hm
    norm_num at hlt' hmAbs ⊢
    linarith
  have htFin := (F64.isRounded_add hw hmFin).finite
    (lt_of_le_of_lt hsumAbs (lt_of_lt_of_le (by norm_num) F64.two_pow_le_overflowBound))
  have ht := hweaken hleast0.le (F64.add_error_le hw hmFin htFin)
  have htAbs : |(F64.value (F64.add w (F64.mul sigma g)) : ℝ)| < 2 ^ 128 - 2 ^ 103 := by
    have htAbs := abs_le_of_error hleast ht
    norm_num at hsumAbs htAbs ⊢
    linarith
  obtain ⟨-, -, hf⟩ := F64.toF32_error_le htFin (F64.scaledMag_lt_overflowBound32 htAbs)
  exact three_roundings_close hleast hm ht (hweaken (by positivity) hf)

end Machine
end Sys2Proof
end

section
/-! PROOF. The power of what addNoise adds, by the triangle inequality for the roots of powers, and the measured SNR (43_noise.md
R227). -/

namespace Sys2Proof

open Safety

namespace Machine

/-! ### Roots of powers -/

/-- Where a is near b entry by entry, up to a share c of the entries of x and b and a constant d, the roots of their powers are as
near: the triangle inequality of the Euclidean norm. -/
theorem sqrt_sum_sq_close {ι : Type} [Fintype ι] {a b x : ι → ℝ} {c d : ℝ} (hc : 0 ≤ c) (hd : 0 ≤ d)
    (h : ∀ i, |a i - b i| ≤ c * (|x i| + |b i|) + d) :
    |√(∑ i, a i ^ 2) - √(∑ i, b i ^ 2)| ≤ c * (√(∑ i, x i ^ 2) + √(∑ i, b i ^ 2)) + d * √(Fintype.card ι) := by
  have hnorm : ∀ f : ι → ℝ, √(∑ i, f i ^ 2) = ‖WithLp.toLp 2 f‖ := fun f => by simp [EuclideanSpace.norm_eq]
  have hnormAbs : ∀ f : ι → ℝ, ‖WithLp.toLp 2 f‖ = ‖WithLp.toLp 2 fun i => |f i|‖ := fun f => by
    simp [EuclideanSpace.norm_eq]
  have hone : √(Fintype.card ι) = ‖WithLp.toLp 2 fun _ : ι => (1 : ℝ)‖ := by simp [EuclideanSpace.norm_eq]
  rw [hnorm, hnorm, hnorm, hone, hnormAbs x]
  calc |‖WithLp.toLp 2 a‖ - ‖WithLp.toLp 2 b‖| ≤ ‖WithLp.toLp 2 (a - b)‖ := abs_norm_sub_norm_le _ _
    _ ≤ ‖WithLp.toLp 2 fun i => c * (|x i| + |b i|) + d * 1‖ := by
        rw [← hnorm, ← hnorm]
        refine Real.sqrt_le_sqrt (Finset.sum_le_sum fun i _ => sq_le_sq.2 ?_)
        rw [mul_one]
        exact (h i).trans (le_abs_self _)
    _ = ‖c • (WithLp.toLp 2 (fun i => |x i|) + WithLp.toLp 2 fun i => |b i|) +
        d • WithLp.toLp 2 fun _ : ι => (1 : ℝ)‖ := rfl
    _ ≤ c * (‖WithLp.toLp 2 fun i => |x i|‖ + ‖WithLp.toLp 2 b‖) + d * ‖WithLp.toLp 2 fun _ : ι => (1 : ℝ)‖ := by
        rw [hnormAbs b]
        refine (norm_add_le _ _).trans (add_le_add ?_ (norm_smul_le _ _ |>.trans_eq (by rw [Real.norm_of_nonneg hd])))
        rw [norm_smul, Real.norm_of_nonneg hc]
        exact mul_le_mul_of_nonneg_left (norm_add_le _ _) hc

/-- The power of a complex sequence that a list carries, with real part f and imaginary part h. -/
def listPower {α : Type} (l : List α) (f h : α → ℝ) : ℝ := (l.map fun p => f p ^ 2 + h p ^ 2).sum

/-- The real parts and the imaginary parts of that sequence, as one vector. -/
def listParts {α : Type} (l : List α) (f h : α → ℝ) : Fin l.length ⊕ Fin l.length → ℝ :=
  Sum.elim (fun i => f l[i]) fun i => h l[i]

theorem listPower_eq_sum {α : Type} (l : List α) (f h : α → ℝ) : listPower l f h = ∑ i, listParts l f h i ^ 2 := by
  rw [listPower, Fintype.sum_sum_type, ← Fin.sum_univ_fun_getElem, Finset.sum_add_distrib]
  rfl

/-- The same for complex sequences, part by part. -/
theorem sqrt_listPower_close {α : Type} {l : List α} {a a' b b' x x' : α → ℝ} {c d : ℝ} (hc : 0 ≤ c) (hd : 0 ≤ d)
    (h : ∀ p ∈ l, |a p - b p| ≤ c * (|x p| + |b p|) + d ∧ |a' p - b' p| ≤ c * (|x' p| + |b' p|) + d) :
    |√(listPower l a a') - √(listPower l b b')| ≤
      c * (√(listPower l x x') + √(listPower l b b')) + d * √(2 * l.length) := by
  have hclose := sqrt_sum_sq_close (a := listParts l a a') (b := listParts l b b') (x := listParts l x x') hc hd fun i => by
    cases i with
    | inl i => exact (h _ (List.getElem_mem _)).1
    | inr i => exact (h _ (List.getElem_mem _)).2
  rw [← listPower_eq_sum, ← listPower_eq_sum, ← listPower_eq_sum] at hclose
  rwa [Fintype.card_sum, Fintype.card_fin, ← two_mul, Nat.cast_mul, Nat.cast_two] at hclose

/-- The same for mean powers. -/
theorem sqrt_mean_listPower_close {α : Type} {l : List α} (hl : l ≠ []) {a a' b b' x x' : α → ℝ} {c d : ℝ} (hc : 0 ≤ c)
    (hd : 0 ≤ d)
    (h : ∀ p ∈ l, |a p - b p| ≤ c * (|x p| + |b p|) + d ∧ |a' p - b' p| ≤ c * (|x' p| + |b' p|) + d) :
    |√(listPower l a a' / l.length) - √(listPower l b b' / l.length)| ≤
      c * (√(listPower l x x' / l.length) + √(listPower l b b' / l.length)) + 2 * d := by
  have hlen : (0 : ℝ) < l.length := by exact_mod_cast List.length_pos_iff.2 hl
  have hroot : 0 < √(l.length : ℝ) := Real.sqrt_pos.2 hlen
  have hclose := sqrt_listPower_close hc hd h
  rw [Real.sqrt_div' _ hlen.le, Real.sqrt_div' _ hlen.le, Real.sqrt_div' _ hlen.le, ← sub_div, abs_div, abs_of_pos hroot,
    div_le_iff₀ hroot]
  have htwo : √(2 * l.length : ℝ) ≤ 2 * √l.length := by
    rw [Real.sqrt_mul zero_le_two]
    exact mul_le_mul_of_nonneg_right (Real.sqrt_le_iff.2 ⟨zero_le_two, by norm_num⟩) hroot.le
  calc _ ≤ _ := hclose
    _ ≤ c * (√(listPower l x x') + √(listPower l b b')) + d * (2 * √l.length) := by gcongr
    _ = _ := by field_simp

/-! ### The noise that was added -/

theorem totalPower_map {α : Type} (l : List α) (f : α → F32 × F32) :
    ((totalPower (l.map f) / (l.map f).length : ℚ) : ℝ) =
      listPower l (fun p => F32.value (f p).1) (fun p => F32.value (f p).2) / l.length := by
  simp [totalPower, listPower, Rat.cast_list_sum, Function.comp_def]

theorem scaledPower_map {α : Type} (l : List α) (s : ℚ) (f : α → F64 × F64) :
    ((s ^ 2 * ((l.map f).map fun g => F64.value g.1 ^ 2 + F64.value g.2 ^ 2).sum / (l.map f).length : ℚ) : ℝ) =
      listPower l (fun p => s * F64.value (f p).1) (fun p => s * F64.value (f p).2) / l.length := by
  simp [listPower, Rat.cast_list_sum, Function.comp_def, mul_pow, ← mul_add, List.sum_map_mul_left]

theorem noisePower_map {α : Type} (l : List α) (sigma : F64) (f : α → F32 × F32) (g : α → F64 × F64) :
    ((noisePower (l.map f) (addNoise sigma (l.map f) (l.map g)) : ℚ) : ℝ) =
      listPower l (fun p => F32.value (noisyPart sigma (g p).1 (f p).1) - F32.value (f p).1)
        (fun p => F32.value (noisyPart sigma (g p).2 (f p).2) - F32.value (f p).2) / l.length := by
  simp [noisePower, addNoise, listPower, Rat.cast_list_sum, List.zipWith_map, List.zipWith_self, Function.comp_def]

/-- 43_noise.md R225, R227: the root of the power of what addNoise adds is near that of σ times the draws. -/
theorem addNoise_power_close {sigma : F64} {xs : List (F32 × F32)} {gs : List (F64 × F64)} (hne : xs ≠ [])
    (hlen : gs.length = xs.length) (hs : F64.isFinite sigma = true)
    (hxs : ∀ x ∈ xs, F32.isFinite x.1 = true ∧ F32.isFinite x.2 = true)
    (hgs : ∀ g ∈ gs, F64.isFinite g.1 = true ∧ F64.isFinite g.2 = true)
    (hlt : ∀ x ∈ xs, ∀ g ∈ gs, |F32.value x.1| + |F64.value sigma * F64.value g.1| < 2 ^ 127 ∧
      |F32.value x.2| + |F64.value sigma * F64.value g.2| < 2 ^ 127) :
    |√((noisePower xs (addNoise sigma xs gs) : ℚ) : ℝ) -
        √((F64.value sigma ^ 2 * (gs.map fun g => F64.value g.1 ^ 2 + F64.value g.2 ^ 2).sum / gs.length : ℚ) : ℝ)| ≤
      2 ^ (-23 : ℤ) * (√((totalPower xs / xs.length : ℚ) : ℝ) +
        √((F64.value sigma ^ 2 * (gs.map fun g => F64.value g.1 ^ 2 + F64.value g.2 ^ 2).sum / gs.length : ℚ) : ℝ)) +
        2 ^ (-148 : ℤ) := by
  obtain ⟨l, rfl, rfl⟩ : ∃ l : List ((F32 × F32) × (F64 × F64)), xs = l.map Prod.fst ∧ gs = l.map Prod.snd :=
    ⟨xs.zip gs, (List.map_fst_zip hlen.ge).symm, (List.map_snd_zip hlen.le).symm⟩
  rw [noisePower_map, scaledPower_map, totalPower_map]
  have hl : l ≠ [] := by simpa using hne
  have hclose := sqrt_mean_listPower_close (c := 2 ^ (-23 : ℤ)) (d := 2 ^ (-149 : ℤ)) hl (by positivity) (by positivity)
    (fun p hp => by
      obtain ⟨hx1, hx2⟩ := hxs p.1 (List.mem_map_of_mem hp)
      obtain ⟨hg1, hg2⟩ := hgs p.2 (List.mem_map_of_mem hp)
      obtain ⟨hlt1, hlt2⟩ := hlt p.1 (List.mem_map_of_mem hp) p.2 (List.mem_map_of_mem hp)
      exact ⟨noisyPart_error_le hs hg1 hx1 hlt1, noisyPart_error_le hs hg2 hx2 hlt2⟩)
  rwa [show 2 * (2 : ℝ) ^ (-149 : ℤ) = 2 ^ (-148 : ℤ) by norm_num] at hclose

end Machine

open Machine

/-- Settles O41: (1) and (2) are the errors of the division, of its divisor and of the root, (3) the strong law of large numbers,
and (4) the triangle inequality with the error of each part. -/
theorem measuredSnrConvergesToTheTarget : Obligations.MeasuredSnrConvergesToTheTarget := by
  refine ⟨?_, ?_⟩
  · rintro num snr rate xs _ _ _ _ _ _ rfl rfl rfl rfl rfl rfl hpos hle hlinFin hfin hnormal hvar
    have hvarPos : (0 : ℝ) < F64.value (noiseVariance num snr rate xs) := lt_of_lt_of_le (by positivity) hvar
    obtain ⟨hrateFin, hrate, -⟩ := F64.rate_bounds hpos hle
    have hrate' : (0 : ℝ) < F64.value rate := by exact_mod_cast hrate
    have hlin : (0 : ℝ) < F64.value (linearSnr num snr) :=
      pos_of_mul_pos_right (lt_of_lt_of_le (by positivity) hnormal) (by positivity)
    obtain ⟨henergy, hclose⟩ := noiseVariance_close hpos hle hlinFin hfin hnormal hvar
    have hsign := F64.sign_of_value_pos (Rat.cast_pos.1 hvarPos)
    have hzero : F64.isZero (noiseVariance num snr rate xs) = false := Bool.eq_false_iff.2 fun hz => by
      rw [(F64.value_eq_zero_iff _).2 hz, Rat.cast_zero] at hvarPos
      exact hvarPos.false
    have hroot := F64.sqrt_error_le hfin hzero hsign
    have hsigma : (F64.value (F64.sqrt (noiseVariance num snr rate xs)) : ℝ) ≠ 0 := fun h0 => by
      rw [h0] at hroot
      norm_num at hroot
      rw [abs_of_pos hvarPos] at hroot
      linarith
    have hdB := snr_dB_close (snr := F64.value snr) (by norm_num) henergy hvarPos hrate' hlin hclose hroot
    refine ⟨hclose, hroot, hdB.trans (by norm_num), fun Ω _ μ g _ hg => ⟨fun n hn => ?_, ?_⟩⟩
    · exact hg.integral_mean_power _ hn
    · exact hg.tendsto_measured_snr henergy hsigma
  · rintro sigma xs gs _ _ hne hlen hs hxs hgs hlt rfl rfl
    exact addNoise_power_close hne hlen hs hxs hgs hlt

end Sys2Proof
end

section
/-! PROOF. Who issued a transaction is only in its answer (60_exceptions.md R311), and what each event does to the interrupt output
(60_exceptions.md R306). -/

namespace Sys2Proof.Machine

open Safety

/-! ### The host of a transaction -/

/-- 60_exceptions.md R311: what a transaction does and what it is answered are found before its host's number is used. -/
theorem exists_perform_eq_answer (p : Params) (s : State) (t : Txn) :
    ∃ u a, u.replies = s.replies ∧ ∀ host, perform p s ⟨host, t⟩ = answer u ⟨host, t⟩ a := by
  obtain ⟨u, a, hu⟩ : ∃ u a, ∀ host, perform p s ⟨host, t⟩ = answer u ⟨host, t⟩ a := by
    cases t with
    | read width off => exact ⟨_, _, fun host => perform_read p s host width off⟩
    | write width off v => exact ⟨_, _, fun host => perform_write p s host width off v⟩
  obtain ⟨b, hb⟩ := perform_replies p s ⟨0, t⟩
  rw [hu, answer_replies] at hb
  exact ⟨u, a, (List.cons.inj hb).2, hu⟩

theorem withoutHosts_answer (s : State) (host : Nat) (t : Txn) (a : Answer) :
    withoutHosts (answer s ⟨host, t⟩ a) = answer (withoutHosts s) ⟨0, t⟩ a := rfl

/-! ### The interrupt output -/

theorem irq_of_rstN {s : State} (h : s.rstN = true) : irq s = (s.irqEn && s.done) := by
  rw [irq, h, Bool.true_and]

/-- 60_exceptions.md R306: the interrupt has no source but DONE. -/
theorem irq_of_not_done {s : State} (h : s.done = false) : irq s = false := by
  simp [irq, h]

/-- 40_control.md R134: a command's end sets DONE whatever its code, and leaves `rst_n` and CTRL as they are. -/
theorem execWord_irq {w : Word} {s t : State} (hrst : s.rstN = true) (h : execWord w s = .next t) : irq t = s.irqEn := by
  rw [execWord_eq] at h
  obtain ⟨_, _, _, _, _, _, _, rfl⟩ := execWordWith_frame h
  simp [irq, hrst]

/-- 20_memory.md R89: a read uses at most free values up, which the interrupt does not depend on. -/
theorem perform_read_irq (p : Params) (s : State) (host width off : Nat) :
    irq (perform p s ⟨host, .read width off⟩) = irq s := by
  obtain ⟨d, h⟩ := performRead_state p s width off
  rw [perform_read, h]
  rfl

end Sys2Proof.Machine

namespace Sys2Proof

open Machine Safety

/-- Settles O54: both hosts are given the same answer on the same state, under their own numbers. -/
theorem hostsAreIndistinguishable : Obligations.HostsAreIndistinguishable := by
  intro s h h' t
  obtain ⟨u, a, hreplies, hperform⟩ := exists_perform_eq_answer Config.params s t
  refine ⟨?_, a, ?_, ?_⟩
  · rw [hperform, hperform, withoutHosts_answer, withoutHosts_answer]
  · rw [hperform, answer_replies, hreplies]
  · rw [hperform, answer_replies, hreplies]

/-- Settles O55: a command's end sets DONE, acceptance, the STATUS write and a reset clear it, and a read leaves it. -/
theorem interruptFollowsCompletion : Obligations.InterruptFollowsCompletion := by
  refine ⟨fun w s t => execWord_irq, fun s w => irq_of_not_done rfl, fun s v hv => irq_of_not_done ?_,
    fun s => irq_of_not_done rfl, perform_read_irq Config.params, fun s => irq_of_rstN⟩
  rw [writeStatus_done, hv, Bool.not_true, Bool.and_false]

end Sys2Proof
end

section
/-! PROOF. Reset (70_reset_and_hazards.md R400 to R402; 60_exceptions.md R316): what the registers read after it, which bytes of
the RAM it takes, and what it lets go. -/

namespace Sys2Proof.Machine

open Safety

/-! ### The registers after reset -/

/-- 70_reset_and_hazards.md R401: what stands at a window offset after reset. -/
def resetWord (off : Nat) : Word :=
  if off = 0x000 then 0x4E434F31#32 else if off = 0x004 then 0x00010000#32
  else if off = 0x0DC then 0x3FF00000#32 else 0#32

/-- Along the register map; no reserved offset is one of the three that do not read 0. -/
theorem readWindow_reset (off : Nat) : readWindow State.reset off = resetWord off := by
  have hmap : ∀ e ∈ regMap, readReg State.reset e.2 = resetWord e.1 := by decide
  cases hr : regAt off with
  | some r =>
    rw [readWindow_of_regAt _ hr]
    exact hmap _ (mem_of_lookup hr)
  | none =>
    have hne : ∀ o, (regAt o).isSome = true → off ≠ o := by
      rintro o ho rfl
      simp [hr] at ho
    rw [readWindow_reserved _ hr, resetWord, if_neg (hne _ rfl), if_neg (hne _ rfl), if_neg (hne _ rfl)]

/-! ### The bytes an abort takes -/

/-- Every byte of the range is a free value of its own, numbered by its place. -/
theorem scramble_read_inside (n : Nat) (m : Ram) (d a x : Nat) (hlo : a ≤ x) (hhi : x < a + n) :
    Ram.read (scramble m d a n).1 x = some (Config.freeByte (d + (x - a))) := by
  induction n generalizing m d a with
  | zero => omega
  | succ n ih =>
    unfold scramble
    rcases hlo.eq_or_lt with rfl | hlt
    · rw [scramble_read_other _ _ _ _ _ (.inl (Nat.lt_succ_self a)), Ram.read_write_same, Nat.sub_self, Nat.add_zero]
    · rw [ih _ _ _ hlt (by omega), show d + 1 + (x - (a + 1)) = d + (x - a) by omega]

theorem inRegion_destInRam_iff (p : Params) (s : State) (w : Word) (x : Nat) :
    inRegion (destInRam p s w) x ↔ inRegion (destRegion s w) x ∧ x < p.sramBytes := by
  simp only [inRegion, destInRam]
  omega

section
variable (p : Params) {s : State} {w : Word}

theorem abortCommand_ram (hw : s.pending = some w) :
    (abortCommand p s).ram = (scramble s.ram s.draws (destInRam p s w).1 (destInRam p s w).2).1 := by
  simp [abortCommand, hw]

/-- 70_reset_and_hazards.md R402: a destination byte inside the RAM becomes a free value. -/
theorem abortCommand_read_inside (hw : s.pending = some w) {x : Nat} (hx : inRegion (destRegion s w) x)
    (hlt : x < p.sramBytes) :
    Ram.read (abortCommand p s).ram x = some (Config.freeByte (s.draws + (x - (destRegion s w).1))) := by
  obtain ⟨hlo, hhi⟩ := (inRegion_destInRam_iff p s w x).2 ⟨hx, hlt⟩
  rw [abortCommand_ram p hw]
  exact scramble_read_inside _ _ _ _ _ hlo hhi

/-- 70_reset_and_hazards.md R402: every other byte is kept. -/
theorem abortCommand_read_outside (hw : s.pending = some w) {x : Nat}
    (hx : ¬ (inRegion (destRegion s w) x ∧ x < p.sramBytes)) :
    Ram.read (abortCommand p s).ram x = Ram.read s.ram x := by
  rw [← inRegion_destInRam_iff, inRegion] at hx
  rw [abortCommand_ram p hw]
  exact scramble_read_other _ _ _ _ _ (by omega)

theorem abortCommand_sameOutside (hw : s.pending = some w) :
    sameOutside (destRegion s w) s.ram (abortCommand p s).ram := fun _ hx =>
  abortCommand_read_outside p hw fun hin => hx hin.1

end

/-! ### dest(w) -/

theorem not_inRegion_of_empty {region : Nat × Nat} (h : region.2 = 0) (x : Nat) : ¬ inRegion region x := by
  unfold inRegion
  omega

theorem destRegion_rssiRun_zero {s : State} (h : s.rssiDecim.toNat = 0) : (destRegion s (encode .rssiRun)).2 = 0 := by
  have hzero : s.rssiDecim = 0#32 := BitVec.eq_of_toNat_eq h
  simp [destRegion, encode, hzero]

theorem destRegion_other (s : State) {w : Word} (hproduce : w ≠ encode .ncoProduce) (hrssi : w ≠ encode .rssiRun)
    (hnoise : w ≠ encode .noiseApply) : destRegion s w = (0, 0) :=
  (if_neg hproduce).trans ((if_neg hrssi).trans (if_neg hnoise))

/-! ### The two resets -/

/-- 70_reset_and_hazards.md R400: what `rst_n` going low leaves is what a soft reset leaves. -/
theorem assertReset_eq (p : Params) (s : State) :
    assertReset p s = { State.reset with
      ram := (abortCommand p s).ram, draws := (abortCommand p s).draws, rstN := false, held := s.held, queued := s.queued,
      schedule := s.schedule, replies := s.replies } := by
  rw [assertReset, softReset_eq]

/-- 10_state.md R34: bit 1 of a CTRL write resets, busy or not. -/
theorem perform_soft_reset (p : Params) (s : State) (host : Nat) {v : Word} (hv : v.getLsbD 1 = true) :
    perform p s ⟨host, .write 32 0x008 v⟩ = answer (softReset p s) ⟨host, .write 32 0x008 v⟩ .ok := by
  rw [perform_write_window p s host v (by decide) (by decide),
    writeWindow_neverDropped p s v (show regAt 0x008 = some .ctrl by rfl) rfl, writeReg_ctrl_reset p s hv]

/-- 70_reset_and_hazards.md R402: once the block is idle, what held before acts next. -/
theorem run_heldServed_of_sameBus {s t : State} (hbus : SameBus s t) (hp : t.pending = none) (hr : s.rstN = true)
    (hram : ∀ i ∈ s.held, reachesRam Config.params i.txn = true) :
    Sys2Proof.core.run s.held.length t = .next (heldServed Config.params t) ∧
      (heldServed Config.params t).held = [] ∧ (heldServed Config.params t).pending = none := by
  rw [← hbus.held] at hram ⊢
  exact run_heldServed (hbus.rstN.trans hr) hp hram

end Sys2Proof.Machine

namespace Sys2Proof

open Machine Safety

/-- Settles O56: the register map offset by offset; nothing is pending and nothing has been written. -/
theorem resetRegistersRead : Obligations.ResetRegistersRead :=
  ⟨readWindow_reset, rfl, rfl, fun _ => rfl⟩

/-- Settles O59: nothing is pending, held or written, and no oscillator exists. -/
theorem resetStateIsWellFormed : Obligations.ResetStateIsWellFormed := fun p =>
  { ram_wf := rfl
    ram_below := rfl
    nco := oscillatorOk_none p
    var_finite := show F64.isFinite 0#64 = true by decide
    cmd_pending := nofun
    not_busy_done := nofun
    idle_in_reset := nofun
    held_ram := nofun
    held_hosts := List.nodup_nil }

/-- Settles O57: dest(w) word by word; a CTRL write with bit 1 = 1 is the soft reset, whose abort takes exactly the bytes of dest(w)
inside the RAM, and which leaves the block idle. -/
theorem softResetAbortsAndResets : Obligations.SoftResetAbortsAndResets := by
  refine ⟨fun s => ⟨destRegion_ncoProduce s, destRegion_rssiRun, fun h => ?_, destRegion_noiseApply s,
    fun w hproduce hrssi hnoise => ?_⟩, fun s host v hv => ?_⟩
  · exact not_inRegion_of_empty (destRegion_rssiRun_zero h)
  · rw [destRegion_other s hproduce hrssi hnoise]
    exact not_inRegion_of_empty rfl
  · refine ⟨(abortCommand Config.params s).ram, (abortCommand Config.params s).draws, _, ?_, rfl, fun hidle => ?_,
      run_heldServed_of_sameBus ⟨rfl, rfl, rfl, rfl⟩ rfl, fun w hw => ⟨fun x => abortCommand_read_inside Config.params hw,
        fun x => abortCommand_read_outside Config.params hw⟩⟩
    · rw [perform_soft_reset _ s host hv, softReset_eq]
      rfl
    · rw [abortCommand_idle _ hidle]
      exact ⟨rfl, rfl⟩

/-- Settles O58: each of the four events as the step runs it; what `rst_n` going low does to the RAM is the abort. -/
theorem hardwareResetResets : Obligations.HardwareResetResets := by
  intro s es hrel
  refine ⟨fun hs => ?_, fun i hlow hs => ?_, fun hs => ?_, fun hs => ?_⟩
  · refine ⟨_, _, (step_of_event hrel hs).trans (congrArg _ (assertReset_eq ..)), fun hidle => ?_,
      fun w hw => abortCommand_sameOutside _ (s := { s with schedule := es }) hw, fun t ht => by rw [irq, ht, Bool.false_and]⟩
    rw [abortCommand_idle _ (s := { s with schedule := es }) hidle]
  · rw [step_of_event hrel hs]
    simp [runEventWith, hlow]
  · rw [step_of_event hrel hs]
    rfl
  · rw [step_of_event hrel hs]
    rfl

end Sys2Proof
end

section
/-! PROOF. Pending work drains (70_reset_and_hazards.md R411; 40_control.md R138; 20_memory.md R87): each step spends work, and in
a fair endless run the engine's turn comes. -/

namespace Sys2Proof.Machine

open Safety

/-! ### The work in sight -/

/-- A bound on the steps the state needs when nothing new comes: an event may leave a transaction queued, a queued transaction
may come to hold, one that holds may start a command, and a command takes one step. -/
def work (s : State) : Nat :=
  4 * s.schedule.length + 3 * s.queued.length + 2 * s.held.length + (busy s).toNat

/-- No event is left, nothing is pending and, with `rst_n` high, nothing waits. -/
structure Settled (s : State) : Prop where
  schedule : s.schedule = []
  pending : s.pending = none
  waiting : s.rstN = true → s.held = [] ∧ s.queued = []

/-- The waiting transactions and the events to come are the same in t as in s. -/
structure SameWaiting (s t : State) : Prop where
  held : t.held = s.held
  queued : t.queued = s.queued
  schedule : t.schedule = s.schedule

theorem SameBus.sameWaiting {s t : State} (h : SameBus s t) : SameWaiting s t := ⟨h.held, h.queued, h.schedule⟩

theorem SameWaiting.work_le_succ {s t : State} (h : SameWaiting s t) : work t ≤ work s + 1 := by
  have hbusy := Bool.toNat_le (busy t)
  simp only [work, h.schedule, h.queued, h.held]
  omega

theorem SameWaiting.work_le {s t : State} (h : SameWaiting s t) (ht : t.pending = none) : work t ≤ work s := by
  simp [work, h.schedule, h.queued, h.held, busy, ht]

theorem SameWaiting.work_lt {s t : State} (h : SameWaiting s t) (hs : s.pending.isSome = true) (ht : t.pending = none) :
    work t < work s := by
  simp [work, h.schedule, h.queued, h.held, busy, hs, ht]

/-- A transaction comes to hold, or it may start a command. -/
theorem work_receive_le (p : Params) (s : State) (i : Issued) : work (receive p s i) ≤ work s + 2 := by
  rcases receive_cases p s i with ⟨-, -, h⟩ | ⟨-, h⟩ <;> rw [h]
  · simp only [work, busy, List.length_append, List.length_singleton]
    omega
  · exact (perform_bus p s i).sameWaiting.work_le_succ.trans (Nat.le_succ _)

theorem work_issue_le (p : Params) (s : State) (i : Issued) : work (issue p s i) ≤ work s + 3 := by
  rcases issue_cases p s i with ⟨-, h⟩ | ⟨-, h⟩ <;> rw [h]
  · simp only [work, busy, List.length_append, List.length_singleton]
    omega
  · exact (work_receive_le p s i).trans (Nat.le_succ _)

/-- A transaction that was queued may come to hold, and one that held is performed. -/
theorem work_released_lt (p : Params) {s u : State} {i : Issued} (h : released s = some (i, u)) :
    work (receive p u i) < work s := by
  obtain ⟨-, ⟨hidle, rest, hheld, rfl⟩ | ⟨-, before, after, hqueued, -, -, rfl⟩⟩ := released_some h
  · rw [receive_of_idle p (s := { s with held := rest }) hidle]
    have hle := (perform_bus p { s with held := rest } i).sameWaiting.work_le_succ
    simp only [work, busy, hheld, List.length_cons] at hle ⊢
    omega
  · have hle := work_receive_le p { s with queued := before ++ after } i
    simp only [work, busy, hqueued, List.length_append, List.length_cons] at hle ⊢
    omega

/-- The completion of a command leaves what waits as it is. -/
theorem execWordWith_bus {p : Params} {w : Word} {s t : State} (h : execWordWith (execOn p) w s = .next t) :
    SameBus s t ∧ t.pending = none := by
  obtain ⟨_, _, _, _, _, _, _, rfl⟩ := execWordWith_frame h
  exact ⟨⟨rfl, rfl, rfl, rfl⟩, rfl⟩

/-- The engine's turn ends the pending command, and does nothing where there is none. -/
theorem work_engine {p : Params} {s t : State} (h : engineStepWith (execOn p) s = .next t) :
    (s.pending = none ∧ t = s) ∨ work t < work s := by
  refine (engineStepWith_next h).imp_right fun ⟨w, hw, hexec⟩ => ?_
  obtain ⟨hbus, hidle⟩ := execWordWith_bus hexec
  exact hbus.sameWaiting.work_lt (by simp [hw]) hidle

/-- An event leaves at most one transaction more that waits. -/
theorem work_event_le {p : Params} {e : Event} {s t : State} (h : runEventWith p (execOn p) e s = .next t) :
    work t ≤ work s + 3 := by
  cases e with
  | engine =>
    rcases work_engine h with ⟨-, rfl⟩ | hlt <;> omega
  | bus i =>
    dsimp only [runEventWith] at h
    split at h
    · cases h
      exact work_issue_le p s i
    · cases h
  | resetLow =>
    cases h
    have hsame : SameWaiting s (assertReset p s) := by
      rw [assertReset_eq]
      exact ⟨rfl, rfl, rfl⟩
    exact (hsame.work_le rfl).trans (Nat.le_add_right _ 3)
  | resetHigh =>
    cases h
    exact Nat.le_add_right (work s) 3
  | powerCycle =>
    cases h
    exact (SameWaiting.work_le (s := s) (t := powerCycle s) ⟨rfl, rfl, rfl⟩ rfl).trans (Nat.le_add_right _ 3)

/-! ### A step spends work -/

/-- With nothing to release and no command pending, nothing waits. -/
theorem settled_of_released_none {s : State} (hrel : released s = none) (hs : s.schedule = []) (hp : s.pending = none) :
    Settled s := by
  refine ⟨hs, hp, fun hr => ?_⟩
  obtain ⟨hheld, hqueued⟩ := (released_eq_none s).1 hrel hr
  refine ⟨hheld hp, List.eq_nil_iff_forall_not_mem.2 fun i hi => ?_⟩
  obtain ⟨j, hj, -⟩ := hqueued i hi
  simp [hheld hp] at hj

theorem stepOn_spends_work {p : Params} {s t : State} (h : stepOn p s = .next t) : Settled s ∨ work t < work s := by
  unfold stepOn at h
  rcases stepWith_cases p (execOn p) s with ⟨i, u, hrel, hstep⟩ | ⟨hrel, hs, hstep⟩ | ⟨e, es, -, hs, hstep⟩ <;> rw [hstep] at h
  · cases h
    exact .inr (work_released_lt p hrel)
  · exact (work_engine h).imp_left fun hidle => settled_of_released_none hrel hs hidle.1
  · refine .inr ((Nat.lt_succ_of_le (work_event_le h)).trans_le ?_)
    simp only [work, busy, hs, List.length_cons]
    omega

theorem receive_level (p : Params) (s : State) (i : Issued) :
    (receive p s i).schedule = s.schedule ∧ (receive p s i).rstN = s.rstN := by
  rcases receive_cases p s i with ⟨-, -, h⟩ | ⟨-, h⟩ <;> rw [h]
  · exact ⟨rfl, rfl⟩
  · exact ⟨(perform_bus p s i).schedule, (perform_bus p s i).rstN⟩

theorem engineStepWith_bus {p : Params} {s t : State} (h : engineStepWith (execOn p) s = .next t) : SameBus s t := by
  rcases engineStepWith_next h with ⟨-, rfl⟩ | ⟨w, -, hexec⟩
  · exact ⟨rfl, rfl, rfl, rfl⟩
  · exact (execWordWith_bus hexec).1

/-- No step moves `rst_n` when no event is to come. -/
theorem stepOn_of_no_event {p : Params} {s t : State} (hs : s.schedule = []) (h : stepOn p s = .next t) :
    t.schedule = [] ∧ t.rstN = s.rstN := by
  unfold stepOn at h
  rcases stepWith_cases p (execOn p) s with ⟨i, u, hrel, hstep⟩ | ⟨-, -, hstep⟩ | ⟨e, es, -, hes, -⟩
  · rw [hstep] at h
    cases h
    obtain ⟨hschedule, hlevel⟩ := receive_level p u i
    rw [hschedule, hlevel]
    obtain ⟨-, ⟨-, rest, -, rfl⟩ | ⟨-, before, after, -, -, -, rfl⟩⟩ := released_some hrel <;> exact ⟨hs, rfl⟩
  · rw [hstep] at h
    have hbus := engineStepWith_bus h
    exact ⟨hbus.schedule.trans hs, hbus.rstN⟩
  · simp [hs] at hes

/-- 70_reset_and_hazards.md R411: a run settles within the work in sight, or is refused for a bus transaction in reset, which takes
an event. -/
theorem run_settles (s : State) :
    ∃ k ≤ work s,
      (s.schedule ≠ [] ∧ ∃ host, Sys2Proof.core.run k s = .refused (.busWhileReset host)) ∨
        ∃ t, Sys2Proof.core.run k s = .next t ∧ Settled t ∧ (s.schedule = [] → t.rstN = s.rstN) := by
  induction hn : work s using Nat.strong_induction_on generalizing s with
  | _ n ih =>
    subst hn
    rcases stepOn_next_or_refused Config.params s with ⟨u, hu⟩ | ⟨i, es, -, hs, hstop⟩
    · rcases stepOn_spends_work hu with hsettled | hlt
      · exact ⟨0, Nat.zero_le _, .inr ⟨s, rfl, hsettled, fun _ => rfl⟩⟩
      · obtain ⟨k, hk, hrun⟩ := ih _ hlt u rfl
        refine ⟨k + 1, by omega, ?_⟩
        rw [run_succ_of_step ((step_eq_stepOn s).trans hu)]
        refine hrun.imp (fun ⟨hne, hstop⟩ => ⟨fun hs => hne (stepOn_of_no_event hs hu).1, hstop⟩)
          fun ⟨t, ht, hsettled, hlevel⟩ => ⟨t, ht, hsettled, fun hs => ?_⟩
        obtain ⟨hnone, hkept⟩ := stepOn_of_no_event hs hu
        exact (hlevel hnone).trans hkept
    · have hcore : Sys2Proof.core.step s = .refused (.busWhileReset i.host) := (step_eq_stepOn s).trans hstop
      refine ⟨1, ?_, .inl ⟨by simp [hs], i.host, by simp only [Host.Core.run, hcore]⟩⟩
      simp only [work, hs, List.length_cons]
      omega

/-! ### Transactions and events act the same whatever is to come -/

theorem softReset_with_schedule (p : Params) (s : State) (es : List Event) :
    softReset p { s with schedule := es } = { softReset p s with schedule := es } := by
  unfold softReset abortCommand
  cases s.pending <;> rfl

theorem writeReg_with_schedule (p : Params) (s : State) (r : Reg) (v : Word) (es : List Event) :
    writeReg p { s with schedule := es } r v = { writeReg p s r v with schedule := es } := by
  cases r with
  | ctrl =>
    show writeCtrl p { s with schedule := es } v = { writeCtrl p s v with schedule := es }
    unfold writeCtrl
    split
    · exact softReset_with_schedule p s es
    · rfl
  | _ => rfl

theorem writeWindow_with_schedule (p : Params) (s : State) (off : Nat) (v : Word) (es : List Event) :
    writeWindow p { s with schedule := es } off v = { writeWindow p s off v with schedule := es } := by
  have hbusy : busy { s with schedule := es } = busy s := rfl
  cases hr : regAt off with
  | none =>
    simp only [writeWindow, hr, hbusy]
    cases busy s <;> rfl
  | some r =>
    simp only [writeWindow, hr, hbusy]
    cases busy s && !neverDropped r
    · simp only [Bool.false_eq_true, if_false]
      exact writeReg_with_schedule p s r v es
    · rfl

theorem perform_with_schedule (p : Params) (s : State) (i : Issued) (es : List Event) :
    perform p { s with schedule := es } i = { perform p s i with schedule := es } := by
  obtain ⟨host, txn⟩ := i
  cases txn with
  | read width off =>
    simp only [perform_read, performRead]
    cases locate p width off <;> rfl
  | write width off v =>
    simp only [perform_write, performWrite]
    cases locate p width off with
    | window o =>
      show answer (writeWindow p { s with schedule := es } o v) _ _ = _
      rw [writeWindow_with_schedule]
      rfl
    | ram a => rfl
    | nowhere => rfl

theorem receive_with_schedule (p : Params) (s : State) (i : Issued) (es : List Event) :
    receive p { s with schedule := es } i = { receive p s i with schedule := es } := by
  have hhold : mustHold p { s with schedule := es } i.txn = mustHold p s i.txn := rfl
  simp only [receive, hhold]
  cases mustHold p s i.txn
  · simp only [Bool.false_eq_true, if_false]
    exact perform_with_schedule p s i es
  · rfl

theorem stepOn_of_released (p : Params) {s u : State} {i : Issued} (h : released s = some (i, u)) :
    stepOn p s = .next (receive p u i) := by
  simp [stepOn, stepWith, h]

theorem stepOn_of_event (p : Params) {s : State} {e : Event} {es : List Event} (hrel : released s = none)
    (hs : s.schedule = e :: es) : stepOn p s = runEventWith p (execOn p) e { s with schedule := es } := by
  simp [stepOn, stepWith, hrel, hs]

/-- A step with one event to come: a released transaction reaches the block, or the event is taken. -/
theorem stepOn_one_event (p : Params) (s : State) (e : Event) :
    (∃ i u, released s = some (i, u) ∧
        stepOn p { s with schedule := [e] } = .next { receive p u i with schedule := [e] }) ∨
      (released s = none ∧ stepOn p { s with schedule := [e] } = runEventWith p (execOn p) e { s with schedule := [] }) := by
  have hmoved := released_with_schedule s [e]
  cases hrel : released s with
  | some r =>
    rw [hrel] at hmoved
    exact .inl ⟨r.1, r.2, rfl, (stepOn_of_released p hmoved).trans (congrArg _ (receive_with_schedule p r.2 r.1 [e]))⟩
  | none =>
    rw [hrel] at hmoved
    exact .inr ⟨rfl, stepOn_of_event p hmoved rfl⟩

theorem runEventWith_schedule {p : Params} {e : Event} {s t : State} (h : runEventWith p (execOn p) e s = .next t) :
    t.schedule = s.schedule := by
  cases e with
  | engine => exact (engineStepWith_bus h).schedule
  | bus i =>
    dsimp only [runEventWith] at h
    split at h
    · cases h
      rcases issue_cases p s i with ⟨-, hi⟩ | ⟨-, hi⟩ <;> rw [hi]
      exact (receive_level p s i).1
    · cases h
  | resetLow =>
    cases h
    rw [assertReset_eq]
  | resetHigh => cases h; rfl
  | powerCycle => cases h; rfl

/-! ### A step while a command is pending -/

theorem pending_of_registersAtReset {t : State} (h : registersAtReset t) : t.pending = none := congrArg State.pending h

section
variable {p : Params} {s : State} {w : Word} (hw : s.pending = some w)
include hw

/-- 40_control.md R133: a write leaves the pending command, unless it is the soft reset. -/
theorem writeWindow_keeps_pending (off : Nat) (v : Word) :
    (writeWindow p s off v).pending = some w ∨ registersAtReset (writeWindow p s off v) := by
  have hb : busy s = true := by simp [busy, hw]
  by_cases hctrl : off = 0x008
  · subst hctrl
    rw [writeWindow_neverDropped p s v (show regAt 0x008 = some .ctrl by rfl) rfl]
    cases hv : v.getLsbD 1 with
    | true =>
      rw [writeReg_ctrl_reset p s hv]
      exact .inr (registersAtReset_softReset p s)
    | false =>
      rw [writeReg_ctrl_irqEn p s hv]
      exact .inl hw
  by_cases hstatus : off = 0x00C
  · subst hstatus
    rw [writeWindow_neverDropped p s v (show regAt 0x00C = some .status by rfl) rfl]
    exact .inl hw
  · rw [writeWindow_dropped p v hb hctrl hstatus]
    exact .inl hw

theorem perform_keeps_pending (i : Issued) :
    (perform p s i).pending = some w ∨ registersAtReset (perform p s i) := by
  obtain ⟨host, txn⟩ := i
  cases txn with
  | read width off =>
    obtain ⟨d, h⟩ := performRead_state p s width off
    rw [perform_read, h]
    exact .inl hw
  | write width off v =>
    rw [perform_write]
    rcases performWrite_state p s width off v with ⟨o, -, h⟩ | ⟨a, -, h⟩ | ⟨-, h⟩ <;> rw [h]
    · exact (writeWindow_keeps_pending hw o v).imp_right fun hreset => registersAtReset_answer hreset _ _
    · exact .inl hw
    · exact .inl hw

theorem receive_keeps_pending (i : Issued) :
    (receive p s i).pending = some w ∨ registersAtReset (receive p s i) := by
  rcases receive_cases p s i with ⟨-, -, h⟩ | ⟨-, h⟩ <;> rw [h]
  · exact .inl hw
  · exact perform_keeps_pending hw i

theorem issue_keeps_pending (i : Issued) :
    (issue p s i).pending = some w ∨ registersAtReset (issue p s i) := by
  rcases issue_cases p s i with ⟨-, h⟩ | ⟨-, h⟩ <;> rw [h]
  · exact .inl hw
  · exact receive_keeps_pending hw i

/-- Every event but the engine's turn leaves the pending command, unless it is a reset. -/
theorem runEventWith_keeps_pending {e : Event} {t : State} (h : runEventWith p (execOn p) e s = .next t) (he : e ≠ .engine) :
    t.pending = some w ∨ registersAtReset t := by
  cases e with
  | engine => exact absurd rfl he
  | bus i =>
    dsimp only [runEventWith] at h
    split at h
    · cases h
      exact issue_keeps_pending hw i
    · cases h
  | resetLow => cases h; exact .inr rfl
  | resetHigh => cases h; exact .inl hw
  | powerCycle => cases h; exact .inr rfl

theorem engineStepWith_of_pending (run : Executor) : engineStepWith run s = execWordWith run w s := by
  simp [engineStepWith, fetch, hw]

end

/-- While a command is pending what is released was queued, and the queue gets shorter. -/
theorem queued_length_receive (p : Params) {s u : State} {i : Issued} (hb : s.pending.isSome = true)
    (h : released s = some (i, u)) : (receive p u i).queued.length < s.queued.length := by
  have hqueued : ∀ v : State, (receive p v i).queued = v.queued := fun v => by
    rcases receive_cases p v i with ⟨-, -, hv⟩ | ⟨-, hv⟩ <;> rw [hv]
    exact (perform_bus p v i).queued
  obtain ⟨-, ⟨hidle, -⟩ | ⟨-, before, after, hs, -, -, rfl⟩⟩ := released_some h
  · simp [hidle] at hb
  · simp [hqueued, hs]

end Sys2Proof.Machine

namespace Sys2Proof.Safety

open Machine

/-- Between s and t the pending command w ends: the engine executes it, or a reset takes it away. -/
def PendingEnds (p : Params) (w : Word) (s t : State) : Prop :=
  t.pending = none ∧ (execWordWith (execOn p) w { s with schedule := [] } = .next t ∨ registersAtReset t)

namespace OpenRun

variable {p : Params} {es : Nat → Event} {ss : Nat → State} {taken : Nat → Nat} (h : OpenRun p es ss taken)
include h

/-- A step of an endless run: a released transaction reaches the block, or the next event is taken. -/
theorem step_cases (n : Nat) :
    (∃ i u, released (ss n) = some (i, u) ∧ taken (n + 1) = taken n ∧ ss (n + 1) = { receive p u i with schedule := [] }) ∨
      (taken (n + 1) = taken n + 1 ∧
        runEventWith p (execOn p) (es (taken n)) { ss n with schedule := [] } = .next (ss (n + 1))) := by
  obtain ⟨t, ht, hnext⟩ := h.step n
  rcases stepOn_one_event p (ss n) (es (taken n)) with ⟨i, u, hrel, hstep⟩ | ⟨hrel, hstep⟩ <;> rw [hstep] at ht
  · cases ht
    exact .inl ⟨i, u, hrel, h.taken_wait n (by simp [hrel]), hnext⟩
  · have hschedule : t.schedule = [] := runEventWith_schedule ht
    rw [← hschedule] at hnext
    exact .inr ⟨h.taken_event n hrel, hnext ▸ ht⟩

/-- A step while w is pending: w ends, or it stays and the step uses up the queue or an event that is not the engine's turn. -/
theorem pending_step {n : Nat} {w : Word} (hw : (ss n).pending = some w) :
    PendingEnds p w (ss n) (ss (n + 1)) ∨
      (ss (n + 1)).pending = some w ∧
        (taken (n + 1) = taken n ∧ (ss (n + 1)).queued.length < (ss n).queued.length ∨
          taken (n + 1) = taken n + 1 ∧ es (taken n) ≠ .engine) := by
  rcases h.step_cases n with ⟨i, u, hrel, htaken, hnext⟩ | ⟨htaken, hrun⟩
  · have hb : (ss n).pending.isSome = true := by simp [hw]
    have hqueued := queued_length_receive p hb hrel
    obtain ⟨q, rfl⟩ := released_busy hb hrel
    rw [hnext]
    rcases receive_keeps_pending (p := p) (s := { ss n with queued := q }) hw i with hkept | hreset
    · exact .inr ⟨hkept, .inl ⟨htaken, hqueued⟩⟩
    · have hreset' := congrArg (fun t : State => { t with schedule := [] }) hreset
      exact .inl ⟨pending_of_registersAtReset hreset', .inr hreset'⟩
  · by_cases he : es (taken n) = .engine
    · rw [he] at hrun
      have hexec : execWordWith (execOn p) w { ss n with schedule := [] } = .next (ss (n + 1)) :=
        (engineStepWith_of_pending (s := { ss n with schedule := [] }) hw _).symm.trans hrun
      exact .inl ⟨(execWordWith_bus hexec).2, .inl hexec⟩
    · rcases runEventWith_keeps_pending (s := { ss n with schedule := [] }) hw hrun he with hkept | hreset
      · exact .inr ⟨hkept, .inr ⟨htaken, he⟩⟩
      · exact .inl ⟨pending_of_registersAtReset hreset, .inr hreset⟩

/-- A pending command ends by the time the engine's next turn is taken: each step until then uses up an event or the queue. -/
theorem pending_ends {w : Word} {e : Nat} (he : es e = .engine) (n : Nat) (hle : taken n ≤ e)
    (hw : (ss n).pending = some w) :
    ∃ m, n ≤ m ∧ (∀ j, n ≤ j → j ≤ m → (ss j).pending = some w) ∧ PendingEnds p w (ss m) (ss (m + 1)) := by
  rcases h.pending_step hw with hends | ⟨hkept, huses⟩
  · refine ⟨n, le_rfl, fun j hlo hhi => ?_, hends⟩
    rwa [le_antisymm hhi hlo]
  · have hnext : taken (n + 1) ≤ e := by
      rcases huses with ⟨htaken, -⟩ | ⟨htaken, hne⟩
      · omega
      · have hlt : taken n ≠ e := fun heq => hne (heq ▸ he)
        omega
    obtain ⟨m, hm, hpending, hends⟩ := pending_ends he (n + 1) hnext hkept
    refine ⟨m, by omega, fun j hlo hhi => ?_, hends⟩
    rcases hlo.eq_or_lt with rfl | hlt
    · exact hw
    · exact hpending j hlt hhi
termination_by (e - taken n, (ss n).queued.length)
decreasing_by
  simp only [Prod.lex_def]
  omega

/-- While a command is pending, what holds goes on holding. -/
theorem held_grows_succ {n : Nat} (hb : (ss n).pending.isSome = true) : (ss n).held <+: (ss (n + 1)).held := by
  obtain ⟨t, ht, hnext⟩ := h.step n
  rw [hnext]
  rcases (stepOn_busy_ramWaits (s := { ss n with schedule := [es (taken n)] }) hb ht).held with hheld | ⟨i, hheld⟩
  · exact ⟨[], by simp [hheld]⟩
  · exact ⟨[i], hheld.symm⟩

theorem held_grows {n m : Nat} (hle : n ≤ m) (hb : ∀ j, n ≤ j → j ≤ m → (ss j).pending.isSome = true) :
    (ss n).held <+: (ss (m + 1)).held := by
  induction m, hle using Nat.le_induction with
  | base => exact h.held_grows_succ (hb n le_rfl le_rfl)
  | succ m hle ih =>
    exact (ih fun j hlo hhi => hb j hlo (by omega)).trans (h.held_grows_succ (hb (m + 1) (by omega) le_rfl))

/-- With the block idle and out of reset the oldest access that holds acts. -/
theorem serves_oldest {n : Nat} {i : Issued} {rest : List Issued} (hidle : (ss n).pending = none) (hr : (ss n).rstN = true)
    (hheld : (ss n).held = i :: rest) : ss (n + 1) = perform p { ss n with held := rest, schedule := [] } i := by
  have hrel := released_of_idle hheld hr hidle
  rcases h.step_cases n with ⟨j, u, hj, -, hnext⟩ | ⟨htaken, -⟩
  · rw [hrel] at hj
    cases hj
    rw [hnext, receive_of_idle p (s := { ss n with held := rest }) hidle]
    exact (perform_with_schedule p { ss n with held := rest } i []).symm
  · have hwait := h.taken_wait n (by simp [hrel])
    omega

/-- Sooner or later the block is idle, with everything that held still holding. -/
theorem exists_idle (hfair : Fair es) (n : Nat) : ∃ m, n ≤ m ∧ (ss m).pending = none ∧ (ss n).held <+: (ss m).held := by
  cases hp : (ss n).pending with
  | none => exact ⟨n, le_rfl, hp, [], List.append_nil _⟩
  | some w =>
    obtain ⟨e, hle, he⟩ := hfair (taken n)
    obtain ⟨m, hm, hpending, hidle, -⟩ := h.pending_ends he n hle hp
    exact ⟨m + 1, by omega, hidle, h.held_grows hm fun j hlo hhi => by simp [hpending j hlo hhi]⟩

/-- An access acts once those that held before it have. -/
theorem held_acts (hfair : Fair es) {i : Issued} (before : List Issued) :
    ∀ {n : Nat} {after : List Issued}, (ss n).held = before ++ i :: after → (∀ j, n ≤ j → (ss j).rstN = true) →
      ∃ m rest, n ≤ m ∧ (ss m).pending = none ∧ (ss m).held = i :: rest ∧
        ss (m + 1) = perform p { ss m with held := rest, schedule := [] } i := by
  induction before with
  | nil =>
    intro n after hheld hr
    obtain ⟨m, hle, hidle, new, hm⟩ := h.exists_idle hfair n
    have hm' : (ss m).held = i :: (after ++ new) := by simp [← hm, hheld]
    exact ⟨m, _, hle, hidle, hm', h.serves_oldest hidle (hr m hle) hm'⟩
  | cons j before ih =>
    intro n after hheld hr
    obtain ⟨m, hle, hidle, new, hm⟩ := h.exists_idle hfair n
    have hm' : (ss m).held = j :: (before ++ i :: (after ++ new)) := by simp [← hm, hheld]
    have hnext : (ss (m + 1)).held = before ++ i :: (after ++ new) := by
      rw [h.serves_oldest hidle (hr m hle) hm']
      exact (perform_bus p _ j).held
    obtain ⟨k, rest, hk, hacts⟩ := ih hnext fun j hj => hr j (by omega)
    exact ⟨k, rest, by omega, hacts⟩

end OpenRun

end Sys2Proof.Safety

namespace Sys2Proof

open Machine Safety

/-- Settles O8: every step spends work, so a finite order of events runs out; in a fair endless run the engine's turn comes, and then
the accesses that hold act one after the other. -/
theorem pendingWorkDrains : Obligations.PendingWorkDrains := by
  refine ⟨fun s hr hs => ?_, fun s => ?_, fun p es ss taken h hfair => ⟨fun n w hw => ?_, fun n i hi hr => ?_⟩⟩
  · obtain ⟨k, hk, ⟨hne, -⟩ | ⟨t, hrun, hsettled, hlevel⟩⟩ := run_settles s
    · exact absurd hs hne
    · obtain ⟨hheld, hqueued⟩ := hsettled.waiting ((hlevel hs).trans hr)
      have hbusy := Bool.toNat_le (busy s)
      simp only [work, hs, List.length_nil] at hk
      exact ⟨k, by omega, t, hrun, hheld, hqueued, hsettled.pending, hsettled.schedule⟩
  · obtain ⟨k, -, ⟨-, hstop⟩ | ⟨t, hrun, hsettled, -⟩⟩ := run_settles s
    · exact ⟨k, .inl hstop⟩
    · exact ⟨k, .inr ⟨t, hrun, hsettled.schedule, hsettled.pending, hsettled.waiting⟩⟩
  · obtain ⟨e, hle, he⟩ := hfair (taken n)
    exact h.pending_ends he n hle hw
  · obtain ⟨before, after, hheld⟩ := List.append_of_mem hi
    exact h.held_acts hfair before hheld hr

end Sys2Proof
end
